-- ==== Sys2Proof/Word.lean ====
section
/-! DEFINITION. The words of the block: bytes, 32-bit registers and command words, 64-bit hash words (00_scope.md R5, R8). -/

namespace Sys2Proof

/-- One byte of a window or of the B2 input buffer. -/
abbrev Byte := BitVec 8

/-- A register or a command word (10_state.md section 3: "All registers are 32 bits"). -/
abbrev Word32 := BitVec 32

/-- A word of the hash state, the work vector or the message (00_scope.md R5, `B2_WORD`). -/
abbrev Word64 := BitVec 64

end Sys2Proof
end

