-- ==== Sys2Proof/Config.lean ====
section
/-! DEFINITION. What an implementation fixes: the OPEN parameters of 00_scope.md R5 and what follows from them (R6),
the names of the units and of the agents, and the free values of the model. -/

namespace Sys2Proof

/-- The two independent units of the block (00_scope.md R1): BLAKE2b and Base58. -/
inductive DevUnit where
  | b2
  | b58
  deriving DecidableEq, Repr

/-- Who can take the next step (10_state.md R20): the host, the engine of a unit, or the reset input. -/
inductive Agent where
  | host
  | engine (u : DevUnit)
  | reset
  deriving DecidableEq, Repr, Inhabited

/-- The parameter of the model that is a plain number: `B58_MAXLEN` (N) of 00_scope.md R5. No step changes it
(log 1). -/
structure Config where
  /-- N: the largest encode input and decode output, and the size of BIN. -/
  maxLen : Nat
  deriving DecidableEq, Repr

/-- The default the spec's vectors use: N = 256 (00_scope.md R5). -/
def Config.default : Config := { maxLen := 256 }

/-- `EncSize(K) = floor(K * 138 / 100) + 1` (40_base58.md R123). -/
def encSize (k : Nat) : Nat := k * 138 / 100 + 1

/-- `B58_ENC_WORK_MAX` (00_scope.md R5, R6). -/
def Config.encWorkMax (cfg : Config) : Nat := encSize cfg.maxLen

/-- `B58_TXT_SIZE`, written T (00_scope.md R5, R6). -/
def Config.txtSize (cfg : Config) : Nat := cfg.maxLen * 138 / 100 + 2

/-- FREE VALUE. The 4096-byte page of the host's address space at which the platform puts the device
(00_scope.md R5: `DEV_BASE` is OPEN and has no default; log 2). -/
opaque Config.devPage : Nat

/-- `DEV_BASE`: a multiple of 4096 (00_scope.md R5). -/
def devBase : Nat := 4096 * Config.devPage

/-- FREE VALUE. Which agent moves at the n-th step once the schedule of the state is used up
(20_memory.md R76: the agents' steps interleave in any order; log 3, log 15). -/
opaque Config.freeAgent : Nat → Agent

end Sys2Proof
end

