-- ==== Sys2Proof/Syntax.lean ====
section
/-! DEFINITION. The commands of the block, one constructor for each row of spec/opcode_table.json.
No operand is encoded in a command word (30_encoding.md R92), so no constructor has a field. -/

namespace Sys2Proof

/-- The five commands (30_encoding.md R93, R94). -/
inductive Instr where
  /-- B2.INIT, word 0x00000001 of B2_CMD (41_blake2b.md R179). -/
  | b2Init
  /-- B2.UPDATE, word 0x00000002 of B2_CMD (41_blake2b.md R180). -/
  | b2Update
  /-- B2.FINAL, word 0x00000003 of B2_CMD (41_blake2b.md R181). -/
  | b2Final
  /-- B58.ENCODE, word 0x00000001 of B58_CMD (40_base58.md R127). -/
  | b58Encode
  /-- B58.DECODE, word 0x00000002 of B58_CMD (40_base58.md R130). -/
  | b58Decode
  deriving DecidableEq, Repr

/-- The unit whose engine runs a command (30_encoding.md R93, R94). -/
def Instr.devUnit : Instr → DevUnit
  | .b2Init => .b2
  | .b2Update => .b2
  | .b2Final => .b2
  | .b58Encode => .b58
  | .b58Decode => .b58

end Sys2Proof
end

