-- ==== Sys2Proof/Machine/HostSyntax.lean ====
section
/-! DEFINITION. The host's assembly language as data: instructions, labels and programs (30_encoding.md R98), and the
source lines with pseudo-instructions (R99). The block runs none of it: the host agent does. -/

namespace Sys2Proof.Machine

/-- A host variable `%name` (30_encoding.md R98). `s` is the variable the expansions of R99 write as `%s`
(log 14). Its values are natural numbers (log 7). -/
inductive HostVar where
  | s
  | named (n : Nat)
  deriving DecidableEq, Repr

/-- A label. `inner p` is the label local to the expansion of the source line number p (30_encoding.md R99). -/
inductive Label where
  | named (n : Nat)
  | inner (p : Nat)
  deriving DecidableEq, Repr

/-- The host instructions of 30_encoding.md R98. An immediate of a write has the width of the write. -/
inductive HostInstr where
  | w32 (off : Nat) (imm : BitVec 32)
  | w16 (off : Nat) (imm : BitVec 16)
  | w8 (off : Nat) (imm : BitVec 8)
  | rd32 (off : Nat) (x : HostVar)
  | rd16 (off : Nat) (x : HostVar)
  | rd8 (off : Nat) (x : HostVar)
  | beq (x : HostVar) (imm : Nat) (l : Label)
  | bne (x : HostVar) (imm : Nat) (l : Label)
  | andImm (x : HostVar) (imm : Nat) (y : HostVar)
  | shrImm (x : HostVar) (imm : Nat) (y : HostVar)
  | addImm (x : HostVar) (imm : Nat) (y : HostVar)
  | mov (x y : HostVar)
  | halt
  deriving DecidableEq, Repr

/-- One instruction with the labels that name it ("`label:` names the next instruction", 30_encoding.md R98). -/
structure Line where
  labels : List Label
  instr : HostInstr
  deriving DecidableEq, Repr

/-- A host program: its instructions in order. -/
abbrev Program := List Line

/-- What may stand in a source line: a host instruction or a pseudo-instruction of 30_encoding.md R99. -/
inductive SourceItem where
  | instr (i : HostInstr)
  | wait2
  | wait58
  | wbytes (off : Nat) (b0 : Byte) (bs : List Byte)
  | b2Init (nn kk : Word32)
  | b2Update (len : Word32)
  | b2Final
  | b58Encode (len cap : Word32)
  | b58Decode (len w : Word32)
  | err2 (e : HostVar)
  | err58 (e : HostVar)
  deriving DecidableEq, Repr

/-- A source line: the labels before it, and the item. -/
structure SourceLine where
  labels : List Nat
  item : SourceItem
  deriving DecidableEq, Repr

end Sys2Proof.Machine
end

