-- ==== Sys2Proof/WellFormed.lean ====
section
/-! DEFINITION. The checks a term must pass: the parameter N (00_scope.md R5), the commands (nothing to check: no
operand is encoded), and host programs (30_encoding.md R98, R101). -/

namespace Sys2Proof

/-- 1 ≤ N ≤ 1024, and the text window fits its 2048 offsets (00_scope.md R5). -/
def Config.wf (cfg : Config) : Bool :=
  decide (1 ≤ cfg.maxLen) && decide (cfg.maxLen ≤ 1024) && decide (cfg.txtSize ≤ 2048)

/-- A command has no operand field, so every command is well formed (30_encoding.md R92). -/
def Instr.wf : Instr → Bool
  | .b2Init => true
  | .b2Update => true
  | .b2Final => true
  | .b58Encode => true
  | .b58Decode => true

namespace Machine

/-- The lines of a program that a label names. -/
def linesNamed (p : Program) (l : Label) : List Nat :=
  (List.range p.length).filter fun k => (p[k]?.map Line.labels).any (·.contains l)

/-- "a label names exactly one instruction of the same program" (30_encoding.md R101). -/
def labelOk (p : Program) (l : Label) : Bool := (linesNamed p l).length == 1

/-- A device offset is one of the 4096 of the device space (20_memory.md R60). -/
def offsetOk (off : Nat) : Bool := decide (off < 4096)

/-- A host instruction names offsets of the device and labels of its program. -/
def HostInstr.wf (p : Program) : HostInstr → Bool
  | .w32 off _ => offsetOk off
  | .w16 off _ => offsetOk off
  | .w8 off _ => offsetOk off
  | .rd32 off _ => offsetOk off
  | .rd16 off _ => offsetOk off
  | .rd8 off _ => offsetOk off
  | .beq _ _ l => labelOk p l
  | .bne _ _ l => labelOk p l
  | .andImm _ _ _ => true
  | .shrImm _ _ _ => true
  | .addImm _ _ _ => true
  | .mov _ _ => true
  | .halt => true

/-- Every instruction is well formed in its program, and no label of the program names two of its lines. -/
def Program.wf (p : Program) : Bool :=
  p.all fun line => line.instr.wf p && line.labels.all (labelOk p)

end Machine

end Sys2Proof
end

