-- ==== Sys2Proof/Machine/State.lean ====
section
/-! DEFINITION. The state of the machine: the block (10_state.md), the host that drives it (30_encoding.md R98) and the
model's own schedule; the reasons a step can stop; the state after reset (10_state.md R45). -/

namespace Sys2Proof.Machine

/-- Why the machine stops. -/
inductive Fault where
  /-- Raised by the host agent for a bus access at an offset outside the 4096 bytes of the device space (20_memory.md R60):
  it reaches no part of this device and the spec describes nothing there. Safe: the model says nothing after it (log 6). -/
  | outsideDevice (off : Nat)
  deriving DecidableEq, Repr

/-- Why an instruction has no meaning. -/
inductive Refusal where
  /-- Raised by an arm of exec whose instruction has no meaning yet; no arm raises it. Safe. -/
  | notModelled (mnemonic : String)
  deriving DecidableEq, Repr

/-- The B2 lifecycle state (10_state.md R27). -/
inductive Phase where
  | uninit
  | active
  | finalized
  | inert
  deriving DecidableEq, Repr

/-- The result code of a command, STATUS.ERR (60_exceptions.md R222). Codes 8 to 15 are never produced, so none stands here. -/
inductive ResultCode where
  | ok
  | bufferTooSmall
  | capacityExceeded
  | invalidCharacter
  | underflow
  | invalidParameters
  | sequenceError
  | illegalCommand
  deriving DecidableEq, Repr

/-- Which check of 20_memory.md R69 makes a host access a BusError; the order of the constructors is the order of the checks. -/
inductive BusError where
  | reservedOffset
  | sizeOrAlignment
  | unitBusy
  | readOnly
  deriving DecidableEq, Repr

/-- The busy latch of a unit (10_state.md R42): `pending` is STATUS.BUSY, `word` the command word issued. -/
structure Latch where
  pending : Bool
  word : Word32
  deriving DecidableEq, Repr

/-- The registers of the B2 unit (10_state.md R22 to R31, R42). -/
structure B2Unit where
  /-- h[0..7], the hash state (R22). -/
  h : Vector Word64 8
  /-- The 128-bit offset counter: t0 = t[63:0], t1 = t[127:64] (R23). -/
  t : BitVec 128
  /-- buf[0..127], the input buffer (R25). -/
  buf : Vector Byte 128
  /-- The fill index of buf, 0 to 128 (R25; log 13). -/
  c : Fin 129
  /-- The digest length, 0 to 64 (R26; log 13). -/
  outlen : Fin 65
  phase : Phase
  latch : Latch
  /-- B2_STATUS.ERR (R30). -/
  err : ResultCode
  param0 : Word32
  param1 : Word32
  deriving DecidableEq, Repr

/-- The registers of the B58 unit (10_state.md R34 to R36, R42). -/
structure B58Unit where
  latch : Latch
  /-- B58_STATUS.ERR (R35). -/
  err : ResultCode
  param0 : Word32
  param1 : Word32
  deriving DecidableEq, Repr

/-- The bytes of the windows DIN, DOUT, BIN and TXT by device offset, strictly rising, no entry equal to the reset value 0,
which is what an unlisted offset reads as (10_state.md R45; log 17). -/
abbrev Memory := List Host.Cell

/-- What the host program is doing (30_encoding.md R98). -/
inductive HostStatus where
  | running
  /-- After `HALT`. -/
  | halted
  /-- A BusError answer "stops the host program in a fault state"; the machine goes on (log 5). -/
  | busError (e : BusError)
  /-- "reading an undefined variable is an error of the host program" (log 19). -/
  | undefinedVariable (x : HostVar)
  /-- A taken branch to a label that does not name exactly one line (log 8). -/
  | badLabel (l : Label)
  deriving DecidableEq, Repr

/-- The host: its program, the number of its next line, its variables and its status (30_encoding.md R98). -/
structure HostAgent where
  program : Program
  next : Nat
  vars : List (HostVar × Nat)
  status : HostStatus
  deriving DecidableEq, Repr

/-- The whole machine. -/
structure State where
  /-- The OPEN parameter N (00_scope.md R5); no step changes it. -/
  cfg : Config
  b2 : B2Unit
  b58 : B58Unit
  mem : Memory
  host : HostAgent
  /-- The model's own: the agents that take the next steps, in order (log 3). -/
  schedule : List Agent
  /-- The model's own: the argument of the free value that names the agent when `schedule` is empty (log 3). -/
  tick : Nat
  deriving DecidableEq, Repr

/-- The idle latch (10_state.md R42). -/
def Latch.reset : Latch := { pending := false, word := 0 }

/-- 10_state.md R45, the rows of the B2 unit. -/
def B2Unit.reset : B2Unit where
  h := Vector.replicate 8 0
  t := 0
  buf := Vector.replicate 128 0
  c := 0
  outlen := 0
  phase := .uninit
  latch := .reset
  err := .ok
  param0 := 0
  param1 := 0

/-- 10_state.md R45, the rows of the B58 unit. -/
def B58Unit.reset : B58Unit where
  latch := .reset
  err := .ok
  param0 := 0
  param1 := 0

/-- A host with no program (log 11). -/
def HostAgent.reset : HostAgent where
  program := []
  next := 0
  vars := []
  status := .running

/-- The state after reset for a given N (10_state.md R45): every window byte is 0, so the memory lists nothing. -/
def State.resetWith (cfg : Config) : State where
  cfg := cfg
  b2 := .reset
  b58 := .reset
  mem := []
  host := .reset
  schedule := []
  tick := 0

/-- The state after reset at the default N = 256 (00_scope.md R5, 10_state.md R45). -/
def State.reset : State := .resetWith .default

end Sys2Proof.Machine
end

