-- ==== Sys2Proof/Machine/Flags.lean ====
section
/-! DEFINITION. The one status word of each unit and the codes in it (10_state.md R30, R35, R43; 60_exceptions.md R222). -/

namespace Sys2Proof.Machine

/-- The number of a phase (10_state.md R27). -/
def phaseCode : Phase → BitVec 2
  | .uninit => 0
  | .active => 1
  | .finalized => 2
  | .inert => 3

/-- The number of a result code (60_exceptions.md R222). -/
def resultCode : ResultCode → BitVec 4
  | .ok => 0
  | .bufferTooSmall => 1
  | .capacityExceeded => 2
  | .invalidCharacter => 3
  | .underflow => 4
  | .invalidParameters => 5
  | .sequenceError => 6
  | .illegalCommand => 7

/-- The STATUS word: BUSY in bit 0, ERR in bits 7:4, PHASE in bits 9:8, every other bit 0 (10_state.md R30). -/
def statusWord (busy : Bool) (err : ResultCode) (phase : BitVec 2) : Word32 :=
  (BitVec.ofBool busy).setWidth 32 ||| ((resultCode err).setWidth 32 <<< 4) ||| (phase.setWidth 32 <<< 8)

/-- B2_STATUS (10_state.md R30). -/
def b2Status (x : B2Unit) : Word32 := statusWord x.latch.pending x.err (phaseCode x.phase)

/-- B58_STATUS (10_state.md R35): bits 31:8 read 0. -/
def b58Status (x : B58Unit) : Word32 := statusWord x.latch.pending x.err 0

end Sys2Proof.Machine
end

