-- ==== Sys2Proof/Decode.lean ====
section
/-! DEFINITION. From command words to commands and back (30_encoding.md R90 to R97). A command is a 32-bit word and the
CMD register it is written to, so the decoder is a function of unit and word (R97). -/

namespace Sys2Proof

/-- Why bits are no command. -/
inductive DecodeError where
  /-- A nonzero bit in bits[31:4] of the word (30_encoding.md R91, R95). -/
  | reservedBits
  /-- The command code OPC is none of the unit's (30_encoding.md R93, R94, R95). -/
  | noSuchOpcode
  /-- The offset written to is the CMD register of neither unit (30_encoding.md R90). -/
  | notCommandRegister
  /-- Fewer bytes than a command takes. -/
  | tooShort
  deriving DecidableEq, Repr

/-- OPC, bits[3:0] of a command word (30_encoding.md R91). -/
def opcField (w : Word32) : BitVec 4 := w.extractLsb' 0 4

/-- RSV, bits[31:4] of a command word (30_encoding.md R91). -/
def rsvField (w : Word32) : BitVec 28 := w.extractLsb' 4 28

/-- The reason a word that is no command is refused: the reserved bits first, then the code. -/
def illegalReason (w : Word32) : DecodeError :=
  if rsvField w = 0 then .noSuchOpcode else .reservedBits

/-- `decode(unit, w)` of 30_encoding.md R97. -/
def decode (u : DevUnit) (w : Word32) : Except DecodeError Instr :=
  match u with
  | .b2 =>
    if w = 0x00000001 then .ok .b2Init
    else if w = 0x00000002 then .ok .b2Update
    else if w = 0x00000003 then .ok .b2Final
    else .error (illegalReason w)
  | .b58 =>
    if w = 0x00000001 then .ok .b58Encode
    else if w = 0x00000002 then .ok .b58Decode
    else .error (illegalReason w)

/-- The value of bytes in increasing offset order, the least significant first (20_memory.md R64). -/
def leValue : List Byte → Nat
  | [] => 0
  | b :: bs => b.toNat + 256 * leValue bs

/-- The n bytes of a value, the least significant first: byte i is bits [8i+7 : 8i] (20_memory.md R64). -/
def leBytes : Nat → Nat → List Byte
  | 0, _ => []
  | n + 1, v => BitVec.ofNat 8 v :: leBytes n (v / 256)

/-- The offset of a unit's CMD register (20_memory.md R61). -/
def cmdOffset : DevUnit → Nat
  | .b2 => 0x000
  | .b58 => 0x200

/-- The unit whose CMD register stands at a device offset (30_encoding.md R90). -/
def unitOfCmdOffset (off : Nat) : Option DevUnit :=
  if off = cmdOffset .b2 then some .b2
  else if off = cmdOffset .b58 then some .b58
  else none

/-- A command as bytes: the 4 bytes of its word, then the 4 bytes of the offset of the CMD register it is written to,
each little-endian. Answers the command and the bytes left over. -/
def decodeBytes (bs : List Byte) : Except DecodeError (Instr × List Byte) :=
  if bs.length < 8 then .error .tooShort
  else
    match unitOfCmdOffset (leValue ((bs.drop 4).take 4)) with
    | none => .error .notCommandRegister
    | some u => (decode u (BitVec.ofNat 32 (leValue (bs.take 4)))).map fun i => (i, bs.drop 8)

/-- The command word of a command (30_encoding.md R93, R94). -/
def encode : Instr → Word32
  | .b2Init => 0x00000001
  | .b2Update => 0x00000002
  | .b2Final => 0x00000003
  | .b58Encode => 0x00000001
  | .b58Decode => 0x00000002

/-- A command as the bytes `decodeBytes` reads. -/
def encodeBytes (i : Instr) : List Byte :=
  leBytes 4 (encode i).toNat ++ leBytes 4 (cmdOffset i.devUnit)

/-- The command the decoder reads from bits w: bits 31..0 are the command word, bits 63..32 the offset of the CMD register
it is written to. The opcode table gives a row 32 bits, so the offset of a row is 0x000, B2_CMD (log 11). -/
def decodeTableWord (nbits w : Nat) : Option Instr :=
  match decodeBytes (leBytes 8 (w % 2 ^ nbits)) with
  | .ok (i, _) => some i
  | .error _ => none

end Sys2Proof
end

