-- ==== Sys2Proof/Machine/Memory.lean ====
section
/-! DEFINITION. The bytes of the windows as one sparse memory by device offset: reading and writing in canonical form
(10_state.md R32, R33, R37, R38; 20_memory.md R61). -/

namespace Sys2Proof.Machine

/-- The byte at an offset; an unlisted offset holds the reset value 0 (10_state.md R45). -/
def memRead : Memory → Nat → Byte
  | [], _ => 0
  | (b, x) :: m, a => if a = b then x else memRead m a

/-- Write one byte, keeping the offsets rising and listing no 0. -/
def memWrite : Memory → Nat → Byte → Memory
  | [], a, v => if v = 0 then [] else [(a, v)]
  | (b, x) :: m, a, v =>
    if a < b then (if v = 0 then (b, x) :: m else (a, v) :: (b, x) :: m)
    else if a = b then (if v = 0 then m else (a, v) :: m)
    else (b, x) :: memWrite m a v

/-- Write bytes at rising offsets from a on. -/
def memWriteBytes : Memory → Nat → List Byte → Memory
  | m, _, [] => m
  | m, a, v :: vs => memWriteBytes (memWrite m a v) (a + 1) vs

/-- The n bytes from offset a on. -/
def memReadBytes (m : Memory) (a n : Nat) : List Byte := (List.range n).map fun k => memRead m (a + k)

/-- The canonical form: offsets strictly rising, no listed byte 0. -/
def Memory.wf : Memory → Bool
  | [] => true
  | (a, x) :: m => (x != 0) && m.all (fun cell => decide (a < cell.1)) && Memory.wf m

/-- The four data windows (20_memory.md R61). -/
inductive Window where
  | din
  | dout
  | bin
  | txt
  deriving DecidableEq, Repr

/-- The first offset of a window (20_memory.md R61). -/
def winBase : Window → Nat
  | .din => 0x100
  | .dout => 0x180
  | .bin => 0x400
  | .txt => 0x800

/-- The size of a window (20_memory.md R61). -/
def winSize (cfg : Config) : Window → Nat
  | .din => 128
  | .dout => 64
  | .bin => cfg.maxLen
  | .txt => cfg.txtSize

/-- `WinRead(W, k)` (00_scope.md R11). -/
def winRead (s : State) (w : Window) (k : Nat) : Byte := memRead s.mem (winBase w + k)

/-- `WinRead(W, k)` for k in 0..n-1, in order. -/
def winBytes (s : State) (w : Window) (n : Nat) : List Byte := memReadBytes s.mem (winBase w) n

/-- `WinWrite(W, k, b)` for k = 0, 1, ... over the bytes given (00_scope.md R11). -/
def winWrite (s : State) (w : Window) (bs : List Byte) : State :=
  { s with mem := memWriteBytes s.mem (winBase w) bs }

end Sys2Proof.Machine
end

