-- ==== Sys2Proof/Machine/Ops.lean ====
section
/-! DEFINITION. The shared operations on the registers of the units: the busy latch, the result code, the PARAM registers;
issuing a command; ending one (the block's counterpart of taking an exception, 60_exceptions.md R221, R234); the reset
event. -/

namespace Sys2Proof.Machine

/-- The busy latch of a unit (10_state.md R42). -/
def latchOf (s : State) : DevUnit → Latch
  | .b2 => s.b2.latch
  | .b58 => s.b58.latch

/-- Write the busy latch of a unit. -/
def setLatch (s : State) (u : DevUnit) (l : Latch) : State :=
  match u with
  | .b2 => { s with b2 := { s.b2 with latch := l } }
  | .b58 => { s with b58 := { s.b58 with latch := l } }

/-- STATUS.ERR of a unit (10_state.md R30, R35). -/
def errOf (s : State) : DevUnit → ResultCode
  | .b2 => s.b2.err
  | .b58 => s.b58.err

/-- Write STATUS.ERR of a unit. -/
def setErr (s : State) (u : DevUnit) (e : ResultCode) : State :=
  match u with
  | .b2 => { s with b2 := { s.b2 with err := e } }
  | .b58 => { s with b58 := { s.b58 with err := e } }

/-- The STATUS word of a unit (10_state.md R30, R35). -/
def statusOf (s : State) : DevUnit → Word32
  | .b2 => b2Status s.b2
  | .b58 => b58Status s.b58

/-- PARAM0 of a unit (10_state.md R31, R36). -/
def param0Of (s : State) : DevUnit → Word32
  | .b2 => s.b2.param0
  | .b58 => s.b58.param0

/-- PARAM1 of a unit (10_state.md R31, R36). -/
def param1Of (s : State) : DevUnit → Word32
  | .b2 => s.b2.param1
  | .b58 => s.b58.param1

/-- Write PARAM0 of a unit. -/
def setParam0 (s : State) (u : DevUnit) (v : Word32) : State :=
  match u with
  | .b2 => { s with b2 := { s.b2 with param0 := v } }
  | .b58 => { s with b58 := { s.b58 with param0 := v } }

/-- Write PARAM1 of a unit. -/
def setParam1 (s : State) (u : DevUnit) (v : Word32) : State :=
  match u with
  | .b2 => { s with b2 := { s.b2 with param1 := v } }
  | .b58 => { s with b58 := { s.b58 with param1 := v } }

/-- A write of v to CMD issues a command: pending <- 1 and word <- v (20_memory.md R72, 10_state.md R42). -/
def issue (s : State) (u : DevUnit) (v : Word32) : State := setLatch s u { pending := true, word := v }

/-- `finish(E)`, which is also `raise E`: STATUS.ERR <- code(E), STATUS.BUSY <- 0 (00_scope.md R11; 60_exceptions.md R221,
R234). What the command wrote before stays written. Nothing writes the latch's word: a completion
"clears pending" (10_state.md R42). -/
def finish (s : State) (u : DevUnit) (e : ResultCode) : State :=
  setErr (setLatch s u { latchOf s u with pending := false }) u e

/-- The reset event (70_reset_and_hazards.md R260, R261): every piece of the block's state to the value of 10_state.md R45, a
pending command discarded. The host, the parameter N and the schedule are not part of the block (log 12). -/
def deviceReset (s : State) : State := { s with b2 := .reset, b58 := .reset, mem := [] }

end Sys2Proof.Machine
end

