-- ==== Sys2Proof/Machine/Operands.lean ====
section
/-! DEFINITION. Where the commands take their operands: PARAM registers, each a full 32-bit unsigned number (30_encoding.md
R92, 10_state.md R31, R36), and data windows (20_memory.md R83). -/

namespace Sys2Proof.Machine

/-- nn of B2.INIT: B2_PARAM0 (41_blake2b.md R179). -/
def initDigestLen (s : State) : Nat := (param0Of s .b2).toNat

/-- kk of B2.INIT: B2_PARAM1 (41_blake2b.md R179). -/
def initKeyLen (s : State) : Nat := (param1Of s .b2).toNat

/-- The key: DIN[0..kk-1] (41_blake2b.md R179). -/
def initKey (s : State) : List Byte := winBytes s .din (initKeyLen s)

/-- len of B2.UPDATE: B2_PARAM0 (41_blake2b.md R180). -/
def updateLen (s : State) : Nat := (param0Of s .b2).toNat

/-- The message bytes of B2.UPDATE: DIN[0..len-1] (41_blake2b.md R180). -/
def updateBytes (s : State) : List Byte := winBytes s .din (updateLen s)

/-- len of B58.ENCODE: B58_PARAM0 (40_base58.md R127). -/
def encodeLen (s : State) : Nat := (param0Of s .b58).toNat

/-- cap of B58.ENCODE: B58_PARAM1 (40_base58.md R127). -/
def encodeCap (s : State) : Nat := (param1Of s .b58).toNat

/-- data of B58.ENCODE: BIN[0..len-1] (40_base58.md R127). -/
def encodeData (s : State) : List Byte := winBytes s .bin (encodeLen s)

/-- L of B58.DECODE as the host gives it: B58_PARAM0, 0 for "scan to the terminator" (40_base58.md R130). -/
def decodeLen (s : State) : Nat := (param0Of s .b58).toNat

/-- w of B58.DECODE: B58_PARAM1 (40_base58.md R130). -/
def decodeWidth (s : State) : Nat := (param1Of s .b58).toNat

/-- The least k below T with TXT[k] = 0x00, if there is one (40_base58.md R122, R130). -/
def terminatorAt (s : State) : Option Nat :=
  (List.range s.cfg.txtSize).find? fun k => winRead s .txt k == 0x00

/-- L of B58.DECODE after the scan: PARAM0 when it is not 0, else the place of the terminator (40_base58.md R130, E3). -/
def decodeTextLen (s : State) : Option Nat :=
  if decodeLen s = 0 then terminatorAt s else some (decodeLen s)

end Sys2Proof.Machine
end

