-- ==== Sys2Proof/Machine/Base58.lean ====
section
/-! DEFINITION. The B58 unit: the alphabet and the digit map, the two conversion engines, and the meanings of B58.ENCODE and
B58.DECODE (40_base58.md). -/

namespace Sys2Proof.Machine

/-- The ASCII codes of the 58 symbols, digit 0 first (40_base58.md R120). -/
def alphabet : List Byte :=
  [0x31, 0x32, 0x33, 0x34, 0x35, 0x36, 0x37, 0x38, 0x39,
   0x41, 0x42, 0x43, 0x44, 0x45, 0x46, 0x47, 0x48,
   0x4A, 0x4B, 0x4C, 0x4D, 0x4E,
   0x50, 0x51, 0x52, 0x53, 0x54, 0x55, 0x56, 0x57, 0x58, 0x59, 0x5A] ++
  [0x61, 0x62, 0x63, 0x64, 0x65, 0x66, 0x67, 0x68, 0x69, 0x6A, 0x6B,
   0x6D, 0x6E, 0x6F, 0x70, 0x71, 0x72, 0x73, 0x74, 0x75, 0x76, 0x77, 0x78, 0x79, 0x7A]

/-- `ALPHABET[d]` for a digit d in 0..57 (40_base58.md R120). -/
def symbolOf (d : Nat) : Byte := alphabet.getD d 0

/-- `MAP[ch]`: the d with `ALPHABET[d] = ch`, or none (40_base58.md R121). -/
def digitOf (ch : Byte) : Option Nat := alphabet.findIdx? (· == ch)

/-- The number of leading bytes equal to a given one (40_base58.md R127, R130). -/
def leadingCount (b : Byte) (bs : List Byte) : Nat := (bs.takeWhile (· == b)).length

/-- The inner loop of `B58Digits` (40_base58.md R124). The digits stand least significant first, so position 0 of the list is
dig[size-1]; `hw` is how many of them the loop must visit (size-1-high), and the number answered is how many it did visit, from
which the next high is taken. None is Underflow: positions ran out while a carry was left (log 9). -/
def carryPass : List Nat → Nat → Nat → Option (List Nat × Nat)
  | [], hw, carry => if hw = 0 ∧ carry = 0 then some ([], 0) else none
  | d :: ds, hw, carry =>
    if hw = 0 ∧ carry = 0 then some (d :: ds, 0)
    else (carryPass ds (hw - 1) ((carry + 256 * d) / 58)).map fun r => (((carry + 256 * d) % 58) :: r.1, r.2 + 1)

/-- The outer loop of `B58Digits`: one input byte after another (40_base58.md R124). -/
def digitsLoop : List Byte → List Nat → Nat → Option (List Nat)
  | [], dig, _ => some dig
  | b :: bs, dig, hw => (carryPass dig hw b.toNat).bind fun r => digitsLoop bs r.1 r.2

/-- `B58Digits(src, size)`: the digits dig[j..size-1], most significant first, leading zeros stripped; none is Underflow
(40_base58.md R124). -/
def b58Digits (src : List Byte) (size : Nat) : Option (List Nat) :=
  (digitsLoop src (List.replicate size 0) 0).map fun dig => dig.reverse.dropWhile (· == 0)

/-- `B58Fold(acc, d)`: acc and the carry out of acc[0] (40_base58.md R125). -/
def b58Fold : List Word32 → Nat → List Word32 × Nat
  | [], d => ([], d)
  | a :: acc, d =>
    let r := b58Fold acc d
    let p := a.toNat * 58 + r.2
    (BitVec.ofNat 32 p :: r.1, p / 2 ^ 32)

/-- `zeromask` for the width w (40_base58.md R130). -/
def zeroMask (w : Nat) : Word32 := if w % 4 ≠ 0 then 0xFFFFFFFF#32 <<< (8 * (w % 4)) else 0x00000000

/-- E7: bits of acc[0] beyond the requested width (40_base58.md R130). -/
def beyondWidth (w : Nat) : List Word32 → Bool
  | [] => false
  | a :: _ => (a &&& zeroMask w) != 0

/-- The loop over the characters after the leading '1's: the accumulator, or the error of the first character that has one
(40_base58.md R130, E4 to E7). -/
def decodeChars (w : Nat) : List Byte → List Word32 → Except ResultCode (List Word32)
  | [], acc => .ok acc
  | ch :: cs, acc =>
    if ch.getLsbD 7 then .error .invalidCharacter
    else
      match digitOf ch with
      | none => .error .invalidCharacter
      | some d =>
        let r := b58Fold acc d
        if r.2 ≠ 0 then .error .capacityExceeded
        else if beyondWidth w r.1 then .error .capacityExceeded
        else decodeChars w cs r.1

/-- The low n bytes of a word, the most significant first (40_base58.md R130). -/
def lowBytesBE (n : Nat) (a : Word32) : List Byte :=
  (List.range n).reverse.map fun q => (a >>> (8 * q)).setWidth 8

/-- The unpack step: the accumulator as w big-endian bytes, a first word narrower than 4 bytes honored (40_base58.md R130). -/
def unpack (w : Nat) (acc : List Word32) : List Byte :=
  if w % 4 ≠ 0 then lowBytesBE (w % 4) (acc.headD 0) ++ acc.tail.flatMap (lowBytesBE 4)
  else acc.flatMap (lowBytesBE 4)

/-- The text B58.ENCODE writes: z times '1', the symbols of the digits, the terminator 0x00 (40_base58.md R127, R122). -/
def encodedText (z : Nat) (digits : List Nat) : List Byte :=
  List.replicate z 0x31 ++ digits.map symbolOf ++ [0x00]

/-- B58.ENCODE (40_base58.md R127). -/
def execB58Encode (s : State) : Host.Outcome State Fault Refusal :=
  if s.cfg.maxLen < encodeLen s then .next (finish s .b58 .capacityExceeded)
  else
    let data := encodeData s
    let z := leadingCount 0x00 data
    let size := encSize (encodeLen s - z)
    if s.cfg.encWorkMax < size then .next (finish s .b58 .capacityExceeded)
    else
      match b58Digits (data.drop z) size with
      | none => .next (finish s .b58 .underflow)
      | some digits =>
        let needed := z + digits.length
        if encodeCap s ≤ needed then
          .next (finish (setParam1 s .b58 (BitVec.ofNat 32 (needed + 1))) .b58 .bufferTooSmall)
        else
          .next (finish (setParam1 (winWrite s .txt (encodedText z digits)) .b58 (BitVec.ofNat 32 (needed + 1))) .b58 .ok)

/-- The last steps of B58.DECODE, from the accumulator on: unpack, count, E8, write BIN and PARAM1 (40_base58.md R130). -/
def storeDecoded (s : State) (w zc : Nat) (acc : List Word32) : State :=
  let out := unpack w acc
  let sig := w - leadingCount 0x00 out
  if w < zc + sig then finish s .b58 .capacityExceeded
  else finish (setParam1 (winWrite s .bin out) .b58 (BitVec.ofNat 32 (zc + sig))) .b58 .ok

/-- B58.DECODE (40_base58.md R130). -/
def execB58Decode (s : State) : Host.Outcome State Fault Refusal :=
  let w := decodeWidth s
  if s.cfg.maxLen < w then .next (finish s .b58 .capacityExceeded)
  else if s.cfg.txtSize < decodeLen s then .next (finish s .b58 .capacityExceeded)
  else
    match decodeTextLen s with
    | none => .next (finish s .b58 .capacityExceeded)
    | some len =>
      let text := winBytes s .txt len
      let zc := leadingCount 0x31 text
      match decodeChars w (text.drop zc) (List.replicate ((w + 3) / 4) 0) with
      | .error e => .next (finish s .b58 e)
      | .ok acc => .next (storeDecoded s w zc acc)

end Sys2Proof.Machine
end

