-- ==== Sys2Proof/Machine/Blake2b.lean ====
section
/-! DEFINITION. The B2 unit: the BLAKE2b constants, the mixing and compression functions, the helpers and the meanings of
B2.INIT, B2.UPDATE and B2.FINAL (41_blake2b.md). The constants are the spec's from general knowledge (log 16). -/

namespace Sys2Proof.Machine

/-- The work vector v, and the message words m: 16 words (10_state.md R40). -/
abbrev Words16 := Vector Word64 16

/-- IV[0..7] (41_blake2b.md R170). -/
def blakeIV : Vector Word64 8 :=
  #v[0x6A09E667F3BCC908, 0xBB67AE8584CAA73B, 0x3C6EF372FE94F82B, 0xA54FF53A5F1D36F1,
     0x510E527FADE682D1, 0x9B05688C2B3E6C1F, 0x1F83D9ABFB41BD6B, 0x5BE0CD19137E2179]

/-- SIGMA, one row for each round (41_blake2b.md R171). -/
def blakeSigma : List (Vector (Fin 16) 16) :=
  [#v[0, 1, 2, 3, 4, 5, 6, 7, 8, 9, 10, 11, 12, 13, 14, 15],
   #v[14, 10, 4, 8, 9, 15, 13, 6, 1, 12, 0, 2, 11, 7, 5, 3],
   #v[11, 8, 12, 0, 5, 2, 15, 13, 10, 14, 3, 6, 7, 1, 9, 4],
   #v[7, 9, 3, 1, 13, 12, 11, 14, 2, 6, 5, 10, 4, 0, 15, 8],
   #v[9, 0, 5, 7, 2, 4, 10, 15, 14, 1, 11, 12, 6, 8, 3, 13],
   #v[2, 12, 6, 10, 0, 11, 8, 3, 4, 13, 7, 5, 15, 14, 1, 9],
   #v[12, 5, 1, 15, 14, 13, 4, 10, 0, 7, 6, 3, 9, 2, 8, 11],
   #v[13, 11, 7, 14, 12, 1, 3, 9, 5, 0, 15, 4, 8, 6, 2, 10],
   #v[6, 15, 14, 9, 11, 3, 0, 8, 12, 2, 13, 7, 1, 4, 10, 5],
   #v[10, 2, 8, 4, 7, 6, 1, 5, 15, 11, 9, 14, 3, 12, 13, 0],
   #v[0, 1, 2, 3, 4, 5, 6, 7, 8, 9, 10, 11, 12, 13, 14, 15],
   #v[14, 10, 4, 8, 9, 15, 13, 6, 1, 12, 0, 2, 11, 7, 5, 3]]

/-- `ParamWord(nn, kk) = 0x01010000 xor (kk << 8) xor nn` (41_blake2b.md R172). -/
def paramWord (nn kk : Nat) : Word64 :=
  0x01010000 ^^^ (BitVec.ofNat 64 kk <<< 8) ^^^ BitVec.ofNat 64 nn

/-- `rotr64(x, n)` (00_scope.md R9). -/
def rotr64 (x : Word64) (n : Nat) : Word64 := (x >>> n) ||| (x <<< (64 - n))

/-- The mixing function G (41_blake2b.md R173). -/
def blakeG (v : Words16) (a b c d : Fin 16) (x y : Word64) : Words16 :=
  let v := v.set a (v[a] + v[b] + x)
  let v := v.set d (rotr64 (v[d] ^^^ v[a]) 32)
  let v := v.set c (v[c] + v[d])
  let v := v.set b (rotr64 (v[b] ^^^ v[c]) 24)
  let v := v.set a (v[a] + v[b] + y)
  let v := v.set d (rotr64 (v[d] ^^^ v[a]) 16)
  let v := v.set c (v[c] + v[d])
  v.set b (rotr64 (v[b] ^^^ v[c]) 63)

/-- One round with its row of SIGMA: four column applications of G, then four diagonal ones (41_blake2b.md R174). -/
def blakeRound (m : Words16) (row : Vector (Fin 16) 16) (v : Words16) : Words16 :=
  let v := blakeG v 0 4 8 12 m[row[0]] m[row[1]]
  let v := blakeG v 1 5 9 13 m[row[2]] m[row[3]]
  let v := blakeG v 2 6 10 14 m[row[4]] m[row[5]]
  let v := blakeG v 3 7 11 15 m[row[6]] m[row[7]]
  let v := blakeG v 0 5 10 15 m[row[8]] m[row[9]]
  let v := blakeG v 1 6 11 12 m[row[10]] m[row[11]]
  let v := blakeG v 2 7 8 13 m[row[12]] m[row[13]]
  blakeG v 3 4 9 14 m[row[14]] m[row[15]]

/-- `load64le(B, k)`: the sum of byte k+i shifted left by 8i, for i in 0..7 (00_scope.md R10). -/
def load64le (b : Vector Byte 128) (k : Nat) : Word64 :=
  (List.range 8).foldl (fun acc i => acc + ((b.getD (k + i) 0).setWidth 64 <<< (8 * i))) 0

/-- The message words of a block (41_blake2b.md R175). -/
def messageWords (b : Vector Byte 128) : Words16 := Vector.ofFn fun i => load64le b (8 * i.val)

/-- The work vector before the rounds: the state, the IV, the counter words in v[12] and v[13], and v[14] inverted on the
final block (41_blake2b.md R175). -/
def initialWork (h : Vector Word64 8) (t : BitVec 128) (f : Bool) : Words16 :=
  let v : Words16 := h ++ blakeIV
  let v := v.set 12 (v[12] ^^^ t.extractLsb' 0 64)
  let v := v.set 13 (v[13] ^^^ t.extractLsb' 64 64)
  if f then v.set 14 (v[14] ^^^ 0xFFFFFFFFFFFFFFFF) else v

/-- The 12 rounds (41_blake2b.md R175). -/
def blakeRounds (m v : Words16) : Words16 := blakeSigma.foldl (fun v row => blakeRound m row v) v

/-- `Compress(h, buf, t, f)` (41_blake2b.md R175). -/
def compress (h : Vector Word64 8) (b : Vector Byte 128) (t : BitVec 128) (f : Bool) : Vector Word64 8 :=
  let v := blakeRounds (messageWords b) (initialWork h t f)
  Vector.ofFn fun i => h[i] ^^^ v[i.val] ^^^ v[i.val + 8]

/-- `Add128(t, k)` (41_blake2b.md R176). -/
def add128 (t : BitVec 128) (k : Nat) : BitVec 128 := t + BitVec.ofNat 128 k

/-- The part of Absorb that a full buffer causes: count and compress it as a non-final block, and clear it
(41_blake2b.md R177). -/
def compressFull (x : B2Unit) : B2Unit :=
  if x.c = 128 then
    { x with
      t := add128 x.t 128
      h := compress x.h x.buf (add128 x.t 128) false
      buf := Vector.replicate 128 0
      c := 0 }
  else x

/-- One turn of Absorb's loop (41_blake2b.md R177). -/
def absorbByte (x : B2Unit) (b : Byte) : B2Unit :=
  let x := compressFull x
  { x with buf := x.buf.setIfInBounds x.c b, c := x.c + 1 }

/-- `Absorb(B)` (41_blake2b.md R177). -/
def absorb (x : B2Unit) (bs : List Byte) : B2Unit := bs.foldl absorbByte x

/-- Byte i of the little-endian serialization of h (41_blake2b.md R178). -/
def digestByte (h : Vector Word64 8) (i : Nat) : Byte := ((h.getD (i / 8) 0) >>> (8 * (i % 8))).setWidth 8

/-- The 64 bytes of DOUT: the digest in the first outlen, 0 in the rest (41_blake2b.md R181). -/
def digestWindow (h : Vector Word64 8) (outlen : Nat) : List Byte :=
  (List.range 64).map fun i => if i < outlen then digestByte h i else 0x00

/-- n bytes 0x00. -/
def zeroBytes (n : Nat) : List Byte := List.replicate n 0x00

/-- The zero padding of the last block: `for k in c..127: buf[k] <- 0` (41_blake2b.md R181). -/
def padFrom (c : Nat) (b : Vector Byte 128) : Vector Byte 128 :=
  Vector.ofFn fun k => if k.val < c then b[k] else 0

/-- Whether B2.INIT refuses its parameters: `nn = 0 or nn > 64 or kk > 64` (41_blake2b.md R179, E1). -/
def initInvalid (nn kk : Nat) : Bool := nn == 0 || decide (64 < nn) || decide (64 < kk)

/-- The zeroed context in a given phase: h, t, buf, c and outlen 0 (41_blake2b.md R179, E1). -/
def zeroContext (x : B2Unit) (p : Phase) : B2Unit :=
  { x with h := Vector.replicate 8 0, t := 0, buf := Vector.replicate 128 0, c := 0, outlen := 0, phase := p }

/-- The context a valid B2.INIT sets up before the key is absorbed (41_blake2b.md R179). -/
def freshContext (x : B2Unit) (nn kk : Nat) : B2Unit :=
  { x with
    h := blakeIV.set 0 (blakeIV[0] ^^^ paramWord nn kk)
    t := 0
    buf := Vector.replicate 128 0
    c := 0
    outlen := Fin.ofNat 65 nn }

/-- The key, when there is one, absorbed as the first block and held back: `c <- 128` (41_blake2b.md R179). -/
def absorbKey (x : B2Unit) (key : List Byte) : B2Unit :=
  if key.length = 0 then x else { absorb x key with c := 128 }

/-- B2.INIT (41_blake2b.md R179). -/
def execB2Init (s : State) : Host.Outcome State Fault Refusal :=
  let nn := initDigestLen s
  let kk := initKeyLen s
  let s' := winWrite s .dout (zeroBytes 64)
  if initInvalid nn kk then
    .next (finish { s' with b2 := zeroContext s'.b2 .inert } .b2 .invalidParameters)
  else
    .next (finish { s' with b2 := { absorbKey (freshContext s'.b2 nn kk) (initKey s) with phase := .active } } .b2 .ok)

/-- B2.UPDATE (41_blake2b.md R180). -/
def execB2Update (s : State) : Host.Outcome State Fault Refusal :=
  if s.b2.phase ≠ .active then .next (finish s .b2 .sequenceError)
  else if 128 < updateLen s then .next (finish s .b2 .capacityExceeded)
  else .next (finish { s with b2 := absorb s.b2 (updateBytes s) } .b2 .ok)

/-- The context after the last compression of B2.FINAL (41_blake2b.md R181). -/
def finalContext (x : B2Unit) : B2Unit :=
  let t := add128 x.t x.c
  let b := padFrom x.c x.buf
  { x with t := t, buf := b, c := 128, h := compress x.h b t true, phase := .finalized }

/-- B2.FINAL (41_blake2b.md R181). -/
def execB2Final (s : State) : Host.Outcome State Fault Refusal :=
  if s.b2.phase ≠ .active then .next (finish s .b2 .sequenceError)
  else
    let x := finalContext s.b2
    .next (finish (winWrite { s with b2 := x } .dout (digestWindow x.h x.outlen)) .b2 .ok)

end Sys2Proof.Machine
end

