-- ==== Sys2Proof/Machine/Dispatch.lean ====
section
/-! DEFINITION. One arm for each command (30_encoding.md R93, R94). -/

namespace Sys2Proof.Machine

def exec (i : Instr) (s : State) : Host.Outcome State Fault Refusal :=
  match i with
  | .b2Init => Sys2Proof.Machine.execB2Init s
  | .b2Update => Sys2Proof.Machine.execB2Update s
  | .b2Final => Sys2Proof.Machine.execB2Final s
  | .b58Encode => Sys2Proof.Machine.execB58Encode s
  | .b58Decode => Sys2Proof.Machine.execB58Decode s

end Sys2Proof.Machine
end

