-- ==== Sys2Proof/Machine/Bus.lean ====
section
/-! DEFINITION. The host bus: the address map, the BusError checks, reads and writes (20_memory.md R60 to R73). -/

namespace Sys2Proof.Machine

/-- The registers of a unit's block (20_memory.md R61). -/
inductive Reg where
  | cmd
  | status
  | param0
  | param1
  deriving DecidableEq, Repr

/-- What stands at a device offset (20_memory.md R61). -/
inductive Location where
  | reg (u : DevUnit) (r : Reg)
  | window (w : Window) (k : Nat)
  | reserved
  deriving DecidableEq, Repr

/-- The size of a host access: n in {1, 2, 4} bytes (20_memory.md R63). -/
inductive AccessSize where
  | byte
  | half
  | word
  deriving DecidableEq, Repr

/-- n of an access (20_memory.md R63). -/
def sizeBytes : AccessSize → Nat
  | .byte => 1
  | .half => 2
  | .word => 4

/-- Read or write. -/
inductive AccessKind where
  | read
  | write
  deriving DecidableEq, Repr

/-- The offset of a register (20_memory.md R61). -/
def regOffset (u : DevUnit) : Reg → Nat
  | .cmd => cmdOffset u
  | .status => cmdOffset u + 0x4
  | .param0 => cmdOffset u + 0x8
  | .param1 => cmdOffset u + 0xC

/-- The register at a distance below 16 from the start of a unit's registers. -/
def regAt (u : DevUnit) (d : Nat) : Location :=
  if d < 0x4 then .reg u .cmd
  else if d < 0x8 then .reg u .status
  else if d < 0xC then .reg u .param0
  else .reg u .param1

/-- The address map (20_memory.md R61). Every offset not listed is reserved. -/
def locate (cfg : Config) (a : Nat) : Location :=
  if a < 0x010 then regAt .b2 a
  else if a < 0x100 then .reserved
  else if a < 0x180 then .window .din (a - 0x100)
  else if a < 0x1C0 then .window .dout (a - 0x180)
  else if a < 0x200 then .reserved
  else if a < 0x210 then regAt .b58 (a - 0x200)
  else if a < 0x400 then .reserved
  else if a < 0x800 then (if a < 0x400 + cfg.maxLen then .window .bin (a - 0x400) else .reserved)
  else if a < 0x1000 then (if a < 0x800 + cfg.txtSize then .window .txt (a - 0x800) else .reserved)
  else .reserved

/-- The unit whose block an offset belongs to (20_memory.md R62). -/
def blockOf (a : Nat) : DevUnit := if a < 0x200 then .b2 else .b58

/-- An access covers a reserved offset (20_memory.md R69, check 1). -/
def coversReserved (cfg : Config) (a n : Nat) : Bool := (List.range n).any fun i => locate cfg (a + i) == .reserved

/-- The size and alignment rules of registers (20_memory.md R65) and of windows (R66). -/
def sizeAlignOk (cfg : Config) (a n : Nat) : Bool :=
  match locate cfg a with
  | .reg u r => n == 4 && a == regOffset u r
  | .window w k => a % n == 0 && decide (k + n ≤ winSize cfg w)
  | .reserved => false

/-- A 4-byte read of the STATUS of a unit, the one access a busy unit answers (20_memory.md R71). -/
def isStatusRead (u : DevUnit) (kind : AccessKind) (a n : Nat) : Bool :=
  kind == .read && n == 4 && a == regOffset u .status

/-- A location the host may not write: STATUS and DOUT (20_memory.md R67). -/
def isReadOnly : Location → Bool
  | .reg _ .cmd => false
  | .reg _ .status => true
  | .reg _ .param0 => false
  | .reg _ .param1 => false
  | .window .din _ => false
  | .window .dout _ => true
  | .window .bin _ => false
  | .window .txt _ => false
  | .reserved => false

/-- The checks of 20_memory.md R69, in their order. -/
def busCheck (s : State) (kind : AccessKind) (a n : Nat) : Option BusError :=
  if coversReserved s.cfg a n then some .reservedOffset
  else if !sizeAlignOk s.cfg a n then some .sizeOrAlignment
  else if (latchOf s (blockOf a)).pending && !isStatusRead (blockOf a) kind a n then some .unitBusy
  else if kind == .write && isReadOnly (locate s.cfg a) then some .readOnly
  else none

/-- The value a register reads as (20_memory.md R67, R68). -/
def readReg (s : State) (u : DevUnit) : Reg → Word32
  | .cmd => 0x00000000
  | .status => statusOf s u
  | .param0 => param0Of s u
  | .param1 => param1Of s u

/-- A performed write of a register: a CMD write issues a command (20_memory.md R72); STATUS is never written (R67). -/
def writeReg (s : State) (u : DevUnit) (v : Word32) : Reg → State
  | .cmd => issue s u v
  | .status => s
  | .param0 => setParam0 s u v
  | .param1 => setParam1 s u v

/-- `MemRead(a, n)`: the value, or the BusError (20_memory.md R63, R64, R69). A read changes no state (R72). -/
def busRead (s : State) (a : Nat) (size : AccessSize) : Except BusError Nat :=
  match busCheck s .read a (sizeBytes size) with
  | some e => .error e
  | none =>
    match locate s.cfg a with
    | .reg u r => .ok (readReg s u r).toNat
    | .window _ _ => .ok (leValue (memReadBytes s.mem a (sizeBytes size)))
    | .reserved => .error .reservedOffset

/-- `MemWrite(a, n, v)`: the state after it, or the BusError, which has no effect (20_memory.md R63, R64, R69, R70). -/
def busWrite (s : State) (a : Nat) (size : AccessSize) (v : Nat) : Except BusError State :=
  match busCheck s .write a (sizeBytes size) with
  | some e => .error e
  | none =>
    match locate s.cfg a with
    | .reg u r => .ok (writeReg s u (BitVec.ofNat 32 v) r)
    | .window _ _ => .ok { s with mem := memWriteBytes s.mem a (leBytes (sizeBytes size) v) }
    | .reserved => .error .reservedOffset

/-- The address in the host's space of a device offset (20_memory.md R60). -/
def hostAddress (off : Nat) : Nat := devBase + off

/-- The device offset of an address in the host's space, when it lies in the device's 4096 bytes (20_memory.md R60). -/
def deviceOffset (addr : Nat) : Option Nat :=
  if devBase ≤ addr ∧ addr < devBase + 4096 then some (addr - devBase) else none

end Sys2Proof.Machine
end

