-- ==== Sys2Proof/Machine/HostProgram.lean ====
section
/-! DEFINITION. The host as an agent: one instruction of its program a step (30_encoding.md R98), and the assembler of the
pseudo-instructions (R99) and of the one-shot sequence (R100). -/

namespace Sys2Proof.Machine

/-- The value of a host variable, none while it is undefined (30_encoding.md R98). -/
def varValue (vars : List (HostVar × Nat)) (x : HostVar) : Option Nat := (vars.find? fun p => p.1 == x).map Prod.snd

/-- Give a host variable a value. -/
def setVar (vars : List (HostVar × Nat)) (x : HostVar) (v : Nat) : List (HostVar × Nat) :=
  (x, v) :: vars.filter fun p => !(p.1 == x)

/-- The host program stops with a status; nothing else changes. -/
def hostStop (s : State) (st : HostStatus) : State := { s with host := { s.host with status := st } }

/-- The host goes on to the next line. -/
def hostAdvance (s : State) : State := { s with host := { s.host with next := s.host.next + 1 } }

/-- The host goes on to the next line with a variable set. -/
def hostAssign (s : State) (x : HostVar) (v : Nat) : State :=
  hostAdvance { s with host := { s.host with vars := setVar s.host.vars x v } }

/-- `W32`, `W16`, `W8` (30_encoding.md R98): a BusError stops the program, an offset outside the device is a fault (log 6). -/
def hostWrite (s : State) (off : Nat) (size : AccessSize) (v : Nat) : Host.Outcome State Fault Refusal :=
  if off < 4096 then
    match busWrite s off size v with
    | .ok s' => .next (hostAdvance s')
    | .error e => .next (hostStop s (.busError e))
  else .fault (.outsideDevice off)

/-- `RD32`, `RD16`, `RD8` (30_encoding.md R98). -/
def hostRead (s : State) (off : Nat) (size : AccessSize) (x : HostVar) : Host.Outcome State Fault Refusal :=
  if off < 4096 then
    match busRead s off size with
    | .ok v => .next (hostAssign s x v)
    | .error e => .next (hostStop s (.busError e))
  else .fault (.outsideDevice off)

/-- A branch to the line a label names (30_encoding.md R98, R101). -/
def hostGoto (s : State) (l : Label) : State :=
  match linesNamed s.host.program l with
  | [k] => { s with host := { s.host with next := k } }
  | _ => hostStop s (.badLabel l)

/-- Use the value of a variable; an undefined one is an error of the program (30_encoding.md R98). -/
def withVar (s : State) (x : HostVar) (k : Nat → State) : State :=
  match varValue s.host.vars x with
  | some v => k v
  | none => hostStop s (.undefinedVariable x)

/-- One host instruction (30_encoding.md R98). -/
def hostExec (i : HostInstr) (s : State) : Host.Outcome State Fault Refusal :=
  match i with
  | .w32 off imm => hostWrite s off .word imm.toNat
  | .w16 off imm => hostWrite s off .half imm.toNat
  | .w8 off imm => hostWrite s off .byte imm.toNat
  | .rd32 off x => hostRead s off .word x
  | .rd16 off x => hostRead s off .half x
  | .rd8 off x => hostRead s off .byte x
  | .beq x imm l => .next (withVar s x fun v => if v = imm then hostGoto s l else hostAdvance s)
  | .bne x imm l => .next (withVar s x fun v => if v = imm then hostAdvance s else hostGoto s l)
  | .andImm x imm y => .next (withVar s x fun v => hostAssign s y (v &&& imm))
  | .shrImm x imm y => .next (withVar s x fun v => hostAssign s y (v >>> imm))
  | .addImm x imm y => .next (withVar s x fun v => hostAssign s y (v + imm))
  | .mov x y => .next (withVar s x fun v => hostAssign s y v)
  | .halt => .next (hostStop s .halted)

/-- The host's step: the next instruction of a running program; a host that is not running, or has no line left, makes no
access (log 4, log 10). -/
def hostStep (s : State) : Host.Outcome State Fault Refusal :=
  match s.host.status, s.host.program[s.host.next]? with
  | .running, some line => hostExec line.instr s
  | _, _ => .next s

/-- A line without labels. -/
def plain (i : HostInstr) : Line := { labels := [], instr := i }

/-- `WAIT2` and `WAIT58` (30_encoding.md R99) for the STATUS register at an offset, with the label of source line p. -/
def waitLoop (p off : Nat) : List Line :=
  [{ labels := [.inner p], instr := .rd32 off .s }, plain (.andImm .s 1 .s), plain (.bne .s 0 (.inner p))]

/-- `WBYTES` (30_encoding.md R99). -/
def writeBytes : Nat → List Byte → List Line
  | _, [] => []
  | off, b :: bs => plain (.w8 off b) :: writeBytes (off + 1) bs

/-- `ERR2` and `ERR58` (30_encoding.md R99) for the STATUS register at an offset. -/
def errLines (off : Nat) (e : HostVar) : List Line :=
  [plain (.rd32 off e), plain (.shrImm e 4 e), plain (.andImm e 0xF e)]

/-- The expansion of source line p (30_encoding.md R99). -/
def expandItem (p : Nat) : SourceItem → List Line
  | .instr i => [plain i]
  | .wait2 => waitLoop p 0x004
  | .wait58 => waitLoop p 0x204
  | .wbytes off b0 bs => writeBytes off (b0 :: bs)
  | .b2Init nn kk => [plain (.w32 0x008 nn), plain (.w32 0x00C kk), plain (.w32 0x000 0x00000001)] ++ waitLoop p 0x004
  | .b2Update len => [plain (.w32 0x008 len), plain (.w32 0x000 0x00000002)] ++ waitLoop p 0x004
  | .b2Final => [plain (.w32 0x000 0x00000003)] ++ waitLoop p 0x004
  | .b58Encode len cap =>
    [plain (.w32 0x208 len), plain (.w32 0x20C cap), plain (.w32 0x200 0x00000001)] ++ waitLoop p 0x204
  | .b58Decode len w =>
    [plain (.w32 0x208 len), plain (.w32 0x20C w), plain (.w32 0x200 0x00000002)] ++ waitLoop p 0x204
  | .err2 e => errLines 0x004 e
  | .err58 e => errLines 0x204 e

/-- Labels name the next instruction: the first line of an expansion gets the labels of its source line. -/
def labelFirst (ls : List Label) : List Line → List Line
  | [] => []
  | line :: rest => { line with labels := ls ++ line.labels } :: rest

/-- The program of source lines, the first of them with number p (30_encoding.md R98, R99). -/
def assembleFrom : Nat → List SourceLine → Program
  | _, [] => []
  | p, src :: rest => labelFirst (src.labels.map .named) (expandItem p src.item) ++ assembleFrom (p + 1) rest

/-- The program of source lines (30_encoding.md R98, R99). -/
def assemble (src : List SourceLine) : Program := assembleFrom 0 src

/-- A source line without labels. -/
def unlabelled (item : SourceItem) : SourceLine := { labels := [], item := item }

/-- `WBYTES` of any number of bytes, none for none. -/
def sourceBytes (off : Nat) : List Byte → List SourceLine
  | [] => []
  | b :: bs => [unlabelled (.wbytes off b bs)]

/-- One chunk of a message: written to DIN, then absorbed (30_encoding.md R100). -/
def chunkLines (chunk : List Byte) : List SourceLine :=
  sourceBytes 0x100 chunk ++ [unlabelled (.b2Update (BitVec.ofNat 32 chunk.length))]

/-- The read of DOUT[0..nn-1]: byte i into the host variable number i (30_encoding.md R100). -/
def readDigestLines (nn : Nat) : List SourceLine :=
  (List.range nn).map fun i => unlabelled (.instr (.rd8 (0x180 + i) (.named i)))

/-- The one-shot `blake2b` sequence for a message cut into chunks of 1 to 128 bytes (30_encoding.md R100). -/
def oneShot (nn : Word32) (key : List Byte) (chunks : List (List Byte)) : List SourceLine :=
  sourceBytes 0x100 key ++ [unlabelled (.b2Init nn (BitVec.ofNat 32 key.length))] ++ chunks.flatMap chunkLines ++
    [unlabelled .b2Final] ++ readDigestLines nn.toNat

/-- Put a program before the host, at its first line, with no variable defined: how a program comes to run (log 11). -/
def loadProgram (s : State) (p : Program) : State := { s with host := { HostAgent.reset with program := p } }

end Sys2Proof.Machine
end

