-- ==== Sys2Proof/Machine/Engine.lean ====
section
/-! DEFINITION. The completion step of an engine (20_memory.md R75), who moves next (R76), and the placing of a command
before its engine. -/

namespace Sys2Proof.Machine

/-- The completion step of a unit: the command word held in its busy latch is decoded and its rule applied; a word that is no
command completes with IllegalCommand and no other effect (20_memory.md R75, 30_encoding.md R95, R97). A unit with nothing
pending has no completion (20_memory.md R76): the step then changes nothing (log 4). -/
def complete (u : DevUnit) (s : State) : Host.Outcome State Fault Refusal :=
  if (latchOf s u).pending then
    match decode u (latchOf s u).word with
    | .ok i => exec i s
    | .error _ => .next (finish s u .illegalCommand)
  else .next s

/-- The agent that takes the next step: the first of the schedule, or, when the schedule is used up, the free value for this
tick (20_memory.md R76; log 3). -/
def nextAgent (s : State) : Agent :=
  match s.schedule with
  | a :: _ => a
  | [] => Config.freeAgent s.tick

/-- The state with this step's turn taken from the schedule. -/
def takeTurn (s : State) : State := { s with schedule := s.schedule.tail, tick := s.tick + 1 }

/-- The step of an agent (10_state.md R20). -/
def agentStep : Agent → State → Host.Outcome State Fault Refusal
  | .host, s => hostStep s
  | .engine u, s => complete u s
  | .reset, s => .next (deviceReset s)

/-- A command word as if just issued to a unit, with that unit's engine the next to move (log 11). -/
def placeCommand (s : State) (u : DevUnit) (v : Word32) : State :=
  { issue s u v with schedule := .engine u :: s.schedule }

/-- Bits w of a table row placed before the engine: bits 31..0 are the command word, bits 63..32 the offset of the CMD register
it is written to (log 11). At an offset that is no CMD register there is nothing to place. -/
def placeTableWord (s : State) (nbits w : Nat) : State :=
  match unitOfCmdOffset (w % 2 ^ nbits / 2 ^ 32 % 2 ^ 32) with
  | some u => placeCommand s u (BitVec.ofNat 32 (w % 2 ^ nbits))
  | none => s

end Sys2Proof.Machine
end

