-- ==== Sys2Proof/Machine/Step.lean ====
section
/-! DEFINITION. One step of the machine: the agent whose turn it is moves (20_memory.md R76). -/

namespace Sys2Proof.Machine

/-- One step: the next agent takes its turn and makes its atomic step (20_memory.md R73, R75, R76). -/
def step (s : State) : Host.Outcome State Fault Refusal := agentStep (nextAgent s) (takeTurn s)

/-- s with the command of bits w issued to its unit and that unit's engine next to move, so that the next step runs it. -/
def State.withFetchWord (s : State) (nbits w : Nat) : State := placeTableWord s nbits w

end Sys2Proof.Machine
end

