-- ==== Sys2Proof/Safety.lean ====
section
/-! DEFINITION. The terms claims are stated in: the values of byte, digit and word sequences (00_scope.md R10), what a
well-behaved outcome is, the invariant of the machine, and feeding a message to the B2 unit in chunks. -/

namespace Sys2Proof.Machine

/-- `be_value(B)`: the integer whose big-endian bytes are B (00_scope.md R10). -/
def beValue (bs : List Byte) : Nat := bs.foldl (fun v b => 256 * v + b.toNat) 0

/-- `be_bytes_n(v)`: the n bytes of v, the most significant first (00_scope.md R10). -/
def beBytes (n v : Nat) : List Byte := (leBytes n v).reverse

/-- The number of bytes of a value without leading zero bytes, 0 for 0 (40_base58.md R130, R132). -/
def byteLen (v : Nat) : Nat := (Nat.digits 256 v).length

/-- The base-58 digits of a value, most significant first, no leading 0, none for 0 (40_base58.md R128). -/
def base58Digits (v : Nat) : List Nat := (Nat.digits 58 v).reverse

/-- The value of base-58 digits, most significant first. -/
def digitsValue (ds : List Nat) : Nat := ds.foldl (fun v d => 58 * v + d) 0

/-- The value of an accumulator, acc[0] most significant (40_base58.md R125). -/
def accValue (acc : List Word32) : Nat := acc.foldl (fun v a => 2 ^ 32 * v + a.toNat) 0

/-- The leading zero bytes of the input of B58.ENCODE, z (40_base58.md R127). -/
def encodeZeros (s : State) : Nat := leadingCount 0x00 (encodeData s)

/-- The value of the input of B58.ENCODE (40_base58.md R128). -/
def encodeValue (s : State) : Nat := beValue (encodeData s)

/-- The needed length of the output of B58.ENCODE, without the terminator (40_base58.md R128). -/
def encodeNeeded (s : State) : Nat := encodeZeros s + (base58Digits (encodeValue s)).length

/-- The text B58.DECODE reads has n characters: the host says so, or it says 0 and the first 0x00 of TXT stands at n
(40_base58.md R130). -/
def TextLength (s : State) (n : Nat) : Prop :=
  (decodeLen s = n ∧ n ≠ 0 ∧ n ≤ s.cfg.txtSize) ∨
    (decodeLen s = 0 ∧ n < s.cfg.txtSize ∧ winRead s .txt n = 0 ∧ ∀ k < n, winRead s .txt k ≠ 0)

/-- Base-58 digits with no leading 0. -/
def PlainDigits (ds : List Nat) : Prop := (∀ d ∈ ds, d < 58) ∧ ds.head? ≠ some 0

/-- The text of zc leading '1's and then digits (40_base58.md R120, R128). -/
def textOf (zc : Nat) (ds : List Nat) : List Byte := List.replicate zc 0x31 ++ ds.map symbolOf

/-- The machine did not stop. -/
def isNext : Host.Outcome State Fault Refusal → Bool
  | .next _ => true
  | .fault _ => false
  | .refused _ => false

/-- Go on from a next state; a stop stays a stop. -/
def andThen (o : Host.Outcome State Fault Refusal) (f : State → Host.Outcome State Fault Refusal) :
    Host.Outcome State Fault Refusal :=
  match o with
  | .next s => f s
  | .fault r => .fault r
  | .refused r => .refused r

/-- An offset stands in a data window (20_memory.md R61). -/
def inWindow (cfg : Config) (a : Nat) : Bool :=
  match locate cfg a with
  | .window _ _ => true
  | .reg _ _ => false
  | .reserved => false

/-- The result codes a B2 command can end with (60_exceptions.md R222). -/
def b2Codes : List ResultCode := [.ok, .capacityExceeded, .invalidParameters, .sequenceError, .illegalCommand]

/-- The result codes a B58 command can end with; Underflow is unreachable (60_exceptions.md R222, R226). -/
def b58Codes : List ResultCode := [.ok, .bufferTooSmall, .capacityExceeded, .invalidCharacter, .illegalCommand]

/-- What the B2 context always satisfies (10_state.md R25 to R27, 41_blake2b.md R177, R179, R181, R183). -/
structure ContextInv (x : B2Unit) : Prop where
  /-- outlen is 0 exactly in the phases UNINIT and INERT (10_state.md R26). -/
  outlenZero : x.outlen = 0 ↔ x.phase = .uninit ∨ x.phase = .inert
  /-- In those phases the context is zeroed (10_state.md R45, 41_blake2b.md R179). -/
  zeroed : x.phase = .uninit ∨ x.phase = .inert →
    x.h = Vector.replicate 8 0 ∧ x.t = 0 ∧ x.buf = Vector.replicate 128 0 ∧ x.c = 0
  /-- B2.FINAL leaves the buffer full (41_blake2b.md R181). -/
  full : x.phase = .finalized → x.c = 128
  /-- buf is 0 from the fill index on (41_blake2b.md R177, R179). -/
  tailZero : ∀ k (hk : k < 128), x.c.val ≤ k → x.buf[k] = 0
  /-- Before FINAL the counter is a whole number of blocks (41_blake2b.md R183). -/
  wholeBlocks : x.phase = .active → x.t.toNat % 128 = 0

/-- The invariant every step keeps. -/
structure Inv (s : State) : Prop where
  /-- N is in its range (00_scope.md R5). -/
  cfgOk : s.cfg.wf = true
  /-- The memory is in its canonical form. -/
  memCanonical : Memory.wf s.mem = true
  /-- Nothing is stored outside the windows (20_memory.md R61). -/
  memMapped : ∀ cell ∈ s.mem, inWindow s.cfg cell.1 = true
  context : ContextInv s.b2
  /-- DOUT holds the digest after a successful FINAL, with 0 beyond outlen, and is 0 in every other phase
  (10_state.md R33, 70_reset_and_hazards.md R269). -/
  digest : ∀ k < 64, winRead s .dout k =
    if s.b2.phase = .finalized ∧ k < s.b2.outlen.val then digestByte s.b2.h k else 0
  /-- Each STATUS.ERR is one of its unit's codes (60_exceptions.md R222). -/
  b2CodeOk : s.b2.err ∈ b2Codes
  b58CodeOk : s.b58.err ∈ b58Codes

/-- The host's part of an UPDATE: a chunk of the message in DIN, its length in B2_PARAM0 (30_encoding.md R100). -/
def feed (s : State) (chunk : List Byte) : State :=
  winWrite (setParam0 s .b2 (BitVec.ofNat 32 chunk.length)) .din chunk

/-- One B2.UPDATE for each chunk, in order (30_encoding.md R100). -/
def updateAll : State → List (List Byte) → Host.Outcome State Fault Refusal
  | s, [] => .next s
  | s, chunk :: rest => andThen (exec .b2Update (feed s chunk)) fun t => updateAll t rest

/-- The host's part of a hash: the key in DIN, nn and kk in the PARAM registers (30_encoding.md R100). -/
def feedInit (s : State) (nn : Nat) (key : List Byte) : State :=
  winWrite (setParam1 (setParam0 s .b2 (BitVec.ofNat 32 nn)) .b2 (BitVec.ofNat 32 key.length)) .din key

/-- The one-shot hash as commands: INIT, an UPDATE for each chunk, FINAL (30_encoding.md R100). -/
def hashAll (s : State) (nn : Nat) (key : List Byte) (chunks : List (List Byte)) :
    Host.Outcome State Fault Refusal :=
  andThen (exec .b2Init (feedInit s nn key)) fun t => andThen (updateAll t chunks) fun t' => exec .b2Final t'

/-- Block number k of a sequence of bytes, filled up with zeros (41_blake2b.md R183). -/
def blockOf128 (data : List Byte) (k : Nat) : Vector Byte 128 := Vector.ofFn fun i => data.getD (128 * k + i.val) 0

/-- The bytes a hash absorbs: the key block, when there is a key, in front of the message (41_blake2b.md R183). -/
def hashInput (key msg : List Byte) : List Byte :=
  (if key = [] then [] else key ++ List.replicate (128 - key.length) 0) ++ msg

/-- The number of compressions for n bytes: max(1, ceil(n/128)) (41_blake2b.md R183). -/
def blockCount (n : Nat) : Nat := max 1 ((n + 127) / 128)

/-- The hash state after the first k blocks, each compressed as a non-final one with t the bytes so far (41_blake2b.md R183). -/
def hashAfter (h0 : Vector Word64 8) (data : List Byte) (k : Nat) : Vector Word64 8 :=
  (List.range k).foldl (fun h i => compress h (blockOf128 data i) (BitVec.ofNat 128 (128 * (i + 1))) false) h0

/-- BLAKE2b block by block, without a buffer or a fill index (41_blake2b.md R183): the first blocks as non-final ones, the last
one with t the number of all bytes and the finalization flag. -/
def blockwiseHash (nn : Nat) (key msg : List Byte) : Vector Word64 8 :=
  let data := hashInput key msg
  let n := blockCount data.length - 1
  let h0 := blakeIV.set 0 (blakeIV[0] ^^^ paramWord nn key.length)
  compress (hashAfter h0 data n) (blockOf128 data n) (BitVec.ofNat 128 data.length) true

end Sys2Proof.Machine
end

