-- ==== Sys2Proof/Certificates/Slice0/Obligations.lean ====
section
/-! DEFINITION. The statements for the provers, each with the rule of spec/ it formalises. -/

open Sys2Proof Sys2Proof.Machine

/-! ## Encoding -/

/-- 30_encoding.md R97 (and R93 to R95): the decoder answers a command for exactly the five pairs of unit and word of the
opcode map, and every other word is illegal. -/
def Obligations.DecodeIsTheOpcodeMap : Prop :=
  ∀ (u : DevUnit) (w : Word32) (i : Instr),
    decode u w = .ok i ↔
      (u = .b2 ∧ w = 0x00000001 ∧ i = .b2Init) ∨ (u = .b2 ∧ w = 0x00000002 ∧ i = .b2Update) ∨
      (u = .b2 ∧ w = 0x00000003 ∧ i = .b2Final) ∨ (u = .b58 ∧ w = 0x00000001 ∧ i = .b58Encode) ∨
      (u = .b58 ∧ w = 0x00000002 ∧ i = .b58Decode)

/-- The decoder over bytes inverts the encoder in both directions: bytes decode to a well-formed command with a rest exactly
when they are that command's bytes followed by the rest (30_encoding.md section 2; the byte layout is the model's, log 11). -/
def Obligations.DecodeBytesInvertsEncodeBytes : Prop :=
  ∀ (i : Instr) (bs rest : List Byte),
    i.wf = true ∧ decodeBytes bs = .ok (i, rest) ↔ bs = encodeBytes i ++ rest

/-- Words written out from 30_encoding.md R91, R93, R94 decode to the commands they stand for. -/
def Obligations.WrittenOutWordsDecode : Prop :=
  decode .b2 0b00000000000000000000000000000001#32 = .ok .b2Init ∧
  decode .b2 0b00000000000000000000000000000010#32 = .ok .b2Update ∧
  decode .b2 0b00000000000000000000000000000011#32 = .ok .b2Final ∧
  decode .b58 0b00000000000000000000000000000001#32 = .ok .b58Encode ∧
  decode .b58 0b00000000000000000000000000000010#32 = .ok .b58Decode ∧
  decode .b2 0b00000000000000000000000000010001#32 = .error .reservedBits

/-- 30_encoding.md R95: a word of neither opcode map is issued like any command (the unit goes busy) and completes with
IllegalCommand; nothing else changes. -/
def Obligations.IllegalWordOnlySetsIllegalCommand : Prop :=
  ∀ (s : State) (w : Word32),
    (w ≠ 1 → w ≠ 2 → w ≠ 3 →
      (s.b2.latch.pending = false → busWrite s 0x000 .word w.toNat = .ok (issue s .b2 w)) ∧
      (s.b2.latch = { pending := true, word := w } → complete .b2 s = .next { s with
        b2 := { s.b2 with err := .illegalCommand, latch := { s.b2.latch with pending := false } } })) ∧
    (w ≠ 1 → w ≠ 2 →
      (s.b58.latch.pending = false → busWrite s 0x200 .word w.toNat = .ok (issue s .b58 w)) ∧
      (s.b58.latch = { pending := true, word := w } → complete .b58 s = .next { s with
        b58 := { s.b58 with err := .illegalCommand, latch := { s.b58.latch with pending := false } } }))

/-- A step runs the decoded command: when an engine's turn comes and its latch holds the word of a command, the step is that
command's meaning, on the state with the turn taken from the schedule (20_memory.md R75; the schedule is the model's, log 3). -/
def Obligations.StepRunsTheDecodedCommand : Prop :=
  ∀ (s : State) (u : DevUnit) (rest : List Agent) (i : Instr),
    s.schedule = .engine u :: rest → (latchOf s u).pending = true → decode u (latchOf s u).word = .ok i →
      step s = exec i { s with schedule := rest, tick := s.tick + 1 }

/-- The model's choice (log 11): after `withFetchWord` with the 64-bit form of a command of either unit (the word, and above it
the offset of the unit's CMD register), or with 32 bits of a B2 command, the next step runs that command, with nothing changed
but the latch that holds it and the tick. -/
def Obligations.PlacedCommandRunsNext : Prop :=
  ∀ (s : State) (u : DevUnit) (w : Nat) (i : Instr), w < 2 ^ 32 → decode u (BitVec.ofNat 32 w) = .ok i →
    (∀ off, (u = .b2 ∧ off = 0x000) ∨ (u = .b58 ∧ off = 0x200) →
      step (s.withFetchWord 64 (off * 2 ^ 32 + w)) =
        exec i { setLatch s u { pending := true, word := BitVec.ofNat 32 w } with tick := s.tick + 1 }) ∧
    (u = .b2 → step (s.withFetchWord 32 w) =
      exec i { setLatch s u { pending := true, word := BitVec.ofNat 32 w } with tick := s.tick + 1 })

/-! ## Bus -/

/-- 20_memory.md R72: a 4-byte write to the CMD register of an idle unit issues the word: the latch takes pending and the word,
STATUS.BUSY reads 1, and nothing else changes. -/
def Obligations.CommandWriteIssuesTheWord : Prop :=
  ∀ (s : State) (v : Word32),
    (s.b2.latch.pending = false →
      busWrite s 0x000 .word v.toNat = .ok { s with b2 := { s.b2 with latch := { pending := true, word := v } } }) ∧
    (s.b58.latch.pending = false →
      busWrite s 0x200 .word v.toNat = .ok { s with b58 := { s.b58 with latch := { pending := true, word := v } } }) ∧
    ∀ (u : DevUnit), (statusOf (issue s u v) u).getLsbD 0 = true

/-- 20_memory.md R71: while a unit is busy, every access to its block but a 4-byte read of its STATUS is a BusError, that read
is answered, and accesses to the other unit's block do not depend on the latch. -/
def Obligations.BusyUnitAnswersOnlyStatus : Prop :=
  ∀ (s : State) (a : Nat) (size : AccessSize),
    ((latchOf s (blockOf a)).pending = true →
      (∀ v, ∃ e, busWrite s a size v = .error e) ∧
      (¬ (size = .word ∧ a = regOffset (blockOf a) .status) → ∃ e, busRead s a size = .error e) ∧
      (size = .word → a = regOffset (blockOf a) .status →
        busRead s a size = .ok (statusOf s (blockOf a)).toNat)) ∧
    ∀ (u : DevUnit) (l : Latch), u ≠ blockOf a →
      busRead (setLatch s u l) a size = busRead s a size ∧
      ∀ v, busWrite (setLatch s u l) a size v = (busWrite s a size v).map fun t => setLatch t u l

/-- 20_memory.md R61, R69 check 1: an access that covers a reserved offset of the map is a BusError for that reason, whatever
else is wrong with it. -/
def Obligations.ReservedOffsetsAreBusErrors : Prop :=
  ∀ (s : State) (a b : Nat) (size : AccessSize), s.cfg.wf = true → a ≤ b → b < a + sizeBytes size →
    ((0x010 ≤ b ∧ b ≤ 0x0FF) ∨ (0x1C0 ≤ b ∧ b ≤ 0x1FF) ∨ (0x210 ≤ b ∧ b ≤ 0x3FF) ∨
      (0x400 + s.cfg.maxLen ≤ b ∧ b ≤ 0x7FF) ∨ (0x800 + s.cfg.txtSize ≤ b ∧ b ≤ 0xFFF)) →
    busRead s a size = .error .reservedOffset ∧ ∀ v, busWrite s a size v = .error .reservedOffset

/-- 20_memory.md R65: a register is reached only with 4 bytes at its own, 4-aligned offset: any other access at one of its bytes
is a BusError. -/
def Obligations.RegistersAreReachedWhole : Prop :=
  ∀ (s : State) (u : DevUnit) (r : Reg) (a : Nat) (size : AccessSize),
    regOffset u r ≤ a → a < regOffset u r + 4 → ¬ (size = .word ∧ a = regOffset u r) →
    regOffset u r % 4 = 0 ∧ (∃ e, busRead s a size = .error e) ∧ ∀ v, ∃ e, busWrite s a size v = .error e

/-- 20_memory.md R67, R68 and 10_state.md R31, R36: on an idle unit CMD reads 0, PARAM registers read back what is written, all
32 bits of it, and a write to STATUS is refused as read-only. -/
def Obligations.IdleRegistersReadAndWrite : Prop :=
  ∀ (s : State) (u : DevUnit) (v : Word32), (latchOf s u).pending = false →
    busRead s (regOffset u .cmd) .word = .ok 0 ∧
    busRead s (regOffset u .status) .word = .ok (statusOf s u).toNat ∧
    busWrite s (regOffset u .param0) .word v.toNat = .ok (setParam0 s u v) ∧
    busWrite s (regOffset u .param1) .word v.toNat = .ok (setParam1 s u v) ∧
    busRead (setParam0 s u v) (regOffset u .param0) .word = .ok v.toNat ∧
    busRead (setParam1 s u v) (regOffset u .param1) .word = .ok v.toNat ∧
    busWrite s (regOffset u .status) .word v.toNat = .error .readOnly

/-- 20_memory.md R66: an aligned access inside one window of an idle unit is performed: a read answers the window's bytes in
little-endian order, a write of DIN, BIN or TXT is done, a write of DOUT is refused. -/
def Obligations.AlignedWindowAccessesArePerformed : Prop :=
  ∀ (s : State) (w : Window) (k : Nat) (size : AccessSize), s.cfg.wf = true →
    (latchOf s (blockOf (winBase w))).pending = false →
    (winBase w + k) % sizeBytes size = 0 → k + sizeBytes size ≤ winSize s.cfg w →
    busRead s (winBase w + k) size = .ok (leValue (memReadBytes s.mem (winBase w + k) (sizeBytes size))) ∧
    (w ≠ .dout → ∀ v, ∃ t, busWrite s (winBase w + k) size v = .ok t) ∧
    (w = .dout → ∀ v, busWrite s (winBase w + k) size v = .error .readOnly)

/-- 20_memory.md R66: an access that starts in a window and is misaligned, or covers a byte outside the window, is a
BusError. -/
def Obligations.MisalignedWindowAccessesAreBusErrors : Prop :=
  ∀ (s : State) (w : Window) (k : Nat) (size : AccessSize), s.cfg.wf = true → k < winSize s.cfg w →
    ((winBase w + k) % sizeBytes size ≠ 0 ∨ winSize s.cfg w < k + sizeBytes size) →
    (∃ e, busRead s (winBase w + k) size = .error e) ∧ ∀ v, ∃ e, busWrite s (winBase w + k) size v = .error e

/-- 20_memory.md R64, R66, R72: after a performed write of a window, byte a+i is bits [8i+7 : 8i] of the value, the same access
reads the value back, every other byte and everything outside the memory is unchanged. -/
def Obligations.WindowWriteIsLittleEndianAndLocal : Prop :=
  ∀ (s t : State) (w : Window) (k a v : Nat) (size : AccessSize), Memory.wf s.mem = true →
    locate s.cfg a = .window w k → v < 256 ^ sizeBytes size → busWrite s a size v = .ok t →
    busRead t a size = .ok v ∧
    (∀ i < sizeBytes size, memRead t.mem (a + i) = (BitVec.ofNat 32 v).extractLsb' (8 * i) 8) ∧
    (∀ b, ¬ (a ≤ b ∧ b < a + sizeBytes size) → memRead t.mem b = memRead s.mem b) ∧
    Memory.wf t.mem = true ∧ t = { s with mem := t.mem }

/-- 10_state.md R27, R30, R35, 60_exceptions.md R222: the fields of the STATUS words: BUSY in bit 0, ERR in bits 7:4, PHASE in
bits 9:8 of B2's, every other bit 0; and the number of every result code and of every phase. -/
def Obligations.StatusWordsHoldTheirFields : Prop :=
  (∀ (s : State),
    (statusOf s .b2).getLsbD 0 = s.b2.latch.pending ∧ (statusOf s .b2).extractLsb' 1 3 = 0 ∧
    (statusOf s .b2).extractLsb' 4 4 = resultCode s.b2.err ∧
    (statusOf s .b2).extractLsb' 8 2 = phaseCode s.b2.phase ∧ (statusOf s .b2).extractLsb' 10 22 = 0 ∧
    (statusOf s .b58).getLsbD 0 = s.b58.latch.pending ∧ (statusOf s .b58).extractLsb' 1 3 = 0 ∧
    (statusOf s .b58).extractLsb' 4 4 = resultCode s.b58.err ∧ (statusOf s .b58).extractLsb' 8 24 = 0) ∧
  resultCode .ok = 0 ∧ resultCode .bufferTooSmall = 1 ∧ resultCode .capacityExceeded = 2 ∧
  resultCode .invalidCharacter = 3 ∧ resultCode .underflow = 4 ∧ resultCode .invalidParameters = 5 ∧
  resultCode .sequenceError = 6 ∧ resultCode .illegalCommand = 7 ∧
  phaseCode .uninit = 0 ∧ phaseCode .active = 1 ∧ phaseCode .finalized = 2 ∧ phaseCode .inert = 3

/-- 30_encoding.md R98, 20_memory.md R70: a BusError answer stops the host program in a fault state and changes nothing else. -/
def Obligations.BusErrorOnlyStopsTheHost : Prop :=
  ∀ (s : State) (off : Nat) (size : AccessSize) (e : BusError), off < 4096 →
    (∀ v, busWrite s off size v = .error e →
      hostWrite s off size v = .next { s with host := { s.host with status := .busError e } }) ∧
    (∀ x, busRead s off size = .error e →
      hostRead s off size x = .next { s with host := { s.host with status := .busError e } })

/-- 30_encoding.md R98: a running host runs the instruction of its next line; W32, W16 and W8 write their immediate with 4, 2 and
1 bytes, RD32, RD16 and RD8 read as many; a performed write or read goes on to the next line, a read with its variable set to the
value. -/
def Obligations.HostAccessesFollowTheBus : Prop :=
  ∀ (s t : State) (off v : Nat) (size : AccessSize) (x : HostVar) (line : Line),
    (s.host.status = .running → s.host.program[s.host.next]? = some line → hostStep s = hostExec line.instr s) ∧
    (∀ imm, hostExec (.w32 off imm) s = hostWrite s off .word imm.toNat) ∧
    (∀ imm, hostExec (.w16 off imm) s = hostWrite s off .half imm.toNat) ∧
    (∀ imm, hostExec (.w8 off imm) s = hostWrite s off .byte imm.toNat) ∧
    hostExec (.rd32 off x) s = hostRead s off .word x ∧ hostExec (.rd16 off x) s = hostRead s off .half x ∧
    hostExec (.rd8 off x) s = hostRead s off .byte x ∧
    sizeBytes .word = 4 ∧ sizeBytes .half = 2 ∧ sizeBytes .byte = 1 ∧
    (off < 4096 → busWrite s off size v = .ok t →
      hostWrite s off size v = .next { t with host := { s.host with next := s.host.next + 1 } }) ∧
    (off < 4096 → busRead s off size = .ok v →
      hostRead s off size x = .next { s with host :=
        { s.host with vars := setVar s.host.vars x v, next := s.host.next + 1 } })

/-- 30_encoding.md R99: the instructions each pseudo-instruction stands for (`%s` is one host variable: log 14). -/
def Obligations.PseudoInstructionsExpandAsListed : Prop :=
  ∀ (p off : Nat) (nn kk : Word32) (b0 : Byte) (bs : List Byte) (e : HostVar),
    (∀ q st, (q = SourceItem.wait2 ∧ st = 0x004) ∨ (q = .wait58 ∧ st = 0x204) →
      (expandItem p q).map Line.instr = [.rd32 st .s, .andImm .s 1 .s, .bne .s 0 (.inner p)] ∧
      (expandItem p q).map Line.labels = [[.inner p], [], []]) ∧
    (∀ k (b : Byte), (b0 :: bs)[k]? = some b → (expandItem p (.wbytes off b0 bs))[k]? = some (plain (.w8 (off + k) b))) ∧
    (expandItem p (.wbytes off b0 bs)).length = bs.length + 1 ∧
    expandItem p (.b2Init nn kk) =
      [.w32 0x008 nn, .w32 0x00C kk, .w32 0x000 0x00000001].map plain ++ expandItem p .wait2 ∧
    expandItem p (.b2Update nn) = [.w32 0x008 nn, .w32 0x000 0x00000002].map plain ++ expandItem p .wait2 ∧
    expandItem p .b2Final = [.w32 0x000 0x00000003].map plain ++ expandItem p .wait2 ∧
    expandItem p (.b58Encode nn kk) =
      [.w32 0x208 nn, .w32 0x20C kk, .w32 0x200 0x00000001].map plain ++ expandItem p .wait58 ∧
    expandItem p (.b58Decode nn kk) =
      [.w32 0x208 nn, .w32 0x20C kk, .w32 0x200 0x00000002].map plain ++ expandItem p .wait58 ∧
    expandItem p (.err2 e) = [.rd32 0x004 e, .shrImm e 4 e, .andImm e 0xF e].map plain ∧
    expandItem p (.err58 e) = [.rd32 0x204 e, .shrImm e 4 e, .andImm e 0xF e].map plain

/-- 30_encoding.md R99: the label inside the waiting loop of an expansion is local: it names exactly one line of the assembled
program, whatever the other lines are. -/
def Obligations.ExpansionLabelsAreLocal : Prop :=
  ∀ (src : List SourceLine) (p : Nat) (line : SourceLine), src[p]? = some line →
    (∃ off, ∃ front, expandItem p line.item = front ++ waitLoop p off) →
    (linesNamed (assemble src) (.inner p)).length = 1

/-- 70_reset_and_hazards.md R268 (20_memory.md R71, R80): while a unit's command is pending no host step changes its registers,
its latch or a byte of its block, so the command runs on the operands it was issued with. -/
def Obligations.PendingOperandsCannotChange : Prop :=
  ∀ (s t : State) (u : DevUnit), (latchOf s u).pending = true → hostStep s = .next t →
    (u = .b2 → t.b2 = s.b2) ∧ (u = .b58 → t.b58 = s.b58) ∧
    ∀ a, blockOf a = u → memRead t.mem a = memRead s.mem a

/-- 10_state.md R21 (decision D37): the host cannot see h, t, buf, c or outlen: from two states that differ only in them a host
step stops alike or gives two states that again differ only in them. -/
def Obligations.HostCannotSeeTheContext : Prop :=
  ∀ (s t : State) (h : Vector Word64 8) (ctr : BitVec 128) (b : Vector Byte 128) (c : Fin 129) (n : Fin 65),
    hostStep s = .next t →
    hostStep { s with b2 := { s.b2 with h := h, t := ctr, buf := b, c := c, outlen := n } } =
      .next { t with b2 := { t.b2 with h := h, t := ctr, buf := b, c := c, outlen := n } }

/-- 30_encoding.md R98: the host's arithmetic, copies, branches and HALT do what its table says and touch nothing of the block.
Two things in it are the model's: that an undefined variable stops the program in the status undefinedVariable with nothing else
changed (log 19, DESIGN CHOICE: R98 calls it an error of the host program and says no more), and that variables are natural
numbers (log 7, DEDUCED). -/
def Obligations.HostArithmeticAndBranches : Prop :=
  ∀ (s : State) (x y : HostVar) (imm : Nat) (l : Label),
    (∀ v, varValue s.host.vars x = some v →
      hostExec (.andImm x imm y) s = .next (hostAssign s y (v &&& imm)) ∧
      hostExec (.shrImm x imm y) s = .next (hostAssign s y (v / 2 ^ imm)) ∧
      hostExec (.addImm x imm y) s = .next (hostAssign s y (v + imm)) ∧
      hostExec (.mov x y) s = .next (hostAssign s y v) ∧
      (v ≠ imm → hostExec (.beq x imm l) s = .next (hostAdvance s)) ∧
      (v = imm → hostExec (.bne x imm l) s = .next (hostAdvance s)) ∧
      ∀ k, linesNamed s.host.program l = [k] →
        (v = imm → hostExec (.beq x imm l) s = .next { s with host := { s.host with next := k } }) ∧
        (v ≠ imm → hostExec (.bne x imm l) s = .next { s with host := { s.host with next := k } })) ∧
    (varValue s.host.vars x = none → ∀ i ∈ [HostInstr.andImm x imm y, .shrImm x imm y, .addImm x imm y, .mov x y,
      .beq x imm l, .bne x imm l],
      hostExec i s = .next { s with host := { s.host with status := .undefinedVariable x } }) ∧
    hostExec .halt s = .next { s with host := { s.host with status := .halted } } ∧
    (∀ v, varValue (hostAssign s y v).host.vars y = some v ∧
      (∀ z, z ≠ y → varValue (hostAssign s y v).host.vars z = varValue s.host.vars z) ∧
      hostAssign s y v = { s with host := (hostAssign s y v).host } ∧
      (hostAssign s y v).host.next = s.host.next + 1)

/-- 20_memory.md R60, 00_scope.md R5: DEV_BASE is a multiple of 4096, and an address of the host's space lies in the device
exactly when it is DEV_BASE plus one of the 4096 offsets. -/
def Obligations.DeviceAddressesAreBasePlusOffset : Prop :=
  devBase % 4096 = 0 ∧ ∀ (addr off : Nat), deviceOffset addr = some off ↔ addr = hostAddress off ∧ off < 4096

/-! ## Reset and the machine as a whole -/

/-- 10_state.md R45: the reset value of every piece of the block's state. -/
def Obligations.ResetStateHoldsTheResetValues : Prop :=
  (∀ k (hk : k < 8), State.reset.b2.h[k] = 0) ∧ State.reset.b2.t = 0 ∧
  (∀ k (hk : k < 128), State.reset.b2.buf[k] = 0) ∧ State.reset.b2.c = 0 ∧ State.reset.b2.outlen = 0 ∧
  State.reset.b2.phase = .uninit ∧
  (∀ u, latchOf State.reset u = { pending := false, word := 0 } ∧ statusOf State.reset u = 0 ∧
    param0Of State.reset u = 0 ∧ param1Of State.reset u = 0) ∧
  ∀ w k, winRead State.reset w k = 0

/-- 70_reset_and_hazards.md R260, R261: the reset event takes the whole block to the reset values from every state, a pending
command discarded; the host and the parameter are not part of the block (log 12). -/
def Obligations.ResetEventResetsTheBlock : Prop :=
  ∀ (s : State) (rest : List Agent), s.schedule = .reset :: rest →
    step s = .next { s with
      b2 := State.reset.b2, b58 := State.reset.b58, mem := State.reset.mem, schedule := rest, tick := s.tick + 1 }

/-- The reset state meets the invariant. -/
def Obligations.ResetStateMeetsTheInvariant : Prop := Inv State.reset

/-- Every step keeps the invariant, from every state that meets it and whichever agent moves (10_state.md R25, R26, R27, R33;
70_reset_and_hazards.md R269; 60_exceptions.md R222, R226). -/
def Obligations.EveryStepKeepsTheInvariant : Prop :=
  ∀ (s t : State), Inv s → step s = .next t → Inv t

/-- 60_exceptions.md R234, R236: a completion cannot itself fail, and leaves its unit idle. -/
def Obligations.CompletionsNeverFail : Prop :=
  ∀ (u : DevUnit) (s : State), ∃ t, complete u s = .next t ∧ (latchOf t u).pending = false ∧
    t.cfg = s.cfg ∧ t.host = s.host ∧ t.schedule = s.schedule ∧ t.tick = s.tick

/-- No step is refused, and a step ends in a fault exactly when the host's turn comes, the host is running and the instruction of
its next line is a read or a write at an offset outside the device's 4096, which the fault names (the model's choice, log 6). -/
def Obligations.StepStopsOnlyOutsideTheDevice : Prop :=
  ∀ (s : State), (∀ r, step s ≠ .refused r) ∧
    ∀ r, step s = .fault r ↔ ∃ off line, r = .outsideDevice off ∧ 4096 ≤ off ∧ nextAgent s = .host ∧
      s.host.status = .running ∧ s.host.program[s.host.next]? = some line ∧
      ((∃ imm, line.instr = .w32 off imm) ∨ (∃ imm, line.instr = .w16 off imm) ∨ (∃ imm, line.instr = .w8 off imm) ∨
        ∃ x, line.instr = .rd32 off x ∨ line.instr = .rd16 off x ∨ line.instr = .rd8 off x)

/-- 20_memory.md R77: the completions of the two units commute, to the same state in full. -/
def Obligations.CompletionsOfTheUnitsCommute : Prop :=
  ∀ (s : State), Memory.wf s.mem = true →
    ∃ t, andThen (complete .b2 s) (complete .b58) = .next t ∧ andThen (complete .b58 s) (complete .b2) = .next t

/-- 10_state.md R20, 60_exceptions.md R241: the units share no state. A completion of one unit leaves the other unit's registers
and every byte of the other unit's block unchanged; and from two states that agree on N, on the unit's registers and on the bytes
of its block it leaves the same registers and the same bytes there, whatever the rest of the two states is. -/
def Obligations.UnitsShareNoState : Prop :=
  (∀ (u : DevUnit) (s t : State), complete u s = .next t →
    (u = .b2 → t.b58 = s.b58) ∧ (u = .b58 → t.b2 = s.b2) ∧
    ∀ a, blockOf a ≠ u → memRead t.mem a = memRead s.mem a) ∧
  ∀ (u : DevUnit) (s s' t t' : State), Memory.wf s.mem = true → Memory.wf s'.mem = true → s.cfg = s'.cfg →
    (u = .b2 → s.b2 = s'.b2) → (u = .b58 → s.b58 = s'.b58) →
    (∀ a, blockOf a = u → memRead s.mem a = memRead s'.mem a) →
    complete u s = .next t → complete u s' = .next t' →
    (u = .b2 → t.b2 = t'.b2) ∧ (u = .b58 → t.b58 = t'.b58) ∧
    ∀ a, blockOf a = u → memRead t.mem a = memRead t'.mem a

/-- 60_exceptions.md R235: STATUS.ERR of a unit keeps its value through every step but a completion of that unit and a reset. -/
def Obligations.ErrKeepsUntilTheNextCompletion : Prop :=
  ∀ (s t : State) (u : DevUnit) (a : Agent), a ≠ .engine u → a ≠ .reset → agentStep a s = .next t →
    errOf t u = errOf s u

/-- 10_state.md R28: the phase after a completion of each command, from each phase, and after an illegal command; no other
agent's step changes the phase but a reset, which sets UNINIT. -/
def Obligations.PhaseTransitions : Prop :=
  ∀ (s t : State),
    (exec .b2Init s = .next t →
      t.b2.phase = if 1 ≤ s.b2.param0.toNat ∧ s.b2.param0.toNat ≤ 64 ∧ s.b2.param1.toNat ≤ 64 then .active else .inert) ∧
    (exec .b2Update s = .next t → t.b2.phase = s.b2.phase ∧
      (s.b2.phase ≠ .active → t.b2.err = .sequenceError) ∧
      (s.b2.phase = .active → t.b2.err = .ok ∨ t.b2.err = .capacityExceeded)) ∧
    (exec .b2Final s = .next t →
      (s.b2.phase = .active → t.b2.phase = .finalized) ∧
      (s.b2.phase ≠ .active → t.b2.phase = s.b2.phase ∧ t.b2.err = .sequenceError)) ∧
    (complete .b2 s = .next t → s.b2.latch.pending = true → s.b2.latch.word ≠ 1 → s.b2.latch.word ≠ 2 →
      s.b2.latch.word ≠ 3 → t.b2.phase = s.b2.phase) ∧
    (∀ a, a ≠ .engine .b2 → a ≠ .reset → agentStep a s = .next t → t.b2.phase = s.b2.phase) ∧
    (agentStep .reset s = .next t → t.b2.phase = .uninit)

/-! ## BLAKE2b -/

/-- 41_blake2b.md R170: the eight words of the initialization vector. -/
def Obligations.InitializationVectorHoldsItsWords : Prop :=
  blakeIV.toList =
    [0x6A09E667F3BCC908, 0xBB67AE8584CAA73B, 0x3C6EF372FE94F82B, 0xA54FF53A5F1D36F1, 0x510E527FADE682D1, 0x9B05688C2B3E6C1F,
      0x1F83D9ABFB41BD6B, 0x5BE0CD19137E2179]

/-- 41_blake2b.md R171: the twelve rows of SIGMA; rows 10 and 11 repeat rows 0 and 1, and each row is a permutation of 0..15. -/
def Obligations.SigmaHoldsItsPermutationRows : Prop :=
  (blakeSigma.map fun row => row.toList.map Fin.val) =
    [[0, 1, 2, 3, 4, 5, 6, 7, 8, 9, 10, 11, 12, 13, 14, 15], [14, 10, 4, 8, 9, 15, 13, 6, 1, 12, 0, 2, 11, 7, 5, 3],
      [11, 8, 12, 0, 5, 2, 15, 13, 10, 14, 3, 6, 7, 1, 9, 4], [7, 9, 3, 1, 13, 12, 11, 14, 2, 6, 5, 10, 4, 0, 15, 8],
      [9, 0, 5, 7, 2, 4, 10, 15, 14, 1, 11, 12, 6, 8, 3, 13], [2, 12, 6, 10, 0, 11, 8, 3, 4, 13, 7, 5, 15, 14, 1, 9]] ++
    [[12, 5, 1, 15, 14, 13, 4, 10, 0, 7, 6, 3, 9, 2, 8, 11], [13, 11, 7, 14, 12, 1, 3, 9, 5, 0, 15, 4, 8, 6, 2, 10],
      [6, 15, 14, 9, 11, 3, 0, 8, 12, 2, 13, 7, 1, 4, 10, 5], [10, 2, 8, 4, 7, 6, 1, 5, 15, 11, 9, 14, 3, 12, 13, 0],
      [0, 1, 2, 3, 4, 5, 6, 7, 8, 9, 10, 11, 12, 13, 14, 15], [14, 10, 4, 8, 9, 15, 13, 6, 1, 12, 0, 2, 11, 7, 5, 3]] ∧
  (∀ row ∈ blakeSigma, row.toList.Nodup) ∧ blakeSigma[10]? = blakeSigma[0]? ∧ blakeSigma[11]? = blakeSigma[1]?

/-- 41_blake2b.md R173: G changes no word but v[a], v[b], v[c] and v[d], and for four different indices the words after it are the
sums, xors and rotations of the rule: a1, d1, c1 and b1 are the four words after its first half. -/
def Obligations.MixingFollowsItsRule : Prop :=
  ∀ (v w : Words16) (a b c d : Fin 16) (x y : Word64), w = blakeG v a b c d x y →
    (∀ i : Fin 16, i ≠ a → i ≠ b → i ≠ c → i ≠ d → w[i] = v[i]) ∧
    ([a, b, c, d].Nodup → ∃ a1 d1 c1 b1 : Word64,
      a1 = v[a] + v[b] + x ∧ d1 = (v[d] ^^^ a1).rotateRight 32 ∧ c1 = v[c] + d1 ∧ b1 = (v[b] ^^^ c1).rotateRight 24 ∧
      w[a] = a1 + b1 + y ∧ w[d] = (d1 ^^^ w[a]).rotateRight 16 ∧ w[c] = c1 + w[d] ∧
      w[b] = (b1 ^^^ w[c]).rotateRight 63)

/-- 41_blake2b.md R174: applications of G to disjoint groups of words may run in any order. -/
def Obligations.MixingOfDisjointGroupsCommutes : Prop :=
  ∀ (v : Words16) (a b c d a' b' c' d' : Fin 16) (x y x' y' : Word64),
    (∀ i ∈ [a, b, c, d], i ∉ [a', b', c', d']) →
    blakeG (blakeG v a b c d x y) a' b' c' d' x' y' = blakeG (blakeG v a' b' c' d' x' y') a b c d x y

/-- 41_blake2b.md R174: a round applies G to the four columns and then to the four diagonals, application i with the message words
that entries 2i and 2i+1 of its row of SIGMA name. -/
def Obligations.RoundAppliesGToColumnsThenDiagonals : Prop :=
  ∀ (m v : Words16) (row : Vector (Fin 16) 16),
    blakeRound m row v =
      (([(0, 4, 8, 12), (1, 5, 9, 13), (2, 6, 10, 14), (3, 7, 11, 15), (0, 5, 10, 15), (1, 6, 11, 12), (2, 7, 8, 13),
        (3, 4, 9, 14)] : List (Fin 16 × Fin 16 × Fin 16 × Fin 16)).zip (List.finRange 8)).foldl
        (fun u p => blakeG u p.1.1 p.1.2.1 p.1.2.2.1 p.1.2.2.2 m[row[2 * p.2.val]] m[row[2 * p.2.val + 1]]) v

/-- 41_blake2b.md R175: the compression function. Byte j of message word i is byte 8i+j of the block; the work vector starts as
the state, the IV, the counter words in v[12] and v[13], and v[14] inverted exactly for a final block; twelve rounds follow, each
with its row of SIGMA; each state word takes the xor of work words i and i+8. -/
def Obligations.CompressionFollowsItsRule : Prop :=
  ∀ (h : Vector Word64 8) (b : Vector Byte 128) (t : BitVec 128) (f : Bool), ∃ (m : Words16) (v : Nat → Words16),
    (∀ i (hi : i < 16) j (hj : j < 8), m[i].extractLsb' (8 * j) 8 = b[8 * i + j]) ∧
    (∀ i (hi : i < 8), (v 0)[i] = h[i]) ∧
    (∀ i (hi : i < 8), i ≠ 4 → i ≠ 5 → i ≠ 6 → (v 0)[8 + i] = blakeIV[i]) ∧
    (v 0)[12] = blakeIV[4] ^^^ t.extractLsb' 0 64 ∧ (v 0)[13] = blakeIV[5] ^^^ t.extractLsb' 64 64 ∧
    (v 0)[14] = (if f then ~~~ blakeIV[6] else blakeIV[6]) ∧
    (∀ r < 12, ∃ row, blakeSigma[r]? = some row ∧ v (r + 1) = blakeRound m row (v r)) ∧
    ∀ i (hi : i < 8), (compress h b t f)[i] = h[i] ^^^ (v 12)[i] ^^^ (v 12)[i + 8]

/-- 41_blake2b.md R176: the 128-bit addition, and the same in words: t0 wraps, and t1 takes the carry exactly when the new t0 is less
than k. -/
def Obligations.CounterAdditionCarriesIntoTheHighWord : Prop :=
  ∀ (t : BitVec 128) (k : Nat), k ≤ 128 →
    (add128 t k).toNat = (t.toNat + k) % 2 ^ 128 ∧
    (add128 t k).extractLsb' 0 64 = t.extractLsb' 0 64 + BitVec.ofNat 64 k ∧
    (add128 t k).extractLsb' 64 64 =
      (if (t.extractLsb' 0 64 + BitVec.ofNat 64 k).toNat < k then t.extractLsb' 64 64 + 1 else t.extractLsb' 64 64)

/-- 41_blake2b.md R183: absorbing n bytes raises t + c by n. -/
def Obligations.AbsorbCountsEveryByte : Prop :=
  ∀ (x : B2Unit) (bs : List Byte),
    (absorb x bs).t + BitVec.ofNat 128 (absorb x bs).c.val = x.t + BitVec.ofNat 128 (x.c.val + bs.length)

/-- 41_blake2b.md R179: B2.INIT, from every phase. With 1 ≤ nn ≤ 64 and kk ≤ 64 it completes OK: the context is set up, the key
held back as a block of its own, DOUT is zero. With other parameters, compared as full 32-bit numbers, it ends with
InvalidParameters, a zeroed context in phase INERT and DOUT zero. Nothing else changes. -/
def Obligations.InitFollowsItsRule : Prop :=
  decode .b2 0x00000001 = .ok .b2Init ∧
  ∀ (s : State) (nn kk : Nat), nn = s.b2.param0.toNat → kk = s.b2.param1.toNat →
    ∃ t, exec .b2Init s = .next t ∧
      (1 ≤ nn → nn ≤ 64 → kk ≤ 64 →
        t.b2.h[0] = 0x6A09E667F3BCC908#64 ^^^ (0x01010000#64 ^^^ (BitVec.ofNat 64 kk <<< 8) ^^^ BitVec.ofNat 64 nn) ∧
        (∀ k (hk : k < 8), k ≠ 0 → t.b2.h[k] = blakeIV[k]) ∧
        (∀ k (hk : k < 128), t.b2.buf[k] = if k < kk then winRead s .din k else 0) ∧
        t.b2.c = (if kk = 0 then 0 else 128) ∧ t.b2.outlen.val = nn ∧
        t.b2 = { s.b2 with
          h := t.b2.h, t := 0, buf := t.b2.buf, c := t.b2.c, outlen := t.b2.outlen, phase := .active, err := .ok,
          latch := { s.b2.latch with pending := false } }) ∧
      (nn = 0 ∨ 64 < nn ∨ 64 < kk →
        t.b2 = { s.b2 with
          h := Vector.replicate 8 0, t := 0, buf := Vector.replicate 128 0, c := 0, outlen := 0, phase := .inert,
          err := .invalidParameters, latch := { s.b2.latch with pending := false } }) ∧
      (Memory.wf s.mem = true → ∀ k < 64, winRead t .dout k = 0) ∧
      (∀ a, ¬ (0x180 ≤ a ∧ a < 0x1C0) → memRead t.mem a = memRead s.mem a) ∧
      t = { s with b2 := t.b2, mem := t.mem }

/-- 41_blake2b.md R180, with the bulk form of Absorb (R177): B2.UPDATE. In phase ACTIVE with len ≤ 128 it completes OK and
absorbs the bytes: without a compression when they fit, else with exactly one, of the buffer filled up, and the rest in a cleared
buffer. Outside ACTIVE it ends with SequenceError, whatever len is; in ACTIVE with len > 128 with CapacityExceeded. Nothing else
changes. -/
def Obligations.UpdateFollowsItsRule : Prop :=
  decode .b2 0x00000002 = .ok .b2Update ∧
  ∀ (s : State) (len c : Nat), len = s.b2.param0.toNat → c = s.b2.c.val →
    (s.b2.phase ≠ .active → exec .b2Update s = .next { s with
      b2 := { s.b2 with err := .sequenceError, latch := { s.b2.latch with pending := false } } }) ∧
    (s.b2.phase = .active → 128 < len → exec .b2Update s = .next { s with
      b2 := { s.b2 with err := .capacityExceeded, latch := { s.b2.latch with pending := false } } }) ∧
    (s.b2.phase = .active → len ≤ 128 →
      ∃ x : B2Unit, exec .b2Update s = .next { s with
          b2 := { x with phase := .active, err := .ok, latch := { s.b2.latch with pending := false } } } ∧
        x = { s.b2 with h := x.h, t := x.t, buf := x.buf, c := x.c } ∧
        (c + len ≤ 128 → x.h = s.b2.h ∧ x.t = s.b2.t ∧ x.c.val = c + len ∧
          ∀ k (hk : k < 128), x.buf[k] = if c ≤ k ∧ k < c + len then winRead s .din (k - c) else s.b2.buf[k]) ∧
        (128 < c + len → x.t = s.b2.t + 128 ∧ x.c.val = c + len - 128 ∧
          x.h = compress s.b2.h
            (Vector.ofFn fun k => if k.val < c then s.b2.buf[k] else winRead s .din (k.val - c)) (s.b2.t + 128) false ∧
          ∀ k (hk : k < 128), x.buf[k] = if k < c + len - 128 then winRead s .din (128 - c + k) else 0))

/-- 41_blake2b.md R181: B2.FINAL. In phase ACTIVE it completes OK: the counter takes the fill index, the buffer is padded with
zeros and compressed as the final block, DOUT takes outlen digest bytes and zeros. Outside ACTIVE it ends with SequenceError.
Nothing else changes. -/
def Obligations.FinalFollowsItsRule : Prop :=
  decode .b2 0x00000003 = .ok .b2Final ∧
  ∀ (s : State),
    (s.b2.phase ≠ .active → exec .b2Final s = .next { s with
      b2 := { s.b2 with err := .sequenceError, latch := { s.b2.latch with pending := false } } }) ∧
    (s.b2.phase = .active →
      ∃ t, exec .b2Final s = .next t ∧
        t.b2.t = s.b2.t + BitVec.ofNat 128 s.b2.c.val ∧
        (∀ k (hk : k < 128), t.b2.buf[k] = if k < s.b2.c.val then s.b2.buf[k] else 0) ∧
        t.b2.h = compress s.b2.h t.b2.buf t.b2.t true ∧
        t.b2 = { s.b2 with
          h := t.b2.h, t := t.b2.t, buf := t.b2.buf, c := 128, phase := .finalized, err := .ok,
          latch := { s.b2.latch with pending := false } } ∧
        (Memory.wf s.mem = true → ∀ k (hk : k < 64), winRead t .dout k =
          if k < s.b2.outlen.val then (t.b2.h[k / 8] >>> (8 * (k % 8))).setWidth 8 else 0) ∧
        (∀ a, ¬ (0x180 ≤ a ∧ a < 0x1C0) → memRead t.mem a = memRead s.mem a) ∧
        t = { s with b2 := t.b2, mem := t.mem })

/-- 41_blake2b.md R182: the digest depends on nn, the key and the message only: from any two states, whatever a context, the
windows or the host held before, and however the message is cut into UPDATE commands, DOUT, h and t end the same. -/
def Obligations.ChunkingDoesNotShow : Prop :=
  ∀ (s s' : State) (nn : Nat) (key : List Byte) (cs ds : List (List Byte)),
    Memory.wf s.mem = true → Memory.wf s'.mem = true →
    1 ≤ nn → nn ≤ 64 → key.length ≤ 64 → (∀ chunk ∈ cs ++ ds, chunk.length ≤ 128) → cs.flatten = ds.flatten →
    ∃ t t', hashAll s nn key cs = .next t ∧ hashAll s' nn key ds = .next t' ∧
      t.b2.h = t'.b2.h ∧ t.b2.t = t'.b2.t ∧ ∀ k < 64, winRead t .dout k = winRead t' .dout k

/-- 41_blake2b.md R183: the commands compute BLAKE2b block by block: INIT, any UPDATEs and FINAL leave in DOUT the first nn
bytes of the blockwise hash of the message, with t the number of bytes absorbed, the key block counted as 128. -/
def Obligations.CommandsComputeTheBlockwiseHash : Prop :=
  ∀ (s : State) (nn : Nat) (key : List Byte) (chunks : List (List Byte)), Memory.wf s.mem = true →
    1 ≤ nn → nn ≤ 64 → key.length ≤ 64 → (∀ chunk ∈ chunks, chunk.length ≤ 128) →
    ∃ t, hashAll s nn key chunks = .next t ∧ t.b2.err = .ok ∧ t.b2.phase = .finalized ∧
      t.b2.h = blockwiseHash nn key chunks.flatten ∧
      t.b2.t = BitVec.ofNat 128 ((if key = [] then 0 else 128) + chunks.flatten.length) ∧
      ∀ k < 64, winRead t .dout k = if k < nn then digestByte (blockwiseHash nn key chunks.flatten) k else 0

/-! ## Base58 -/

/-- 40_base58.md R120, R121: the symbol of every digit, run by run of the table (1 to 9, A to H, J to N, P to Z, a to k, m to z);
the digit map inverts the alphabet; a byte of the ranges R121 lists as assigned has a digit, every other byte has none. -/
def Obligations.DigitMapInvertsTheAlphabet : Prop :=
  (∀ d, d < 58 → (symbolOf d).toNat =
    if d < 9 then 0x31 + d else if d < 17 then 0x41 + (d - 9) else if d < 22 then 0x4A + (d - 17)
    else if d < 33 then 0x50 + (d - 22) else if d < 44 then 0x61 + (d - 33) else 0x6D + (d - 44)) ∧
  ∀ (ch : Byte),
    (∀ d, digitOf ch = some d ↔ d < 58 ∧ symbolOf d = ch) ∧
    ((digitOf ch).isSome = true ↔
      (0x31 ≤ ch.toNat ∧ ch.toNat ≤ 0x39) ∨ (0x41 ≤ ch.toNat ∧ ch.toNat ≤ 0x48) ∨
      (0x4A ≤ ch.toNat ∧ ch.toNat ≤ 0x4E) ∨ (0x50 ≤ ch.toNat ∧ ch.toNat ≤ 0x5A) ∨
      (0x61 ≤ ch.toNat ∧ ch.toNat ≤ 0x6B) ∨ (0x6D ≤ ch.toNat ∧ ch.toNat ≤ 0x7A))

/-- 40_base58.md R125: a fold multiplies the accumulator by 58 and adds the digit, exactly, the carry standing for what no
longer fits; the carry stays below 58. -/
def Obligations.FoldMultipliesBy58AndAdds : Prop :=
  ∀ (acc : List Word32) (d : Nat), d < 58 →
    accValue (b58Fold acc d).1 + 2 ^ (32 * acc.length) * (b58Fold acc d).2 = 58 * accValue acc + d ∧
    (b58Fold acc d).1.length = acc.length ∧ (b58Fold acc d).2 < 58

/-- 40_base58.md R124, R129(b): the encoder's conversion with the size EncSize gives the base-58 digits of the input's value and
never underflows. -/
def Obligations.ConversionGivesTheBase58Digits : Prop :=
  ∀ (src : List Byte), b58Digits src (encSize src.length) = some (base58Digits (beValue src))

/-- 40_base58.md R127, R128: a B58.ENCODE with len ≤ N and room for the text completes OK: TXT holds one '1' for each leading
zero byte, the minimal base-58 text of the value, and the terminator; PARAM1 is the length with the terminator; everything
else is unchanged. -/
def Obligations.EncodeWritesTheBase58Text : Prop :=
  ∀ (s : State), s.cfg.wf = true → Memory.wf s.mem = true → s.b58.param0.toNat ≤ s.cfg.maxLen →
    encodeNeeded s < s.b58.param1.toNat →
    ∃ t, exec .b58Encode s = .next t ∧
      winBytes t .txt (encodeNeeded s + 1) = textOf (encodeZeros s) (base58Digits (encodeValue s)) ++ [0x00] ∧
      t.b58.param1.toNat = encodeNeeded s + 1 ∧
      t.b58 = { s.b58 with param1 := t.b58.param1, err := .ok, latch := { s.b58.latch with pending := false } } ∧
      (∀ a, ¬ (0x800 ≤ a ∧ a < 0x800 + (encodeNeeded s + 1)) → memRead t.mem a = memRead s.mem a) ∧
      t = { s with b58 := t.b58, mem := t.mem }

/-- 40_base58.md R127 E4, 60_exceptions.md R223: with too little room a B58.ENCODE ends with BufferTooSmall, reports the
required length in PARAM1, and changes nothing else. -/
def Obligations.EncodeReportsTheRequiredLength : Prop :=
  ∀ (s : State), s.cfg.wf = true → s.b58.param0.toNat ≤ s.cfg.maxLen → s.b58.param1.toNat ≤ encodeNeeded s →
    exec .b58Encode s = .next { s with b58 := { s.b58 with
      param1 := BitVec.ofNat 32 (encodeNeeded s + 1), err := .bufferTooSmall,
      latch := { s.b58.latch with pending := false } } } ∧
    (BitVec.ofNat 32 (encodeNeeded s + 1)).toNat = encodeNeeded s + 1

/-- 40_base58.md R127 E1: an input longer than N ends B58.ENCODE with CapacityExceeded and changes nothing else. -/
def Obligations.EncodeRefusesLongInput : Prop :=
  ∀ (s : State), s.cfg.maxLen < s.b58.param0.toNat → exec .b58Encode s = .next { s with
    b58 := { s.b58 with err := .capacityExceeded, latch := { s.b58.latch with pending := false } } }

/-- 40_base58.md R129, 60_exceptions.md R226: B58.ENCODE never ends with Underflow, never fails its work-size check, and never
writes past the text window. -/
def Obligations.EncodeStaysInItsBounds : Prop :=
  ∀ (s t : State), exec .b58Encode s = .next t →
    t.b58.err ≠ .underflow ∧ (s.b58.param0.toNat ≤ s.cfg.maxLen → t.b58.err ≠ .capacityExceeded) ∧
    ∀ a, ¬ (0x800 ≤ a ∧ a < 0x800 + s.cfg.txtSize) → memRead t.mem a = memRead s.mem a

/-- 40_base58.md R130 to R132: a B58.DECODE of zc leading '1's and then plain digits of value V, when the zeros and the bytes of
V fit the requested width w ≤ N, completes OK: BIN[0..w-1] holds V right-aligned big-endian, zeros, then zc of them for the '1's,
then the bytes of V, and PARAM1 counts the last two; everything else is unchanged. -/
def Obligations.DecodeStoresTheValue : Prop :=
  ∀ (s : State) (n w zc : Nat) (ds : List Nat), s.cfg.wf = true → Memory.wf s.mem = true →
    w = s.b58.param1.toNat → w ≤ s.cfg.maxLen → TextLength s n → winBytes s .txt n = textOf zc ds → PlainDigits ds →
    zc + byteLen (digitsValue ds) ≤ w →
    ∃ t, exec .b58Decode s = .next t ∧
      winBytes t .bin w = beBytes w (digitsValue ds) ∧
      winBytes t .bin w = List.replicate (w - (zc + byteLen (digitsValue ds))) 0 ++ List.replicate zc 0 ++
        beBytes (byteLen (digitsValue ds)) (digitsValue ds) ∧
      t.b58.param1.toNat = zc + byteLen (digitsValue ds) ∧
      t.b58 = { s.b58 with param1 := t.b58.param1, err := .ok, latch := { s.b58.latch with pending := false } } ∧
      (∀ a, ¬ (0x400 ≤ a ∧ a < 0x400 + w) → memRead t.mem a = memRead s.mem a) ∧
      t = { s with b58 := t.b58, mem := t.mem }

/-- 40_base58.md R130 E6 to E8, R131: when the value of digits at the start of the text no longer fits w bytes, whatever
follows them, or the whole text's zeros and bytes do not fit w, B58.DECODE ends with CapacityExceeded and changes nothing
else. -/
def Obligations.DecodeRefusesWhatDoesNotFit : Prop :=
  ∀ (s : State) (n w zc : Nat) (ds : List Nat) (rest : List Byte), w = s.b58.param1.toNat → w ≤ s.cfg.maxLen →
    TextLength s n → winBytes s .txt n = textOf zc ds ++ rest → PlainDigits ds →
    (2 ^ (8 * w) ≤ digitsValue ds ∨ (rest = [] ∧ w < zc + byteLen (digitsValue ds))) →
    exec .b58Decode s = .next { s with
      b58 := { s.b58 with err := .capacityExceeded, latch := { s.b58.latch with pending := false } } }

/-- 40_base58.md R130 E4, E5, 60_exceptions.md R225: the first character after the leading '1's that is no symbol, met before
the value overflows, ends B58.DECODE with InvalidCharacter and nothing else changes. -/
def Obligations.DecodeRefusesOtherCharacters : Prop :=
  ∀ (s : State) (n w zc : Nat) (ds : List Nat) (ch : Byte) (rest : List Byte), w = s.b58.param1.toNat →
    w ≤ s.cfg.maxLen → TextLength s n → winBytes s .txt n = textOf zc ds ++ ch :: rest → PlainDigits ds →
    digitsValue ds < 2 ^ (8 * w) → (∀ d < 58, symbolOf d ≠ ch) →
    exec .b58Decode s = .next { s with
      b58 := { s.b58 with err := .invalidCharacter, latch := { s.b58.latch with pending := false } } }

/-- 40_base58.md R130 E1 to E3: a width above N, a text length above T, and a scan that meets no terminator end B58.DECODE with
CapacityExceeded and change nothing else. -/
def Obligations.DecodeRefusesBadLengths : Prop :=
  ∀ (s : State),
    (s.cfg.maxLen < s.b58.param1.toNat ∨ s.cfg.txtSize < s.b58.param0.toNat ∨
      (s.b58.param0.toNat = 0 ∧ ∀ k < s.cfg.txtSize, winRead s .txt k ≠ 0)) →
    exec .b58Decode s = .next { s with
      b58 := { s.b58 with err := .capacityExceeded, latch := { s.b58.latch with pending := false } } }

/-- 40_base58.md R133: decoding the text of a byte sequence, at any width from its length to N, gives it back, in the last
bytes of BIN[0..w-1], leading zeros included. -/
def Obligations.DecodeOfEncodeIsTheInput : Prop :=
  ∀ (s : State) (n w : Nat), s.cfg.wf = true → Memory.wf s.mem = true → n = s.b58.param0.toNat → n ≤ w →
    w ≤ s.cfg.maxLen → encodeNeeded s < s.b58.param1.toNat →
    ∃ t, exec .b58Encode s = .next t ∧ t.b58.err = .ok ∧
      ∀ l, (l = 0 ∨ l = encodeNeeded s) →
        ∃ t', exec .b58Decode (setParam1 (setParam0 t .b58 (BitVec.ofNat 32 l)) .b58 (BitVec.ofNat 32 w)) = .next t' ∧
          t'.b58.err = .ok ∧ t'.b58.param1.toNat = n ∧ (winBytes t' .bin w).drop (w - n) = winBytes s .bin n
end

