-- ==== Sys2Proof/Laws/Memory.lean ====
section
/-! SUPPORT. The laws of the sparse memory: what a read sees after a write, and that every operation keeps the canonical
form. -/

namespace Sys2Proof.Machine

@[simp] theorem memRead_nil (a : Nat) : memRead [] a = 0 := rfl

@[simp] theorem memWriteBytes_nil (m : Memory) (a : Nat) : memWriteBytes m a [] = m := rfl

theorem memWriteBytes_cons (m : Memory) (a : Nat) (v : Byte) (vs : List Byte) :
    memWriteBytes m a (v :: vs) = memWriteBytes (memWrite m a v) (a + 1) vs := rfl

/-- The canonical form, in words. -/
theorem Memory.wf_cons (a : Nat) (x : Byte) (m : Memory) :
    Memory.wf ((a, x) :: m) = true ↔ x ≠ 0 ∧ (∀ cell ∈ m, a < cell.1) ∧ Memory.wf m = true := by
  simp [Memory.wf, and_assoc]

/-- An offset below every listed one reads as 0. -/
theorem memRead_below (m : Memory) (a : Nat) (h : ∀ cell ∈ m, a < cell.1) : memRead m a = 0 := by
  induction m with
  | nil => rfl
  | cons cell m ih =>
    obtain ⟨b, x⟩ := cell
    have hb : a < b := h (b, x) (by simp)
    simp only [memRead]
    rw [if_neg (by omega)]
    exact ih fun c hc => h c (by simp [hc])

/-- A write leaves every other byte alone, in any memory. -/
theorem memRead_memWrite_ne (m : Memory) (a b : Nat) (v : Byte) (h : b ≠ a) :
    memRead (memWrite m a v) b = memRead m b := by
  induction m with
  | nil => simp only [memWrite]; split <;> simp [memRead, h]
  | cons cell m ih =>
    obtain ⟨c, x⟩ := cell
    simp only [memWrite]
    split
    · split
      · rfl
      · simp [memRead, h]
    · split
      · rename_i _ hac
        subst hac
        split <;> simp [memRead, h]
      · simp only [memRead, ih]

/-- In a canonical memory a read after a write sees the value. -/
theorem memRead_memWrite_eq (m : Memory) (a : Nat) (v : Byte) (hm : Memory.wf m = true) :
    memRead (memWrite m a v) a = v := by
  induction m with
  | nil => simp only [memWrite]; split <;> simp_all [memRead]
  | cons cell m ih =>
    obtain ⟨c, x⟩ := cell
    obtain ⟨hx, hlt, hwf⟩ := (Memory.wf_cons c x m).1 hm
    simp only [memWrite]
    split
    · rename_i hac
      split
      · rename_i hv
        rw [hv]
        exact memRead_below _ _ (by simp only [List.mem_cons]; rintro d (rfl | hd); exacts [hac, hac.trans (hlt d hd)])
      · simp [memRead]
    · split
      · rename_i hac
        subst hac
        split
        · rename_i hv
          rw [hv]
          exact memRead_below _ _ hlt
        · simp [memRead]
      · rename_i h1 h2
        simp only [memRead, if_neg h2, ih hwf]

/-- The offsets a write lists are the one written and those listed before. -/
theorem mem_memWrite {m : Memory} {a : Nat} {v : Byte} {cell : Host.Cell} (h : cell ∈ memWrite m a v) :
    cell = (a, v) ∨ cell ∈ m := by
  induction m with
  | nil => simp only [memWrite] at h; split at h <;> simp_all
  | cons c m ih =>
    obtain ⟨c, x⟩ := c
    simp only [memWrite] at h
    split at h
    · split at h <;> simp_all
    · split at h
      · split at h <;> simp_all
        tauto
      · rcases List.mem_cons.1 h with h | h
        · simp [h]
        · rcases ih h with h | h <;> simp [h]

/-- A write keeps the canonical form. -/
theorem memWrite_wf (m : Memory) (a : Nat) (v : Byte) (hm : Memory.wf m = true) : Memory.wf (memWrite m a v) = true := by
  induction m with
  | nil => simp only [memWrite]; split <;> simp_all [Memory.wf]
  | cons cell m ih =>
    obtain ⟨c, x⟩ := cell
    obtain ⟨hx, hlt, hwf⟩ := (Memory.wf_cons c x m).1 hm
    simp only [memWrite]
    split
    · rename_i hac
      split
      · exact hm
      · rename_i hv
        refine (Memory.wf_cons _ _ _).2 ⟨hv, ?_, hm⟩
        simp only [List.mem_cons]
        rintro d (rfl | hd)
        exacts [hac, hac.trans (hlt d hd)]
    · split
      · rename_i hac
        subst hac
        split
        · exact hwf
        · rename_i hv
          exact (Memory.wf_cons _ _ _).2 ⟨hv, hlt, hwf⟩
      · rename_i h1 h2
        refine (Memory.wf_cons _ _ _).2 ⟨hx, ?_, ih hwf⟩
        intro d hd
        rcases mem_memWrite hd with rfl | hd
        · simp only; omega
        · exact hlt d hd

/-- A write of bytes leaves the bytes outside its range alone, in any memory. -/
theorem memRead_memWriteBytes_out (vs : List Byte) (m : Memory) (a b : Nat) (h : ¬ (a ≤ b ∧ b < a + vs.length)) :
    memRead (memWriteBytes m a vs) b = memRead m b := by
  induction vs generalizing m a with
  | nil => rfl
  | cons v vs ih =>
    simp only [List.length_cons] at h
    rw [memWriteBytes_cons, ih _ _ (by omega), memRead_memWrite_ne _ _ _ _ (by omega)]

/-- A write of bytes keeps the canonical form. -/
theorem memWriteBytes_wf (vs : List Byte) (m : Memory) (a : Nat) (hm : Memory.wf m = true) :
    Memory.wf (memWriteBytes m a vs) = true := by
  induction vs generalizing m a with
  | nil => exact hm
  | cons v vs ih => exact ih _ _ (memWrite_wf m a v hm)

/-- In a canonical memory a read after a write of bytes sees the byte written there. -/
theorem memRead_memWriteBytes_in (vs : List Byte) (m : Memory) (a k : Nat) (hm : Memory.wf m = true)
    (hk : k < vs.length) : memRead (memWriteBytes m a vs) (a + k) = vs[k] := by
  induction vs generalizing m a k with
  | nil => simp at hk
  | cons v vs ih =>
    rw [memWriteBytes_cons]
    cases k with
    | zero =>
      rw [memRead_memWriteBytes_out _ _ _ _ (by omega)]
      exact memRead_memWrite_eq _ _ _ hm
    | succ k =>
      have := ih (memWrite m a v) (a + 1) k (memWrite_wf m a v hm) (by simpa using hk)
      rw [show a + (k + 1) = a + 1 + k by omega, this]
      rfl

/-- The offsets a write of bytes lists are in its range or listed before. -/
theorem mem_memWriteBytes {vs : List Byte} {m : Memory} {a : Nat} {cell : Host.Cell}
    (h : cell ∈ memWriteBytes m a vs) : (a ≤ cell.1 ∧ cell.1 < a + vs.length) ∨ cell ∈ m := by
  induction vs generalizing m a with
  | nil => exact .inr h
  | cons v vs ih =>
    rcases ih h with h | h
    · left; simp only [List.length_cons]; omega
    · rcases mem_memWrite h with rfl | h
      · left; simp
      · exact .inr h

@[simp] theorem memReadBytes_length (m : Memory) (a n : Nat) : (memReadBytes m a n).length = n := by
  simp [memReadBytes]

@[simp] theorem memReadBytes_getElem (m : Memory) (a n k : Nat) (h : k < (memReadBytes m a n).length) :
    (memReadBytes m a n)[k] = memRead m (a + k) := by
  simp [memReadBytes]

/-- Two reads of bytes agree when the bytes do. -/
theorem memReadBytes_congr {m m' : Memory} {a n : Nat} (h : ∀ k < n, memRead m (a + k) = memRead m' (a + k)) :
    memReadBytes m a n = memReadBytes m' a n := by
  simp only [memReadBytes]
  exact List.map_congr_left fun k hk => h k (by simpa using hk)

/-- Reading back the bytes just written. -/
theorem memReadBytes_memWriteBytes (vs : List Byte) (m : Memory) (a : Nat) (hm : Memory.wf m = true) :
    memReadBytes (memWriteBytes m a vs) a vs.length = vs := by
  refine List.ext_getElem (by simp) fun k h1 h2 => ?_
  rw [memReadBytes_getElem, memRead_memWriteBytes_in _ _ _ _ hm h2]

/-- Equal memories are equal data: two canonical memories that read alike everywhere are equal. -/
theorem Memory.ext_of_wf {m m' : Memory} (hm : Memory.wf m = true) (hm' : Memory.wf m' = true)
    (h : ∀ a, memRead m a = memRead m' a) : m = m' := by
  induction m generalizing m' with
  | nil =>
    cases m' with
    | nil => rfl
    | cons cell m' =>
      obtain ⟨b, y⟩ := cell
      have := h b
      simp [memRead] at this
      exact absurd this.symm ((Memory.wf_cons b y m').1 hm').1
  | cons cell m ih =>
    obtain ⟨a, x⟩ := cell
    obtain ⟨hx, hlt, hwf⟩ := (Memory.wf_cons a x m).1 hm
    cases m' with
    | nil =>
      have := h a
      simp [memRead] at this
      exact absurd this hx
    | cons cell' m' =>
      obtain ⟨b, y⟩ := cell'
      obtain ⟨hy, hlt', hwf'⟩ := (Memory.wf_cons b y m').1 hm'
      have hab : a = b := by
        rcases Nat.lt_trichotomy a b with hab | hab | hab
        · exfalso
          have h0 := h a
          rw [memRead_below ((b, y) :: m') a (by
            simp only [List.mem_cons]; rintro d (rfl | hd); exacts [hab, hab.trans (hlt' d hd)])] at h0
          simp [memRead] at h0
          exact hx h0
        · exact hab
        · exfalso
          have h0 := h b
          rw [memRead_below ((a, x) :: m) b (by
            simp only [List.mem_cons]; rintro d (rfl | hd); exacts [hab, hab.trans (hlt d hd)])] at h0
          simp [memRead] at h0
          exact hy h0.symm
      subst hab
      have hxy : x = y := by simpa [memRead] using h a
      subst hxy
      congr 1
      refine ih hwf hwf' fun c => ?_
      have hc := h c
      simp only [memRead] at hc
      by_cases hca : c = a
      · subst hca
        rw [memRead_below m c hlt, memRead_below m' c hlt']
      · simpa [hca] using hc

/-- All a write to a window does: it changes the memory only, there only the bytes of its range, and keeps the canonical form.
Proofs cite this lemma and leave the memory written as a name, since a list of bytes written out in full would be unfolded
byte by byte. -/
theorem winWrite_spec (s : State) (w : Window) (bs : List Byte) :
    ∃ m, winWrite s w bs = { s with mem := m } ∧
      (∀ a, ¬ (winBase w ≤ a ∧ a < winBase w + bs.length) → memRead m a = memRead s.mem a) ∧
      (Memory.wf s.mem = true → Memory.wf m = true) ∧
      (Memory.wf s.mem = true → ∀ k (hk : k < bs.length), memRead m (winBase w + k) = bs[k]) ∧
      ∀ cell ∈ m, (winBase w ≤ cell.1 ∧ cell.1 < winBase w + bs.length) ∨ cell ∈ s.mem :=
  ⟨memWriteBytes s.mem (winBase w) bs, rfl, fun _ h => memRead_memWriteBytes_out _ _ _ _ h, memWriteBytes_wf _ _ _,
    fun hm _ hk => memRead_memWriteBytes_in _ _ _ _ hm hk, fun _ h => mem_memWriteBytes h⟩

/-- Writes to ranges that do not meet commute. -/
theorem memWriteBytes_comm (m : Memory) (a b : Nat) (vs ws : List Byte) (hm : Memory.wf m = true)
    (h : a + vs.length ≤ b) :
    memWriteBytes (memWriteBytes m a vs) b ws = memWriteBytes (memWriteBytes m b ws) a vs := by
  have w1 := memWriteBytes_wf vs m a hm
  have w2 := memWriteBytes_wf ws m b hm
  refine Memory.ext_of_wf (memWriteBytes_wf _ _ _ w1) (memWriteBytes_wf _ _ _ w2) fun c => ?_
  by_cases h1 : a ≤ c ∧ c < a + vs.length
  · obtain ⟨k, rfl⟩ := Nat.exists_eq_add_of_le h1.1
    rw [memRead_memWriteBytes_out _ _ _ _ (by omega), memRead_memWriteBytes_in _ _ _ _ hm (by omega),
      memRead_memWriteBytes_in _ _ _ _ w2 (by omega)]
  · rw [memRead_memWriteBytes_out vs _ _ _ h1]
    by_cases h2 : b ≤ c ∧ c < b + ws.length
    · obtain ⟨k, rfl⟩ := Nat.exists_eq_add_of_le h2.1
      rw [memRead_memWriteBytes_in _ _ _ _ w1 (by omega), memRead_memWriteBytes_in _ _ _ _ hm (by omega)]
    · rw [memRead_memWriteBytes_out _ _ _ _ h2, memRead_memWriteBytes_out _ _ _ _ h1,
        memRead_memWriteBytes_out _ _ _ _ h2]

/-- The bytes of a value and back. -/
theorem leValue_leBytes (n v : Nat) : leValue (leBytes n v) = v % 256 ^ n := by
  induction n generalizing v with
  | zero => simp [leBytes, leValue, Nat.mod_one]
  | succ n ih =>
    rw [leBytes, leValue, ih, pow_succ', Nat.mod_mul]
    simp

@[simp] theorem leBytes_length (n v : Nat) : (leBytes n v).length = n := by
  induction n generalizing v with
  | zero => rfl
  | succ n ih => simp [leBytes, ih]

/-- Byte i of a value is the value shifted down by i bytes. -/
theorem leBytes_getElem (n v i : Nat) (h : i < (leBytes n v).length) :
    (leBytes n v)[i] = BitVec.ofNat 8 (v / 256 ^ i) := by
  induction n generalizing v i with
  | zero => simp at h
  | succ n ih =>
    cases i with
    | zero => simp [leBytes]
    | succ i =>
      simp only [leBytes, List.getElem_cons_succ]
      rw [ih _ _ (by simpa using h), Nat.div_div_eq_div_mul, pow_succ']

theorem leValue_lt (bs : List Byte) : leValue bs < 256 ^ bs.length := by
  induction bs with
  | nil => simp [leValue]
  | cons b bs ih =>
    simp only [leValue, List.length_cons, pow_succ']
    have := b.isLt
    omega

theorem leBytes_leValue (bs : List Byte) : leBytes bs.length (leValue bs) = bs := by
  induction bs with
  | nil => rfl
  | cons b bs ih =>
    have hb := b.isLt
    simp only [List.length_cons, leBytes, leValue, List.cons.injEq]
    refine ⟨?_, ?_⟩
    · apply BitVec.eq_of_toNat_eq
      simp only [BitVec.toNat_ofNat]
      omega
    · rw [show (b.toNat + 256 * leValue bs) / 256 = leValue bs by omega, ih]

/-- In canonical form a listed byte is what its address reads as, and not 0. -/
theorem memRead_of_mem {m : Memory} (hm : Memory.wf m = true) {cell : Host.Cell} (hc : cell ∈ m) :
    memRead m cell.1 = cell.2 ∧ cell.2 ≠ 0 := by
  induction m with
  | nil => cases hc
  | cons p m ih =>
    obtain ⟨a, x⟩ := p
    have hw := (Memory.wf_cons a x m).1 hm
    rcases List.mem_cons.1 hc with rfl | hc
    · exact ⟨by simp [memRead], hw.1⟩
    · have h1 := hw.2.1 cell hc
      have h2 := ih hw.2.2 hc
      refine ⟨?_, h2.2⟩
      rw [memRead, if_neg (by omega)]
      exact h2.1

/-- An address that does not read as 0 is listed. -/
theorem exists_mem_of_memRead {m : Memory} {a : Nat} (h : memRead m a ≠ 0) : ∃ cell ∈ m, cell.1 = a := by
  induction m with
  | nil => exact absurd rfl h
  | cons p m ih =>
    obtain ⟨b, x⟩ := p
    by_cases hb : a = b
    · exact ⟨(b, x), by simp, hb.symm⟩
    · rw [memRead, if_neg hb] at h
      obtain ⟨c, hc, he⟩ := ih h
      exact ⟨c, by simp [hc], he⟩

/-- The memory after reset has the canonical form. -/
theorem reset_mem_wf : Memory.wf State.reset.mem = true := rfl

end Sys2Proof.Machine
end

