-- ==== Sys2Proof/Laws/Base58.lean ====
section
/-! SUPPORT. The arithmetic behind the Base58 unit: values of digit, byte and word sequences, what one pass of the encoder's
inner loop does, why the size of its buffer is enough, and when the decoder's overflow tests fire. -/

namespace Sys2Proof.Machine

/-! ### Digits and bytes as values -/

theorem foldl_value (b : Nat) {α : Type} (f : α → Nat) (xs : List α) (v : Nat) :
    xs.foldl (fun v x => b * v + f x) v = b ^ xs.length * v + xs.foldl (fun v x => b * v + f x) 0 := by
  induction xs generalizing v with
  | nil => simp
  | cons x xs ih =>
    simp only [List.foldl_cons, List.length_cons]
    rw [ih (b * v + f x), ih (b * 0 + f x), pow_succ]
    ring

@[simp] theorem beValue_nil : beValue [] = 0 := rfl

theorem beValue_cons (b : Byte) (bs : List Byte) : beValue (b :: bs) = 256 ^ bs.length * b.toNat + beValue bs := by
  have := foldl_value 256 (fun x : Byte => x.toNat) bs b.toNat
  simpa [beValue] using this

theorem beValue_append (as bs : List Byte) : beValue (as ++ bs) = 256 ^ bs.length * beValue as + beValue bs := by
  have := foldl_value 256 (fun x : Byte => x.toNat) bs (beValue as)
  simpa [beValue] using this

theorem beValue_lt (bs : List Byte) : beValue bs < 256 ^ bs.length := by
  induction bs with
  | nil => simp
  | cons b bs ih =>
    rw [beValue_cons, List.length_cons, pow_succ]
    have hb := b.isLt
    have : 0 < 256 ^ bs.length := by positivity
    nlinarith

/-- Leading zero bytes add nothing to the value. -/
theorem beValue_zeros (n : Nat) (bs : List Byte) : beValue (List.replicate n 0 ++ bs) = beValue bs := by
  induction n with
  | zero => rfl
  | succ n ih => rw [List.replicate_succ, List.cons_append, beValue_cons, ih]; simp

theorem digitsValue_append (as bs : List Nat) :
    digitsValue (as ++ bs) = 58 ^ bs.length * digitsValue as + digitsValue bs := by
  have := foldl_value 58 (fun x : Nat => x) bs (digitsValue as)
  simpa [digitsValue] using this

/-- Digits most significant first have the value of the reversed list in Mathlib's order. -/
theorem digitsValue_eq_ofDigits (ds : List Nat) : digitsValue ds = Nat.ofDigits 58 ds.reverse := by
  induction ds with
  | nil => rfl
  | cons d ds ih =>
    rw [show d :: ds = [d] ++ ds from rfl, digitsValue_append, List.reverse_append, Nat.ofDigits_append, ih]
    simp [digitsValue, Nat.ofDigits_singleton]
    ring

theorem accValue_cons (a : Word32) (acc : List Word32) :
    accValue (a :: acc) = 2 ^ (32 * acc.length) * a.toNat + accValue acc := by
  have := foldl_value (2 ^ 32) (fun x : Word32 => x.toNat) acc a.toNat
  rw [← pow_mul] at this
  simpa [accValue] using this

theorem accValue_lt (acc : List Word32) : accValue acc < 2 ^ (32 * acc.length) := by
  induction acc with
  | nil => simp [accValue]
  | cons a acc ih =>
    rw [accValue_cons, List.length_cons, show 32 * (acc.length + 1) = 32 + 32 * acc.length by ring, pow_add]
    have ha := a.isLt
    have : 0 < 2 ^ (32 * acc.length) := by positivity
    nlinarith

theorem accValue_zeros (n : Nat) : accValue (List.replicate n 0) = 0 := by
  induction n with
  | zero => rfl
  | succ n ih => rw [List.replicate_succ, accValue_cons, ih]; simp

/-! ### The encoder's inner loop (40_base58.md R124) -/

/-- One pass over digits whose positions from the high-water mark on are 0 multiplies the value by 256 and adds the carry; the
digits stay below 58 and the positions from the new mark on are 0. -/
theorem carryPass_value {ds ds' : List Nat} {hw n carry : Nat} (h : carryPass ds hw carry = some (ds', n))
    (hz : ∀ d ∈ ds.drop hw, d = 0) (hd : ∀ d ∈ ds, d < 58) :
    Nat.ofDigits 58 ds' = 256 * Nat.ofDigits 58 ds + carry ∧ ds'.length = ds.length ∧ (∀ d ∈ ds', d < 58) ∧
      (∀ d ∈ ds'.drop n, d = 0) := by
  induction ds generalizing ds' hw n carry with
  | nil =>
    simp only [carryPass] at h
    split at h
    · simp only [Option.some.injEq, Prod.mk.injEq] at h
      obtain ⟨rfl, rfl⟩ := h
      simp_all
    · simp at h
  | cons d ds ih =>
    simp only [carryPass] at h
    split at h
    · rename_i hh
      obtain ⟨rfl, rfl⟩ := hh
      simp only [Option.some.injEq, Prod.mk.injEq] at h
      obtain ⟨rfl, rfl⟩ := h
      have h0 : ∀ (l : List Nat), (∀ x ∈ l, x = 0) → Nat.ofDigits 58 l = 0 := by
        intro l hl
        induction l with
        | nil => rfl
        | cons x l ihl =>
          rw [Nat.ofDigits_cons, ihl fun y hy => hl y (by simp [hy]), hl x (by simp)]
      refine ⟨?_, rfl, hd, by simpa using hz⟩
      rw [h0 _ (by simpa using hz)]
    · simp only [Option.map_eq_some_iff, Prod.exists, Prod.mk.injEq] at h
      obtain ⟨ds1, n1, h1, rfl, rfl⟩ := h
      have hz' : ∀ x ∈ ds.drop (hw - 1), x = 0 := by
        intro x hx
        cases hw with
        | zero => exact hz x (by simpa using .inr hx)
        | succ hw => exact hz x (by simpa using hx)
      obtain ⟨h2, h3, h4, h5⟩ := ih h1 hz' fun x hx => hd x (by simp [hx])
      refine ⟨?_, by simp [h3], ?_, by simpa using h5⟩
      · rw [Nat.ofDigits_cons, Nat.ofDigits_cons, h2]
        have := Nat.mod_add_div (carry + 256 * d) 58
        linarith
      · simp only [List.mem_cons]
        rintro x (rfl | hx)
        exacts [Nat.mod_lt _ (by norm_num), h4 x hx]

/-- A pass does not run out of positions when the new value fits them. -/
theorem carryPass_isSome {ds : List Nat} {hw carry : Nat} (hw' : hw ≤ ds.length)
    (h : 256 * Nat.ofDigits 58 ds + carry < 58 ^ ds.length) : (carryPass ds hw carry).isSome = true := by
  induction ds generalizing hw carry with
  | nil =>
    have h1 : hw = 0 := by simpa using hw'
    have h2 : carry = 0 := by simpa using h
    simp [carryPass, h1, h2]
  | cons d ds ih =>
    simp only [carryPass]
    split
    · rfl
    · rw [Option.isSome_map]
      refine ih (by simp at hw'; omega) ?_
      rw [Nat.ofDigits_cons, List.length_cons, pow_succ] at h
      generalize 58 ^ ds.length = p at *
      generalize Nat.ofDigits 58 ds = v at *
      omega

/-- A pass visits at most as many positions as there are. -/
theorem carryPass_le {ds ds' : List Nat} {hw n carry : Nat} (h : carryPass ds hw carry = some (ds', n)) :
    n ≤ ds'.length := by
  induction ds generalizing ds' hw n carry with
  | nil => simp only [carryPass] at h; split at h <;> simp_all
  | cons d ds ih =>
    simp only [carryPass] at h
    split at h
    · simp only [Option.some.injEq, Prod.mk.injEq] at h
      omega
    · simp only [Option.map_eq_some_iff, Prod.exists, Prod.mk.injEq] at h
      obtain ⟨ds1, n1, h1, rfl, rfl⟩ := h
      simpa using ih h1

/-- The digit buffer of EncSize(K) digits holds every value of K bytes (40_base58.md R129(b)). -/
theorem pow_256_lt_pow_encSize (k : Nat) : 256 ^ k < 58 ^ encSize k := by
  have hsmall : ∀ r < 100, 256 ^ r < 58 ^ (r * 138 / 100 + 1) := by decide +kernel
  have hstep : 256 ^ 100 ≤ 58 ^ 138 := by norm_num
  obtain ⟨q, r, hr, rfl⟩ : ∃ q r, r < 100 ∧ k = 100 * q + r :=
    ⟨k / 100, k % 100, Nat.mod_lt _ (by norm_num), by omega⟩
  have he : encSize (100 * q + r) = 138 * q + (r * 138 / 100 + 1) := by unfold encSize; omega
  rw [he, pow_add, pow_add, pow_mul, pow_mul]
  exact Nat.mul_lt_mul_of_le_of_lt (Nat.pow_le_pow_left hstep q) (hsmall r hr) (by positivity)

/-- EncSize grows with its argument (40_base58.md R129(c)). -/
theorem encSize_mono {a b : Nat} (h : a ≤ b) : encSize a ≤ encSize b := by
  unfold encSize
  omega

/-! ### Stripping leading zeros -/

/-- Digits below 58 with their leading zeros stripped are the digits of the value. -/
theorem dropWhile_zero_eq_digits (ds : List Nat) (hd : ∀ d ∈ ds, d < 58) :
    ds.dropWhile (· == 0) = (Nat.digits 58 (Nat.ofDigits 58 ds.reverse)).reverse := by
  induction ds with
  | nil => simp
  | cons d ds ih =>
    by_cases h0 : d = 0
    · subst h0
      rw [List.dropWhile_cons_of_pos (by simp), ih fun x hx => hd x (by simp [hx]), List.reverse_cons,
        Nat.ofDigits_append]
      simp
    · rw [List.dropWhile_cons_of_neg (by simpa using h0), Nat.digits_ofDigits 58 (by norm_num)]
      · simp
      · intro x hx
        exact hd x (by simpa [or_comm] using hx)
      · intro _
        simpa using h0

/-! ### Bytes of a value -/

/-- The bytes of a value below 256^n: its base-256 digits and zeros. -/
theorem leBytes_eq_digits (n v : Nat) (h : v < 256 ^ n) :
    leBytes n v = (Nat.digits 256 v).map (BitVec.ofNat 8) ++ List.replicate (n - byteLen v) 0 := by
  induction n generalizing v with
  | zero =>
    have : v = 0 := by simpa using h
    subst this
    simp [leBytes, byteLen]
  | succ n ih =>
    rcases Nat.eq_zero_or_pos v with rfl | hv
    · rw [leBytes, ih 0 (by positivity)]
      simp [byteLen, List.replicate_succ]
    · have hd := Nat.digits_def' (show 1 < 256 by norm_num) hv
      rw [leBytes, ih (v / 256) (by rw [pow_succ] at h; omega), hd]
      simp only [byteLen, hd, List.map_cons, List.length_cons, List.cons_append, Nat.add_sub_add_right]
      congr 1
      apply BitVec.eq_of_toNat_eq
      simp

theorem byteLen_le_iff (n v : Nat) : byteLen v ≤ n ↔ v < 256 ^ n := by
  unfold byteLen
  exact Nat.digits_length_le_iff (by norm_num) v

/-- The leading zero bytes of a value written in n bytes. -/
theorem leadingCount_beBytes (n v : Nat) (h : v < 256 ^ n) : leadingCount 0x00 (beBytes n v) = n - byteLen v := by
  unfold leadingCount beBytes
  rw [leBytes_eq_digits n v h, List.reverse_append, List.reverse_replicate, ← List.map_reverse,
    List.takeWhile_append_of_pos (by simp)]
  rw [List.length_append, List.length_replicate]
  suffices hh : ((Nat.digits 256 v).reverse.map (BitVec.ofNat 8)).takeWhile (· == 0x00) = [] by
    rw [hh]; simp
  rcases Nat.eq_zero_or_pos v with rfl | hv
  · simp
  · have hne : Nat.digits 256 v ≠ [] := Nat.digits_ne_nil_iff_ne_zero.2 hv.ne'
    have hlast := Nat.getLast_digit_ne_zero 256 hv.ne'
    have hlt : (Nat.digits 256 v).getLast hne < 256 := Nat.digits_lt_base (by norm_num) (List.getLast_mem hne)
    rw [← List.dropLast_append_getLast hne, List.reverse_append, List.map_append]
    simp only [List.reverse_singleton, List.map_cons, List.map_nil, List.singleton_append]
    rw [List.takeWhile_cons_of_neg]
    simp only [beq_iff_eq]
    intro h0
    have := congrArg BitVec.toNat h0
    rw [BitVec.toNat_ofNat, Nat.mod_eq_of_lt (by omega)] at this
    exact hlast (by simpa using this)

@[simp] theorem beBytes_length (n v : Nat) : (beBytes n v).length = n := by simp [beBytes]

/-- The bytes of a two-part value are the bytes of its parts. -/
theorem beBytes_append (n k hi lo : Nat) (h : lo < 256 ^ k) :
    beBytes (n + k) (hi * 256 ^ k + lo) = beBytes n hi ++ beBytes k lo := by
  unfold beBytes
  rw [← List.reverse_append]
  congr 1
  refine List.ext_getElem (by simp; omega) fun i h1 h2 => ?_
  rw [leBytes_getElem, List.getElem_append]
  simp only [leBytes_length] at h1 ⊢
  split
  · rename_i hik
    rw [leBytes_getElem]
    apply BitVec.eq_of_toNat_eq
    simp only [BitVec.toNat_ofNat]
    obtain ⟨j, rfl⟩ := Nat.exists_eq_add_of_lt hik
    rw [show hi * 256 ^ (i + j + 1) + lo = lo + 256 ^ i * (256 * (256 ^ j * hi)) by ring,
      Nat.add_mul_div_left _ _ (by positivity)]
    simp
  · rename_i hik
    obtain ⟨j, rfl⟩ := Nat.exists_eq_add_of_le (Nat.le_of_not_lt hik)
    rw [leBytes_getElem, pow_add, ← Nat.div_div_eq_div_mul, Nat.mul_comm hi,
      Nat.mul_add_div (by positivity), Nat.div_eq_of_lt h]
    simp

/-- Bytes, their value, and back. -/
theorem beBytes_beValue (bs : List Byte) : beBytes bs.length (beValue bs) = bs := by
  induction bs with
  | nil => rfl
  | cons b bs ih =>
    rw [beValue_cons, List.length_cons, Nat.add_comm, Nat.mul_comm, beBytes_append _ _ _ _ (beValue_lt bs), ih]
    simp [beBytes, leBytes]

theorem beValue_beBytes (n v : Nat) (h : v < 256 ^ n) : beValue (beBytes n v) = v := by
  induction n generalizing v with
  | zero => simp_all [beBytes, leBytes]
  | succ n ih =>
    have hb : beBytes (n + 1) v = beBytes n (v / 256) ++ beBytes 1 (v % 256) := by
      rw [← beBytes_append _ _ _ _ (by omega)]
      congr 1
      omega
    rw [hb, beValue_append, ih _ (by rw [pow_succ] at h; omega)]
    simp [beBytes, leBytes, beValue]
    omega

/-! ### The decoder (40_base58.md R125, R130) -/

/-- The bytes of a word, high first. -/
theorem lowBytesBE_eq (n : Nat) (a : Word32) : lowBytesBE n a = beBytes n a.toNat := by
  unfold lowBytesBE beBytes
  rw [List.map_reverse]
  congr 1
  refine List.ext_getElem (by simp) fun i h1 h2 => ?_
  rw [leBytes_getElem]
  apply BitVec.eq_of_toNat_eq
  simp [Nat.shiftRight_eq_div_pow, pow_mul]

/-- The words of an accumulator unpacked are the bytes of its value. -/
theorem flatMap_lowBytesBE (acc : List Word32) : acc.flatMap (lowBytesBE 4) = beBytes (4 * acc.length) (accValue acc) := by
  induction acc with
  | nil => rfl
  | cons a acc ih =>
    have hlt := accValue_lt acc
    rw [show 32 * acc.length = 8 * (4 * acc.length) by ring, pow_mul, show 2 ^ 8 = 256 from rfl] at hlt
    rw [List.flatMap_cons, ih, lowBytesBE_eq, accValue_cons, List.length_cons,
      show 32 * acc.length = 8 * (4 * acc.length) by ring, pow_mul, show 2 ^ 8 = 256 from rfl,
      show 4 * (acc.length + 1) = 4 + 4 * acc.length by ring, Nat.mul_comm (_ ^ _), beBytes_append _ _ _ _ hlt]

/-- The unpack step gives the w bytes of the value (40_base58.md R131). -/
theorem unpack_eq (w : Nat) (acc : List Word32) (hl : acc.length = (w + 3) / 4) (hv : accValue acc < 2 ^ (8 * w)) :
    unpack w acc = beBytes w (accValue acc) := by
  unfold unpack
  split
  · rename_i hr
    cases acc with
    | nil => simp at hl; omega
    | cons a acc =>
      have hlt := accValue_lt acc
      simp only [List.length_cons] at hl
      rw [show 32 * acc.length = 8 * (4 * acc.length) by ring, pow_mul, show 2 ^ 8 = 256 from rfl] at hlt
      simp only [List.headD_cons, List.tail_cons]
      rw [flatMap_lowBytesBE, lowBytesBE_eq, accValue_cons, show 32 * acc.length = 8 * (4 * acc.length) by ring, pow_mul,
        show 2 ^ 8 = 256 from rfl, Nat.mul_comm (_ ^ _), ← beBytes_append _ _ _ _ hlt]
      congr 1
      omega
  · rename_i hr
    rw [flatMap_lowBytesBE]
    congr 1
    omega

/-- E7 fires exactly when the value of the accumulator does not fit the width (40_base58.md R131). -/
theorem beyondWidth_iff (w : Nat) (acc : List Word32) (hl : acc.length = (w + 3) / 4) :
    beyondWidth w acc = true ↔ 2 ^ (8 * w) ≤ accValue acc := by
  cases acc with
  | nil =>
    have : w = 0 := by simp at hl; omega
    subst this
    simp [beyondWidth, accValue]
  | cons a acc =>
    simp only [List.length_cons] at hl
    have hlt := accValue_lt acc
    have ha := a.isLt
    rw [accValue_cons]
    by_cases hr : w % 4 = 0
    · have hw : 8 * w = 32 + 32 * acc.length := by omega
      have : beyondWidth w (a :: acc) = false := by simp [beyondWidth, zeroMask, hr]
      rw [this, hw, pow_add]
      simp only [Bool.false_eq_true, false_iff, not_le]
      have hp : 0 < 2 ^ (32 * acc.length) := by positivity
      nlinarith
    · have hw : 8 * w = 8 * (w % 4) + 32 * acc.length := by omega
      have hmask : beyondWidth w (a :: acc) = true ↔ 2 ^ (8 * (w % 4)) ≤ a.toNat := by
        have h3 : w % 4 = 1 ∨ w % 4 = 2 ∨ w % 4 = 3 := by omega
        have key : ∀ k : Nat, k < 32 → (((a &&& (0xFFFFFFFF#32 <<< k)) != 0) = true ↔ 2 ^ k ≤ a.toNat) := by
          intro k hk
          rw [bne_iff_ne, ne_eq, ← not_lt, not_iff_not]
          constructor
          · intro h0
            refine Nat.lt_pow_two_of_testBit _ fun i hi => ?_
            by_cases hi32 : i < 32
            · have := congrArg (fun x => BitVec.getLsbD x i) h0
              simp only [BitVec.getLsbD_and, BitVec.getLsbD_shiftLeft] at this
              rw [← BitVec.testBit_toNat a] at this
              have hone : (0xFFFFFFFF#32).getLsbD (i - k) = true := by
                rw [show (0xFFFFFFFF#32) = BitVec.allOnes 32 from rfl, BitVec.getLsbD_allOnes]
                simp; omega
              simpa [hi32, show ¬ i < k by omega, hone] using this
            · exact Nat.testBit_lt_two_pow (lt_of_lt_of_le ha (Nat.pow_le_pow_right (by norm_num) (by omega)))
          · intro h0
            refine BitVec.eq_of_getLsbD_eq fun i hi => ?_
            simp only [BitVec.getLsbD_and, BitVec.getLsbD_shiftLeft, hi, decide_true, Bool.true_and]
            by_cases hik : i < k
            · simp [hik]
            · have : a.getLsbD i = false := by
                rw [← BitVec.testBit_toNat]
                exact Nat.testBit_lt_two_pow (lt_of_lt_of_le h0 (Nat.pow_le_pow_right (by norm_num) (by omega)))
              simp [this]
        have := key (8 * (w % 4)) (by omega)
        simpa only [beyondWidth, zeroMask, hr, ne_eq, not_false_eq_true, if_true] using this
      rw [hmask, hw, pow_add]
      have hp : 0 < 2 ^ (32 * acc.length) := by positivity
      generalize 2 ^ (32 * acc.length) = p at *
      generalize 2 ^ (8 * (w % 4)) = q at *
      constructor
      · intro h
        nlinarith
      · intro h
        by_contra hc
        have : a.toNat + 1 ≤ q := by omega
        nlinarith

/-- A symbol is a 7-bit character with its digit (40_base58.md R121). -/
theorem symbolOf_digit : ∀ d < 58, (symbolOf d).getLsbD 7 = false ∧ digitOf (symbolOf d) = some d := by decide +kernel

/-- The symbol of no digit but 0 is '1' (40_base58.md R120). -/
theorem symbolOf_eq_one : ∀ d < 58, symbolOf d = 0x31 → d = 0 := by decide +kernel

/-- No symbol is the terminator (40_base58.md R122). -/
theorem symbolOf_ne_zero : ∀ d < 58, symbolOf d ≠ 0 := by decide +kernel

/-- A digit stands for its symbol (40_base58.md R121). -/
theorem digitOf_some {ch : Byte} {d : Nat} (h : digitOf ch = some d) : d < 58 ∧ symbolOf d = ch := by
  unfold digitOf at h
  rw [List.findIdx?_eq_some_iff_getElem] at h
  obtain ⟨hd, h1, -⟩ := h
  refine ⟨hd, ?_⟩
  unfold symbolOf
  rw [List.getD_eq_getElem _ _ hd]
  simpa using h1

/-- The leading '1's of a text of plain digits are the ones written before them. -/
theorem leadingCount_textOf (zc : Nat) (ds : List Nat) (rest : List Byte) (hd : PlainDigits ds)
    (hr : ds = [] → rest.head? ≠ some 0x31) : leadingCount 0x31 (textOf zc ds ++ rest) = zc := by
  unfold leadingCount textOf
  rw [List.append_assoc, List.takeWhile_append_of_pos (by simp), List.length_append, List.length_replicate]
  suffices h : (ds.map symbolOf ++ rest).takeWhile (· == 0x31) = [] by rw [h]; simp
  cases ds with
  | nil =>
    cases rest with
    | nil => rfl
    | cons c cs =>
      have := hr rfl
      simp only [List.map_nil, List.nil_append]
      rw [List.takeWhile_cons_of_neg]
      simpa using this
  | cons d ds =>
    simp only [List.map_cons, List.cons_append]
    rw [List.takeWhile_cons_of_neg]
    intro h
    have h0 := symbolOf_eq_one d (hd.1 d (by simp)) (by simpa using h)
    exact hd.2 (by simp [h0])

/-! ### Operands and results of the B58 commands -/

/-- Dropping as many as `takeWhile` takes is `dropWhile`. -/
theorem drop_length_takeWhile {α} (p : α → Bool) (l : List α) : l.drop (l.takeWhile p).length = l.dropWhile p := by
  induction l with
  | nil => rfl
  | cons a l ih => by_cases h : p a <;> simp [h, ih]

/-- A byte sequence is its leading zeros and the rest. -/
theorem leadingZeros_split (bs : List Byte) : bs = List.replicate (leadingCount 0 bs) 0 ++ bs.drop (leadingCount 0 bs) := by
  induction bs with
  | nil => rfl
  | cons b bs ih =>
    by_cases h : b = 0
    · subst h
      have : leadingCount 0 ((0:Byte) :: bs) = leadingCount 0 bs + 1 := by simp [leadingCount]
      rw [this, List.replicate_succ, List.drop_succ_cons, List.cons_append, ← ih]
    · have : leadingCount 0 (b :: bs) = 0 := by
        unfold leadingCount; rw [List.takeWhile_cons_of_neg (by simpa using h)]; rfl
      rw [this]; rfl

theorem encodeData_length (s : State) : (encodeData s).length = encodeLen s := by simp [encodeData, winBytes]

/-- The leading zeros are among the input bytes. -/
theorem encodeZeros_le (s : State) : encodeZeros s ≤ encodeLen s := by
  rw [← encodeData_length]; exact (List.takeWhile_sublist _).length_le

/-- `EncSize` bounds the number of base-58 digits (40_base58.md R129). -/
theorem base58Digits_length_le (src : List Byte) : (base58Digits (beValue src)).length ≤ encSize src.length := by
  unfold base58Digits
  rw [List.length_reverse, Nat.digits_length_le_iff (by norm_num)]
  exact (beValue_lt src).trans (pow_256_lt_pow_encSize _)

/-- The text of an input of at most N bytes fits the text window (40_base58.md R129). -/
theorem encodeNeeded_lt_txtSize (s : State) (h : encodeLen s ≤ s.cfg.maxLen) : encodeNeeded s + 1 ≤ s.cfg.txtSize := by
  have h1 := base58Digits_length_le ((encodeData s).drop (encodeZeros s))
  have h2 : beValue ((encodeData s).drop (encodeZeros s)) = encodeValue s := by
    unfold encodeValue
    conv_rhs => rw [leadingZeros_split (encodeData s), beValue_zeros]
    rfl
  rw [h2, List.length_drop, encodeData_length] at h1
  have := encodeZeros_le s
  unfold encodeNeeded Config.txtSize
  unfold encSize at h1
  omega

theorem encodedText_length (z ds) : (encodedText z ds).length = z + ds.length + 1 := by simp [encodedText]; omega

/-- The text length of `TextLength` is the one the decoder uses. -/
theorem decodeTextLen_eq {s : State} {n : Nat} (h : TextLength s n) : decodeTextLen s = some n ∧ ¬ (s.cfg.txtSize < decodeLen s) := by
  unfold decodeTextLen
  rcases h with ⟨h1, h2, h3⟩ | ⟨h1, h2, h3, h4⟩
  · rw [if_neg (by omega), h1]; exact ⟨rfl, by omega⟩
  · rw [if_pos h1]
    refine ⟨?_, by omega⟩
    unfold terminatorAt
    rw [List.find?_range_eq_some]
    refine ⟨?_, ?_, ?_⟩
    · simpa using h3
    · simpa using h2
    · intro k hk; simpa using h4 k hk

/-- B58.DECODE on a text of n characters at a width of at most N (40_base58.md R130). -/
theorem execB58Decode_of_textLength {s : State} {n : Nat} (hw : s.b58.param1.toNat ≤ s.cfg.maxLen) (hn : TextLength s n) :
    exec .b58Decode s = match decodeChars (decodeWidth s) ((winBytes s .txt n).drop (leadingCount 0x31 (winBytes s .txt n))) (List.replicate ((decodeWidth s + 3) / 4) 0) with
      | .error e => .next (finish s .b58 e)
      | .ok acc => .next (storeDecoded s (decodeWidth s) (leadingCount 0x31 (winBytes s .txt n)) acc) := by
  obtain ⟨h1, h2⟩ := decodeTextLen_eq hn
  show execB58Decode s = _
  unfold execB58Decode
  simp only
  rw [if_neg (by show ¬ (s.cfg.maxLen < s.b58.param1.toNat); omega), if_neg h2, h1] <;> rfl

theorem textOf_drop (zc ds rest) : (textOf zc ds ++ rest).drop zc = ds.map symbolOf ++ rest := by
  unfold textOf
  rw [List.append_assoc, List.drop_left' (by simp)]

/-- The accumulator before the first character. -/
theorem startAccumulator (w : Nat) : (List.replicate ((w + 3) / 4) (0:Word32)).length = (w+3)/4 ∧ accValue (List.replicate ((w + 3) / 4) 0) < 2 ^ (8 * w) := by
  rw [accValue_zeros]; exact ⟨by simp, by positivity⟩

theorem two_pow_eight_mul (w : Nat) : 2 ^ (8 * w) = 256 ^ w := by rw [pow_mul]; rfl

/-- The last steps of B58.DECODE in terms of the accumulator's value (40_base58.md R130 E8, R132). -/
theorem storeDecoded_eq (s : State) (w zc : Nat) (acc : List Word32) (hl : acc.length = (w + 3) / 4) (hv : accValue acc < 2 ^ (8 * w)) :
   storeDecoded s w zc acc = if w < zc + byteLen (accValue acc) then finish s .b58 .capacityExceeded else
     finish (setParam1 (winWrite s .bin (beBytes w (accValue acc))) .b58 (BitVec.ofNat 32 (zc + byteLen (accValue acc)))) .b58 .ok := by
  unfold storeDecoded
  have h2 : accValue acc < 256 ^ w := by rwa [← two_pow_eight_mul]
  have h3 := (byteLen_le_iff w _).2 h2
  simp only
  rw [unpack_eq w acc hl hv, leadingCount_beBytes _ _ h2, show w - (w - byteLen (accValue acc)) = byteLen (accValue acc) by omega]

/-- Base-58 digits of a value start with no 0. -/
theorem base58Digits_plain (v : Nat) : PlainDigits (base58Digits v) := by
  refine ⟨fun d hd => Nat.digits_lt_base (by norm_num) (List.mem_reverse.1 hd), ?_⟩
  unfold base58Digits
  rw [List.head?_reverse]
  rcases Nat.eq_zero_or_pos v with rfl | hv
  · simp
  · rw [List.getLast?_eq_getLast_of_ne_nil (Nat.digits_ne_nil_iff_ne_zero.2 hv.ne')]
    simpa using Nat.getLast_digit_ne_zero 58 hv.ne'

theorem digitsValue_base58 (v : Nat) : digitsValue (base58Digits v) = v := by
  rw [digitsValue_eq_ofDigits]; simp [base58Digits, Nat.ofDigits_digits]

end Sys2Proof.Machine
end

