-- ==== Sys2Proof/Laws/State.lean ====
section
/-! SUPPORT. What each update of the state leaves where: one lemma for each field and update, so that no proof unfolds a record
update. -/

namespace Sys2Proof.Machine

/-! ### Windows -/

@[simp] theorem winWrite_cfg (s : State) (w : Window) (bs : List Byte) : (winWrite s w bs).cfg = s.cfg := rfl
@[simp] theorem winWrite_b2 (s : State) (w : Window) (bs : List Byte) : (winWrite s w bs).b2 = s.b2 := rfl
@[simp] theorem winWrite_b58 (s : State) (w : Window) (bs : List Byte) : (winWrite s w bs).b58 = s.b58 := rfl
@[simp] theorem winWrite_mem (s : State) (w : Window) (bs : List Byte) :
    (winWrite s w bs).mem = memWriteBytes s.mem (winBase w) bs := rfl
@[simp] theorem winWrite_host (s : State) (w : Window) (bs : List Byte) : (winWrite s w bs).host = s.host := rfl
@[simp] theorem winWrite_schedule (s : State) (w : Window) (bs : List Byte) :
    (winWrite s w bs).schedule = s.schedule := rfl
@[simp] theorem winWrite_tick (s : State) (w : Window) (bs : List Byte) : (winWrite s w bs).tick = s.tick := rfl

/-! ### The end of a command -/

theorem finish_b2 (s : State) (e : ResultCode) :
    finish s .b2 e = { s with b2 := { s.b2 with err := e, latch := { s.b2.latch with pending := false } } } := rfl
theorem finish_b58 (s : State) (e : ResultCode) :
    finish s .b58 e = { s with b58 := { s.b58 with err := e, latch := { s.b58.latch with pending := false } } } := rfl
@[simp] theorem finish_cfg (s : State) (u : DevUnit) (e : ResultCode) : (finish s u e).cfg = s.cfg := by cases u <;> rfl
@[simp] theorem finish_mem (s : State) (u : DevUnit) (e : ResultCode) : (finish s u e).mem = s.mem := by cases u <;> rfl
@[simp] theorem finish_host (s : State) (u : DevUnit) (e : ResultCode) : (finish s u e).host = s.host := by
  cases u <;> rfl
@[simp] theorem finish_schedule (s : State) (u : DevUnit) (e : ResultCode) : (finish s u e).schedule = s.schedule := by
  cases u <;> rfl
@[simp] theorem finish_tick (s : State) (u : DevUnit) (e : ResultCode) : (finish s u e).tick = s.tick := by
  cases u <;> rfl
@[simp] theorem finish_errOf (s : State) (u : DevUnit) (e : ResultCode) : errOf (finish s u e) u = e := by
  cases u <;> rfl
@[simp] theorem finish_pending (s : State) (u : DevUnit) (e : ResultCode) :
    (latchOf (finish s u e) u).pending = false := by cases u <;> rfl
@[simp] theorem finish_b2_b58 (s : State) (e : ResultCode) : (finish s .b2 e).b58 = s.b58 := rfl
@[simp] theorem finish_b58_b2 (s : State) (e : ResultCode) : (finish s .b58 e).b2 = s.b2 := rfl

/-! ### The latch and the registers -/

@[simp] theorem setLatch_cfg (s : State) (u : DevUnit) (l : Latch) : (setLatch s u l).cfg = s.cfg := by cases u <;> rfl
@[simp] theorem setLatch_mem (s : State) (u : DevUnit) (l : Latch) : (setLatch s u l).mem = s.mem := by cases u <;> rfl
@[simp] theorem setLatch_host (s : State) (u : DevUnit) (l : Latch) : (setLatch s u l).host = s.host := by
  cases u <;> rfl
@[simp] theorem setLatch_schedule (s : State) (u : DevUnit) (l : Latch) : (setLatch s u l).schedule = s.schedule := by
  cases u <;> rfl
@[simp] theorem setLatch_tick (s : State) (u : DevUnit) (l : Latch) : (setLatch s u l).tick = s.tick := by
  cases u <;> rfl
@[simp] theorem latchOf_setLatch (s : State) (u : DevUnit) (l : Latch) : latchOf (setLatch s u l) u = l := by
  cases u <;> rfl
theorem latchOf_setLatch_ne (s : State) {u v : DevUnit} (l : Latch) (h : u ≠ v) :
    latchOf (setLatch s u l) v = latchOf s v := by cases u <;> cases v <;> first | rfl | exact absurd rfl h
@[simp] theorem errOf_setLatch (s : State) (u v : DevUnit) (l : Latch) : errOf (setLatch s u l) v = errOf s v := by
  cases u <;> cases v <;> rfl
@[simp] theorem param0Of_setLatch (s : State) (u v : DevUnit) (l : Latch) :
    param0Of (setLatch s u l) v = param0Of s v := by cases u <;> cases v <;> rfl
@[simp] theorem param1Of_setLatch (s : State) (u v : DevUnit) (l : Latch) :
    param1Of (setLatch s u l) v = param1Of s v := by cases u <;> cases v <;> rfl

@[simp] theorem setParam0_cfg (s : State) (u : DevUnit) (v : Word32) : (setParam0 s u v).cfg = s.cfg := by
  cases u <;> rfl
@[simp] theorem setParam0_mem (s : State) (u : DevUnit) (v : Word32) : (setParam0 s u v).mem = s.mem := by
  cases u <;> rfl
@[simp] theorem setParam0_host (s : State) (u : DevUnit) (v : Word32) : (setParam0 s u v).host = s.host := by
  cases u <;> rfl
@[simp] theorem latchOf_setParam0 (s : State) (u w : DevUnit) (v : Word32) :
    latchOf (setParam0 s u v) w = latchOf s w := by cases u <;> cases w <;> rfl
@[simp] theorem errOf_setParam0 (s : State) (u w : DevUnit) (v : Word32) : errOf (setParam0 s u v) w = errOf s w := by
  cases u <;> cases w <;> rfl
@[simp] theorem param0Of_setParam0 (s : State) (u : DevUnit) (v : Word32) : param0Of (setParam0 s u v) u = v := by
  cases u <;> rfl
@[simp] theorem param1Of_setParam0 (s : State) (u w : DevUnit) (v : Word32) :
    param1Of (setParam0 s u v) w = param1Of s w := by cases u <;> cases w <;> rfl

@[simp] theorem setParam1_cfg (s : State) (u : DevUnit) (v : Word32) : (setParam1 s u v).cfg = s.cfg := by
  cases u <;> rfl
@[simp] theorem setParam1_mem (s : State) (u : DevUnit) (v : Word32) : (setParam1 s u v).mem = s.mem := by
  cases u <;> rfl
@[simp] theorem setParam1_host (s : State) (u : DevUnit) (v : Word32) : (setParam1 s u v).host = s.host := by
  cases u <;> rfl
@[simp] theorem latchOf_setParam1 (s : State) (u w : DevUnit) (v : Word32) :
    latchOf (setParam1 s u v) w = latchOf s w := by cases u <;> cases w <;> rfl
@[simp] theorem errOf_setParam1 (s : State) (u w : DevUnit) (v : Word32) : errOf (setParam1 s u v) w = errOf s w := by
  cases u <;> cases w <;> rfl
@[simp] theorem param0Of_setParam1 (s : State) (u w : DevUnit) (v : Word32) :
    param0Of (setParam1 s u v) w = param0Of s w := by cases u <;> cases w <;> rfl
@[simp] theorem param1Of_setParam1 (s : State) (u : DevUnit) (v : Word32) : param1Of (setParam1 s u v) u = v := by
  cases u <;> rfl

/-! ### The host and the turn -/

@[simp] theorem hostStop_b2 (s : State) (st : HostStatus) : (hostStop s st).b2 = s.b2 := rfl
@[simp] theorem hostStop_b58 (s : State) (st : HostStatus) : (hostStop s st).b58 = s.b58 := rfl
@[simp] theorem hostStop_mem (s : State) (st : HostStatus) : (hostStop s st).mem = s.mem := rfl
@[simp] theorem hostStop_cfg (s : State) (st : HostStatus) : (hostStop s st).cfg = s.cfg := rfl
@[simp] theorem hostAdvance_b2 (s : State) : (hostAdvance s).b2 = s.b2 := rfl
@[simp] theorem hostAdvance_b58 (s : State) : (hostAdvance s).b58 = s.b58 := rfl
@[simp] theorem hostAdvance_mem (s : State) : (hostAdvance s).mem = s.mem := rfl
@[simp] theorem hostAdvance_cfg (s : State) : (hostAdvance s).cfg = s.cfg := rfl
@[simp] theorem hostAssign_b2 (s : State) (x : HostVar) (v : Nat) : (hostAssign s x v).b2 = s.b2 := rfl
@[simp] theorem hostAssign_b58 (s : State) (x : HostVar) (v : Nat) : (hostAssign s x v).b58 = s.b58 := rfl
@[simp] theorem hostAssign_mem (s : State) (x : HostVar) (v : Nat) : (hostAssign s x v).mem = s.mem := rfl
@[simp] theorem hostAssign_cfg (s : State) (x : HostVar) (v : Nat) : (hostAssign s x v).cfg = s.cfg := rfl
@[simp] theorem takeTurn_b2 (s : State) : (takeTurn s).b2 = s.b2 := rfl
@[simp] theorem takeTurn_b58 (s : State) : (takeTurn s).b58 = s.b58 := rfl
@[simp] theorem takeTurn_mem (s : State) : (takeTurn s).mem = s.mem := rfl
@[simp] theorem takeTurn_cfg (s : State) : (takeTurn s).cfg = s.cfg := rfl
@[simp] theorem takeTurn_host (s : State) : (takeTurn s).host = s.host := rfl

end Sys2Proof.Machine
end

