-- ==== Sys2Proof/Laws/Blake2b.lean ====
section
/-! SUPPORT. What the helpers of the B2 unit do: the absorbing loop, the padding, the digest window; and what each B2 command can
do, once. -/

namespace Sys2Proof.Machine

/-! ### Absorbing -/

theorem compressFull_full {x : B2Unit} (h : x.c = 128) :
    compressFull x = { x with
      t := add128 x.t 128, h := compress x.h x.buf (add128 x.t 128) false, buf := Vector.replicate 128 0, c := 0 } := by
  simp [compressFull, h]

theorem compressFull_room {x : B2Unit} (h : x.c ≠ 128) : compressFull x = x := by simp [compressFull, h]

/-- After its first half a turn of the loop has room for a byte. -/
theorem compressFull_room_left (x : B2Unit) : (compressFull x).c.val < 128 := by
  by_cases h : x.c = 128
  · rw [compressFull_full h]; exact (by decide : ((0 : Fin 129).val < 128))
  · rw [compressFull_room h]
    have h1 := x.c.isLt
    have h2 : x.c.val ≠ 128 := fun h0 => h (Fin.ext h0)
    omega

theorem fin129_succ {c : Fin 129} (h : c.val < 128) : (c + 1).val = c.val + 1 := by
  rw [Fin.val_add_one_of_lt (by rw [Fin.lt_def]; exact h)]

@[simp] theorem absorb_nil (x : B2Unit) : absorb x [] = x := rfl
theorem absorb_cons (x : B2Unit) (b : Byte) (bs : List Byte) : absorb x (b :: bs) = absorb (absorbByte x b) bs := rfl
theorem absorb_append (x : B2Unit) (as bs : List Byte) : absorb x (as ++ bs) = absorb (absorb x as) bs := by
  simp [absorb, List.foldl_append]

/-- Absorbing writes only h, t, buf and c (41_blake2b.md R177). -/
theorem absorbByte_frame (x : B2Unit) (b : Byte) :
    absorbByte x b = { x with
      h := (absorbByte x b).h, t := (absorbByte x b).t, buf := (absorbByte x b).buf, c := (absorbByte x b).c } := by
  by_cases h : x.c = 128
  · simp only [absorbByte, compressFull_full h]
  · simp only [absorbByte, compressFull_room h]

theorem absorb_frame (x : B2Unit) (bs : List Byte) :
    absorb x bs = { x with
      h := (absorb x bs).h, t := (absorb x bs).t, buf := (absorb x bs).buf, c := (absorb x bs).c } := by
  induction bs generalizing x with
  | nil => rfl
  | cons b bs ih =>
    rw [absorb_cons, ih (absorbByte x b)]
    rw [absorbByte_frame x b]

@[simp] theorem absorb_phase (x : B2Unit) (bs : List Byte) : (absorb x bs).phase = x.phase := by rw [absorb_frame]
@[simp] theorem absorb_outlen (x : B2Unit) (bs : List Byte) : (absorb x bs).outlen = x.outlen := by rw [absorb_frame]
@[simp] theorem absorb_latch (x : B2Unit) (bs : List Byte) : (absorb x bs).latch = x.latch := by rw [absorb_frame]
@[simp] theorem absorb_err (x : B2Unit) (bs : List Byte) : (absorb x bs).err = x.err := by rw [absorb_frame]
@[simp] theorem absorb_param0 (x : B2Unit) (bs : List Byte) : (absorb x bs).param0 = x.param0 := by rw [absorb_frame]
@[simp] theorem absorb_param1 (x : B2Unit) (bs : List Byte) : (absorb x bs).param1 = x.param1 := by rw [absorb_frame]

/-- Bytes that fit are stored one after another, and nothing is compressed. -/
theorem absorb_fits (x : B2Unit) (bs : List Byte) (h : x.c.val + bs.length ≤ 128) :
    (absorb x bs).h = x.h ∧ (absorb x bs).t = x.t ∧ (absorb x bs).c.val = x.c.val + bs.length ∧
      ∀ k (hk : k < 128), (absorb x bs).buf[k] =
        if x.c.val ≤ k ∧ k < x.c.val + bs.length then bs.getD (k - x.c.val) 0 else x.buf[k] := by
  induction bs generalizing x with
  | nil => exact ⟨rfl, rfl, rfl, fun k hk => by rw [if_neg (by simp)]; rfl⟩
  | cons b bs ih =>
    simp only [List.length_cons] at h
    have hne : x.c ≠ 128 := fun h0 => by
      have := congrArg Fin.val h0
      simp at this
      omega
    have hb : absorbByte x b = { x with buf := x.buf.setIfInBounds x.c b, c := x.c + 1 } := by
      simp only [absorbByte, compressFull_room hne]
    have hc : (absorbByte x b).c.val = x.c.val + 1 := by rw [hb]; exact fin129_succ (by omega)
    obtain ⟨h1, h2, h3, h4⟩ := ih (absorbByte x b) (by omega)
    rw [absorb_cons]
    refine ⟨by rw [h1, hb], by rw [h2, hb], by rw [h3, hc]; simp; omega, fun k hk => ?_⟩
    rw [h4 k hk, hc, hb]
    simp only [Vector.getElem_setIfInBounds, List.length_cons]
    by_cases h5 : x.c.val = k
    · rw [if_neg (by omega), if_pos h5, if_pos (by omega), h5]
      simp
    · by_cases h6 : x.c.val + 1 ≤ k ∧ k < x.c.val + 1 + bs.length
      · rw [if_pos h6, if_pos (by omega), show k - x.c.val = (k - (x.c.val + 1)) + 1 by omega]
        simp
      · rw [if_neg h6, if_neg h5, if_neg (by omega)]

/-- Absorbing keeps the buffer 0 from the fill index on (41_blake2b.md R177). -/
theorem absorb_tailZero : ∀ (bs : List Byte) (x : B2Unit), (∀ k (hk : k < 128), x.c.val ≤ k → x.buf[k] = 0) → 
    (∀ k (hk : k < 128), (absorb x bs).c.val ≤ k → (absorb x bs).buf[k] = 0) := by
  intro bs
  induction bs with
  | nil => intro x h; exact h
  | cons b bs ih =>
    intro x h
    rw [absorb_cons]
    apply ih
    have hr := compressFull_room_left x
    have hz : ∀ k (hk : k < 128), (compressFull x).c.val ≤ k → (compressFull x).buf[k] = 0 := by
      by_cases hx : x.c = 128
      · rw [compressFull_full hx]; intro k hk _; simp
      · rw [compressFull_room hx]; exact h
    intro k hk hle
    have hc : (absorbByte x b).c.val = (compressFull x).c.val + 1 := fin129_succ hr
    rw [hc] at hle
    show ((compressFull x).buf.setIfInBounds (compressFull x).c b)[k] = 0
    rw [Vector.getElem_setIfInBounds, if_neg (by omega)]
    exact hz k hk (by omega)

/-- Absorbing keeps the counter a whole number of blocks (41_blake2b.md R183). -/
theorem absorb_wholeBlocks : ∀ (bs : List Byte) (x : B2Unit), x.t.toNat % 128 = 0 → (absorb x bs).t.toNat % 128 = 0 := by
  intro bs
  induction bs with
  | nil => intro x h; exact h
  | cons b bs ih =>
    intro x h
    rw [absorb_cons]
    apply ih
    show (compressFull x).t.toNat % 128 = 0
    by_cases hx : x.c = 128
    · rw [compressFull_full hx]; simp [add128, BitVec.toNat_add]; omega
    · rw [compressFull_room hx]; exact h

/-! ### What the B2 commands do -/

theorem param0Of_b2 (s : State) : param0Of s .b2 = s.b2.param0 := rfl
theorem param1Of_b2 (s : State) : param1Of s .b2 = s.b2.param1 := rfl

@[simp] theorem zeroBytes_length (n : Nat) : (zeroBytes n).length = n := List.length_replicate
theorem zeroBytes_getElem (n k : Nat) (hk : k < (zeroBytes n).length) : (zeroBytes n)[k] = 0 :=
  List.getElem_replicate ..

/-- The two outcomes of B2.INIT (41_blake2b.md R179): either way the memory m is the old one with DOUT zero. -/
theorem execB2Init_cases (s : State) : ∃ m,
    (∀ a, ¬ (0x180 ≤ a ∧ a < 0x1C0) → memRead m a = memRead s.mem a) ∧
    (Memory.wf s.mem = true → Memory.wf m = true) ∧
    (Memory.wf s.mem = true → ∀ k < 64, memRead m (0x180 + k) = 0) ∧
    (∀ cell ∈ m, (0x180 ≤ cell.1 ∧ cell.1 < 0x1C0) ∨ cell ∈ s.mem) ∧
    ((initInvalid (initDigestLen s) (initKeyLen s) = true ∧
      execB2Init s = .next (finish { s with mem := m, b2 := zeroContext s.b2 .inert } .b2 .invalidParameters)) ∨
    (initInvalid (initDigestLen s) (initKeyLen s) = false ∧
      execB2Init s = .next (finish { s with
        mem := m
        b2 := { absorbKey (freshContext s.b2 (initDigestLen s) (initKeyLen s)) (initKey s) with phase := .active } }
        .b2 .ok))) := by
  have hl := zeroBytes_length 64
  obtain ⟨m, h1, h2, h3, h4, h5⟩ := winWrite_spec s .dout (zeroBytes 64)
  rw [hl] at h2 h5
  refine ⟨m, h2, h3, fun hm k hk => (h4 hm k (by rw [hl]; exact hk)).trans (zeroBytes_getElem _ _ _), h5, ?_⟩
  unfold execB2Init
  rw [h1]
  cases h : initInvalid (initDigestLen s) (initKeyLen s)
  · exact .inr ⟨rfl, by simp [h]⟩
  · exact .inl ⟨rfl, by simp [h]⟩

/-- The three outcomes of B2.UPDATE (41_blake2b.md R180). -/
theorem execB2Update_cases (s : State) :
    (s.b2.phase ≠ .active ∧ execB2Update s = .next (finish s .b2 .sequenceError)) ∨
    (s.b2.phase = .active ∧ 128 < updateLen s ∧ execB2Update s = .next (finish s .b2 .capacityExceeded)) ∨
    (s.b2.phase = .active ∧ updateLen s ≤ 128 ∧
      execB2Update s = .next (finish { s with b2 := absorb s.b2 (updateBytes s) } .b2 .ok)) := by
  unfold execB2Update
  by_cases h : s.b2.phase = .active
  · by_cases h2 : 128 < updateLen s
    · exact .inr (.inl ⟨h, h2, by simp [h, h2]⟩)
    · exact .inr (.inr ⟨h, by omega, by simp [h, h2]⟩)
  · exact .inl ⟨h, by simp [h]⟩

@[simp] theorem digestWindow_length (h : Vector Word64 8) (n : Nat) : (digestWindow h n).length = 64 := by
  simp [digestWindow]

theorem digestWindow_getElem (h : Vector Word64 8) (n k : Nat) (hk : k < (digestWindow h n).length) :
    (digestWindow h n)[k] = if k < n then digestByte h k else 0 := by
  simp [digestWindow]

/-- The two outcomes of B2.FINAL (41_blake2b.md R181): a successful one changes the memory in DOUT only, to the digest window
of the last hash state. -/
theorem execB2Final_cases (s : State) :
    (s.b2.phase ≠ .active ∧ execB2Final s = .next (finish s .b2 .sequenceError)) ∨
    (s.b2.phase = .active ∧ ∃ m,
      (∀ a, ¬ (0x180 ≤ a ∧ a < 0x1C0) → memRead m a = memRead s.mem a) ∧
      (Memory.wf s.mem = true → Memory.wf m = true) ∧
      (Memory.wf s.mem = true → ∀ k < 64, memRead m (0x180 + k) =
        if k < s.b2.outlen.val then digestByte (finalContext s.b2).h k else 0) ∧
      (∀ cell ∈ m, (0x180 ≤ cell.1 ∧ cell.1 < 0x1C0) ∨ cell ∈ s.mem) ∧
      execB2Final s = .next (finish { s with mem := m, b2 := finalContext s.b2 } .b2 .ok)) := by
  by_cases h : s.b2.phase = .active
  · refine .inr ⟨h, ?_⟩
    have hl := digestWindow_length (finalContext s.b2).h (finalContext s.b2).outlen
    obtain ⟨m, h1, h2, h3, h4, h5⟩ := winWrite_spec { s with b2 := finalContext s.b2 } .dout
      (digestWindow (finalContext s.b2).h (finalContext s.b2).outlen)
    rw [hl] at h2 h5
    refine ⟨m, h2, h3, fun hm k hk => ?_, h5, ?_⟩
    · exact (h4 hm k (by rw [hl]; exact hk)).trans (digestWindow_getElem _ _ _ _)
    · unfold execB2Final
      rw [if_neg (by simp [h])]
      simp only [h1]
  · refine .inl ⟨h, ?_⟩
    unfold execB2Final
    rw [if_pos h]

theorem padFrom_getElem (c : Nat) (b : Vector Byte 128) (k : Nat) (hk : k < 128) :
    (padFrom c b)[k] = if k < c then b[k] else 0 := by
  simp [padFrom]

@[simp] theorem initKey_length (s : State) : (initKey s).length = initKeyLen s := by simp [initKey, winBytes]
@[simp] theorem updateBytes_length (s : State) : (updateBytes s).length = updateLen s := by simp [updateBytes, winBytes]

theorem initKey_getElem (s : State) (k : Nat) (h : k < (initKey s).length) : (initKey s)[k] = winRead s .din k := by
  simp [initKey, winBytes, winRead]

theorem updateBytes_getElem (s : State) (k : Nat) (h : k < (updateBytes s).length) :
    (updateBytes s)[k] = winRead s .din k := by
  simp [updateBytes, winBytes, winRead]

/-! ### What the functions of the compression do -/

/-- `rotr64` is the rotation to the right (00_scope.md R9). -/
theorem rotr64_eq_rotateRight (x : Word64) {n : Nat} (h : n < 64) : rotr64 x n = x.rotateRight n := by
  rw [rotr64, BitVec.rotateRight_def, Nat.mod_eq_of_lt h]

/-- The number eight bytes make, byte 0 the least significant, and how one byte is read back from it. -/
theorem extractLsb'_of_bytes (c : Nat → Byte) (x : Word64)
    (h : x.toNat = (c 0).toNat + 2 ^ 8 * (c 1).toNat + 2 ^ 16 * (c 2).toNat + 2 ^ 24 * (c 3).toNat + 2 ^ 32 * (c 4).toNat +
      2 ^ 40 * (c 5).toNat + 2 ^ 48 * (c 6).toNat + 2 ^ 56 * (c 7).toNat) (j : Nat) (hj : j < 8) :
    x.extractLsb' (8 * j) 8 = c j := by
  apply BitVec.eq_of_toNat_eq
  have hlt : ∀ i, (c i).toNat < 256 := fun i => (c i).isLt
  have := hlt 0; have := hlt 1; have := hlt 2; have := hlt 3
  have := hlt 4; have := hlt 5; have := hlt 6; have := hlt 7
  rw [BitVec.extractLsb'_toNat, Nat.shiftRight_eq_div_pow, h]
  clear h hlt
  interval_cases j <;> norm_num <;> omega

/-- Byte j of `load64le(B, k)` is byte k+j of the block (00_scope.md R10). -/
theorem load64le_byte (b : Vector Byte 128) (k j : Nat) (hj : j < 8) :
    (load64le b k).extractLsb' (8 * j) 8 = b.getD (k + j) 0 := by
  have e : ∀ c : Nat → Byte, ((List.range 8).foldl (fun acc i => acc + ((c i).setWidth 64 <<< (8 * i))) (0 : Word64)).toNat =
      (c 0).toNat + 2 ^ 8 * (c 1).toNat + 2 ^ 16 * (c 2).toNat + 2 ^ 24 * (c 3).toNat +
      2 ^ 32 * (c 4).toNat + 2 ^ 40 * (c 5).toNat + 2 ^ 48 * (c 6).toNat + 2 ^ 56 * (c 7).toNat := by
    intro c
    have hlt : ∀ i, (c i).toNat < 256 := fun i => (c i).isLt
    have := hlt 0; have := hlt 1; have := hlt 2; have := hlt 3
    have := hlt 4; have := hlt 5; have := hlt 6; have := hlt 7
    rw [show List.range 8 = [0, 1, 2, 3, 4, 5, 6, 7] from rfl, show (0 : Word64) = 0#64 from rfl]
    simp only [List.foldl, BitVec.toNat_add, BitVec.toNat_shiftLeft, BitVec.toNat_setWidth, Nat.shiftLeft_eq,
      BitVec.toNat_ofNat]
    clear hlt
    norm_num
    omega
  refine extractLsb'_of_bytes (fun i => b.getD (k + i) 0) _ ?_ j hj
  rw [load64le]
  exact e fun i => b.getD (k + i) 0

/-- The first eight words of the work vector before the counter and the flag: the state (41_blake2b.md R175). -/
theorem stateThenIV_low (h : Vector Word64 8) (i : Nat) (hi : i < 8) : (h ++ blakeIV : Words16)[i] = h[i] :=
  Vector.getElem_append_left hi

/-- The last eight words of it: the IV (41_blake2b.md R175). -/
theorem stateThenIV_high (h : Vector Word64 8) (i : Nat) (hi : i < 8) : (h ++ blakeIV : Words16)[8 + i] = blakeIV[i] := by
  rw [Vector.getElem_append_right (by omega) (by omega)]
  simp

end Sys2Proof.Machine
end

