-- ==== Sys2Proof/Laws/Bus.lean ====
section
/-! SUPPORT. What a bus access, a host step and a completion can do, each said once. -/

namespace Sys2Proof.Machine

/-! ### The address map -/

theorem regAt_reg {u v : DevUnit} {r : Reg} {d : Nat} (hd : d < 0x10) (h : regAt u d = .reg v r) :
    v = u ∧ regOffset u r ≤ cmdOffset u + d ∧ cmdOffset u + d < regOffset u r + 4 := by
  unfold regAt at h
  split_ifs at h <;> cases h <;> simp only [regOffset] <;> exact ⟨trivial, by omega, by omega⟩

theorem regAt_ne_window (u : DevUnit) (d : Nat) (w : Window) (k : Nat) : regAt u d ≠ .window w k := by
  unfold regAt; split_ifs <;> exact Location.noConfusion

theorem regAt_ne_reserved (u : DevUnit) (d : Nat) : regAt u d ≠ .reserved := by
  unfold regAt; split_ifs <;> exact Location.noConfusion

/-- A register location lies in its unit's block, at one of the register's 4 bytes (20_memory.md R61, R62). -/
theorem locate_reg {cfg : Config} {a : Nat} {u : DevUnit} {r : Reg} (h : locate cfg a = .reg u r) :
    blockOf a = u ∧ regOffset u r ≤ a ∧ a < regOffset u r + 4 := by
  unfold locate at h
  have hb : (∃ d v, a = cmdOffset v + d ∧ d < 0x10 ∧ regAt v d = .reg u r) := by
    by_cases c0 : a < 0x010
    · rw [if_pos c0] at h; exact ⟨a, .b2, by simp [cmdOffset], c0, h⟩
    rw [if_neg c0] at h
    by_cases c1 : a < 0x100
    · rw [if_pos c1] at h; cases h
    rw [if_neg c1] at h
    by_cases c2 : a < 0x180
    · rw [if_pos c2] at h; cases h
    rw [if_neg c2] at h
    by_cases c3 : a < 0x1C0
    · rw [if_pos c3] at h; cases h
    rw [if_neg c3] at h
    by_cases c4 : a < 0x200
    · rw [if_pos c4] at h; cases h
    rw [if_neg c4] at h
    by_cases c5 : a < 0x210
    · rw [if_pos c5] at h; exact ⟨a - 0x200, .b58, by simp only [cmdOffset]; omega, by omega, h⟩
    rw [if_neg c5] at h
    by_cases c6 : a < 0x400
    · rw [if_pos c6] at h; cases h
    rw [if_neg c6] at h
    by_cases c7 : a < 0x800
    · rw [if_pos c7] at h
      by_cases d7 : a < 0x400 + cfg.maxLen
      · rw [if_pos d7] at h; cases h
      · rw [if_neg d7] at h; cases h
    rw [if_neg c7] at h
    by_cases c8 : a < 0x1000
    · rw [if_pos c8] at h
      by_cases d8 : a < 0x800 + cfg.txtSize
      · rw [if_pos d8] at h; cases h
      · rw [if_neg d8] at h; cases h
    rw [if_neg c8] at h
    cases h
  obtain ⟨d, v, rfl, hd, hr⟩ := hb
  obtain ⟨rfl, h1, h2⟩ := regAt_reg hd hr
  refine ⟨?_, h1, h2⟩
  cases u
  · exact if_pos (show cmdOffset .b2 + d < 0x200 by simp only [cmdOffset]; omega)
  · exact if_neg (show ¬ cmdOffset .b58 + d < 0x200 by simp only [cmdOffset]; omega)

/-- A window location is its window's base plus an index below the window's size (20_memory.md R61). -/
theorem locate_window {cfg : Config} {a : Nat} {w : Window} {k : Nat} (h : locate cfg a = .window w k) :
    a = winBase w + k ∧ k < winSize cfg w ∧ blockOf a = blockOf (winBase w) ∧ a < 0x1000 := by
  unfold locate at h
  by_cases c0 : a < 0x010
  · rw [if_pos c0] at h; exact absurd h (regAt_ne_window _ _ _ _)
  rw [if_neg c0] at h
  by_cases c1 : a < 0x100
  · rw [if_pos c1] at h; cases h
  rw [if_neg c1] at h
  by_cases c2 : a < 0x180
  · rw [if_pos c2] at h; cases h; exact ⟨by simp only [winBase]; omega, by simp only [winSize]; omega, if_pos (by omega), by omega⟩
  rw [if_neg c2] at h
  by_cases c3 : a < 0x1C0
  · rw [if_pos c3] at h; cases h; exact ⟨by simp only [winBase]; omega, by simp only [winSize]; omega, if_pos (by omega), by omega⟩
  rw [if_neg c3] at h
  by_cases c4 : a < 0x200
  · rw [if_pos c4] at h; cases h
  rw [if_neg c4] at h
  by_cases c5 : a < 0x210
  · rw [if_pos c5] at h; exact absurd h (regAt_ne_window _ _ _ _)
  rw [if_neg c5] at h
  by_cases c6 : a < 0x400
  · rw [if_pos c6] at h; cases h
  rw [if_neg c6] at h
  by_cases c7 : a < 0x800
  · rw [if_pos c7] at h
    by_cases d7 : a < 0x400 + cfg.maxLen
    · rw [if_pos d7] at h; cases h; exact ⟨by simp only [winBase]; omega, by simp only [winSize]; omega, if_neg (by omega), by omega⟩
    · rw [if_neg d7] at h; cases h
  rw [if_neg c7] at h
  by_cases c8 : a < 0x1000
  · rw [if_pos c8] at h
    by_cases d8 : a < 0x800 + cfg.txtSize
    · rw [if_pos d8] at h; cases h; exact ⟨by simp only [winBase]; omega, by simp only [winSize]; omega, if_neg (by omega), by omega⟩
    · rw [if_neg d8] at h; cases h
  rw [if_neg c8] at h
  cases h

/-- Where N is in its range, every index of a window is mapped to it (00_scope.md R5, 20_memory.md R61). -/
theorem locate_of_window {cfg : Config} {w : Window} {k : Nat} (hc : cfg.wf = true) (hk : k < winSize cfg w) :
    locate cfg (winBase w + k) = .window w k := by
  simp only [Config.wf, Bool.and_eq_true, decide_eq_true_eq] at hc
  have e : ∀ b, b + k - b = k := fun b => Nat.add_sub_cancel_left b k
  cases w <;> simp only [winBase, winSize] at hk ⊢ <;> unfold locate <;>
    simp (disch := omega) only [if_pos, if_neg, e]

/-- A canonical memory lists bytes of windows only when every offset outside the windows reads as 0. -/
theorem memMapped_iff {cfg : Config} {m : Memory} (hm : Memory.wf m = true) :
    (∀ cell ∈ m, inWindow cfg cell.1 = true) ↔ ∀ a, inWindow cfg a = false → memRead m a = 0 := by
  constructor
  · intro h a ha
    by_contra hne
    obtain ⟨c, hc, rfl⟩ := exists_mem_of_memRead hne
    rw [h c hc] at ha
    cases ha
  · intro h c hc
    by_contra hne
    have h1 := memRead_of_mem hm hc
    exact h1.2 (h1.1.symm.trans (h c.1 (by simpa using hne)))

theorem locate_regOffset (cfg : Config) (u : DevUnit) (r : Reg) (i : Nat) (hi : i < 4) :
    locate cfg (regOffset u r + i) = .reg u r := by
  have h4 : i = 0 ∨ i = 1 ∨ i = 2 ∨ i = 3 := by omega
  rcases h4 with rfl | rfl | rfl | rfl <;> cases u <;> cases r <;> rfl

theorem blockOf_regOffset (u : DevUnit) (r : Reg) : blockOf (regOffset u r) = u := by cases u <;> cases r <;> rfl

/-- Two window locations are apart by their windows. -/
theorem winBase_block (w : Window) : blockOf (winBase w) = .b2 ↔ w = .din ∨ w = .dout := by
  cases w <;> simp [blockOf, winBase]

theorem sizeBytes_pos (size : AccessSize) : 0 < sizeBytes size := by cases size <;> decide

/-! ### Accesses -/

/-- What the checks of 20_memory.md R69 leave of an access. -/
theorem busCheck_none {s : State} {kind : AccessKind} {a n : Nat} (h : busCheck s kind a n = none) :
    coversReserved s.cfg a n = false ∧ sizeAlignOk s.cfg a n = true ∧
    ((latchOf s (blockOf a)).pending = false ∨ isStatusRead (blockOf a) kind a n = true) ∧
    (kind = .write → isReadOnly (locate s.cfg a) = false) := by
  unfold busCheck at h
  split_ifs at h with h1 h2 h3 h4
  refine ⟨by simpa using h1, by simpa using h2, ?_, ?_⟩
  · cases hp : (latchOf s (blockOf a)).pending
    · exact .inl rfl
    · exact .inr (by simpa [hp] using h3)
  · rintro rfl; simpa using h4

/-- The checks on a register of an idle unit, accessed whole: only a write of STATUS fails (20_memory.md R65, R67, R69). -/
theorem busCheck_reg (s : State) (u : DevUnit) (r : Reg) (kind : AccessKind) (hp : (latchOf s u).pending = false) :
    busCheck s kind (regOffset u r) 4 = if kind = .write ∧ r = .status then some .readOnly else none := by
  have hl := locate_regOffset s.cfg u r
  have h0 := hl 0 (by omega)
  rw [Nat.add_zero] at h0
  have hcov : coversReserved s.cfg (regOffset u r) 4 = false := by
    simp only [coversReserved, List.any_eq_false, List.mem_range]
    intro i hi
    rw [hl i hi]
    simp
  simp only [busCheck, hcov, sizeAlignOk, h0, blockOf_regOffset, hp]
  cases kind <;> cases r <;> simp [isReadOnly]

/-- The checks on an aligned access inside one window of an idle unit: only a write of DOUT fails (20_memory.md R66, R67,
R69). -/
theorem busCheck_window (s : State) (w : Window) (k : Nat) (size : AccessSize) (kind : AccessKind) (hc : s.cfg.wf = true)
    (hp : (latchOf s (blockOf (winBase w))).pending = false) (ha : (winBase w + k) % sizeBytes size = 0)
    (hk : k + sizeBytes size ≤ winSize s.cfg w) :
    busCheck s kind (winBase w + k) (sizeBytes size) = if kind = .write ∧ w = .dout then some .readOnly else none := by
  have hs := sizeBytes_pos size
  have h0 : locate s.cfg (winBase w + k) = .window w k := locate_of_window hc (by omega)
  have hcov : coversReserved s.cfg (winBase w + k) (sizeBytes size) = false := by
    simp only [coversReserved, List.any_eq_false, List.mem_range]
    intro i hi
    rw [Nat.add_assoc, locate_of_window hc (by omega)]
    simp
  have hb := (locate_window h0).2.2.1
  simp only [busCheck, hcov, sizeAlignOk, h0, ha, hk, hb, hp]
  cases kind <;> cases w <;> simp [isReadOnly]

/-- What a performed write does: it is a write of an idle unit, of a whole register that is not STATUS, or of bytes of one
window that is not DOUT (20_memory.md R65 to R72). -/
theorem busWrite_ok {s t : State} {a v : Nat} {size : AccessSize} (h : busWrite s a size v = .ok t) :
    (latchOf s (blockOf a)).pending = false ∧
    ((∃ u r, locate s.cfg a = .reg u r ∧ u = blockOf a ∧ r ≠ .status ∧ size = .word ∧ a = regOffset u r ∧
        t = writeReg s u (BitVec.ofNat 32 v) r) ∨
     (∃ w k, locate s.cfg a = .window w k ∧ w ≠ .dout ∧ a % sizeBytes size = 0 ∧
        k + sizeBytes size ≤ winSize s.cfg w ∧
        t = { s with mem := memWriteBytes s.mem a (leBytes (sizeBytes size) v) })) := by
  unfold busWrite at h
  split at h
  · cases h
  rename_i hc
  obtain ⟨h1, h2, h3, h4⟩ := busCheck_none hc
  have h4 := h4 rfl
  have hp : (latchOf s (blockOf a)).pending = false := by
    rcases h3 with h3 | h3
    · exact h3
    · simp [isStatusRead] at h3
  refine ⟨hp, ?_⟩
  unfold sizeAlignOk at h2
  cases hl : locate s.cfg a with
  | reg u r =>
    simp only [hl, Bool.and_eq_true, beq_iff_eq] at h h2 h4
    cases h
    refine .inl ⟨u, r, rfl, (locate_reg hl).1.symm, ?_, ?_, h2.2, rfl⟩
    · rintro rfl; simp [isReadOnly] at h4
    · cases size <;> simp [sizeBytes] at h2 ⊢
  | window w k =>
    simp only [hl, Bool.and_eq_true, beq_iff_eq, decide_eq_true_eq] at h h2 h4
    cases h
    refine .inr ⟨w, k, rfl, ?_, h2.1, h2.2, rfl⟩
    rintro rfl; simp [isReadOnly] at h4
  | reserved => simp [hl] at h2

/-- What a performed read answers: a whole register, or bytes of one window; the unit is idle, or the register is its STATUS
(20_memory.md R65 to R71). -/
theorem busRead_ok {s : State} {a v : Nat} {size : AccessSize} (h : busRead s a size = .ok v) :
    ((latchOf s (blockOf a)).pending = false ∨ (size = .word ∧ a = regOffset (blockOf a) .status)) ∧
    ((∃ u r, locate s.cfg a = .reg u r ∧ size = .word ∧ a = regOffset u r ∧ v = (readReg s u r).toNat) ∨
     (∃ w k, locate s.cfg a = .window w k ∧ a % sizeBytes size = 0 ∧ k + sizeBytes size ≤ winSize s.cfg w ∧
        v = leValue (memReadBytes s.mem a (sizeBytes size)))) := by
  unfold busRead at h
  split at h
  · cases h
  rename_i hc
  obtain ⟨h1, h2, h3, -⟩ := busCheck_none hc
  refine ⟨h3.imp_right fun h3 => ?_, ?_⟩
  · simp only [isStatusRead, Bool.and_eq_true, beq_iff_eq] at h3
    refine ⟨?_, h3.2⟩
    cases size <;> simp [sizeBytes] at h3 ⊢
  unfold sizeAlignOk at h2
  cases hl : locate s.cfg a with
  | reg u r =>
    simp only [hl, Bool.and_eq_true, beq_iff_eq] at h h2
    cases h
    refine .inl ⟨u, r, rfl, ?_, h2.2, rfl⟩
    cases size <;> simp [sizeBytes] at h2 ⊢
  | window w k =>
    simp only [hl, Bool.and_eq_true, beq_iff_eq, decide_eq_true_eq] at h h2
    cases h
    exact .inr ⟨w, k, rfl, h2.1, h2.2, rfl⟩
  | reserved => simp [hl] at h2

/-- A performed write leaves the host, the parameter and the turn as they were. -/
theorem busWrite_frame {s t : State} {a v : Nat} {size : AccessSize} (h : busWrite s a size v = .ok t) :
    t.cfg = s.cfg ∧ t.host = s.host ∧ t.schedule = s.schedule ∧ t.tick = s.tick := by
  obtain ⟨-, ⟨u, r, -, -, -, -, -, rfl⟩ | ⟨w, k, -, -, -, -, rfl⟩⟩ := busWrite_ok h
  · cases u <;> cases r <;> exact ⟨rfl, rfl, rfl, rfl⟩
  · exact ⟨rfl, rfl, rfl, rfl⟩

/-! ### The host -/

theorem withVar_cases (s : State) (x : HostVar) (k : Nat → State) :
    (∃ v, varValue s.host.vars x = some v ∧ withVar s x k = k v) ∨
    (varValue s.host.vars x = none ∧ withVar s x k = hostStop s (.undefinedVariable x)) := by
  unfold withVar; split
  · rename_i v h; exact .inl ⟨v, h, rfl⟩
  · rename_i h; exact .inr ⟨h, rfl⟩

theorem hostGoto_frame (s : State) (l : Label) : hostGoto s l = { s with host := (hostGoto s l).host } := by
  unfold hostGoto; split <;> rfl

theorem hostRead_cases {s t : State} {off : Nat} {size : AccessSize} {x : HostVar} (h : hostRead s off size x = .next t) :
    t = { s with host := t.host } := by
  unfold hostRead at h
  split_ifs at h
  split at h <;> cases h <;> rfl

theorem hostWrite_cases {s t : State} {off v : Nat} {size : AccessSize} (h : hostWrite s off size v = .next t) :
    t = { s with host := t.host } ∨ ∃ t', busWrite s off size v = .ok t' ∧ t = hostAdvance t' := by
  unfold hostWrite at h
  split_ifs at h
  split at h
  · rename_i t' h'; cases h; exact .inr ⟨t', h', rfl⟩
  · cases h; exact .inl rfl

/-- What a host step can do: change the host alone, or perform one bus write (30_encoding.md R98). -/
theorem hostStep_cases {s t : State} (h : hostStep s = .next t) :
    t = { s with host := t.host } ∨
    ∃ off size v t', busWrite s off size v = .ok t' ∧ t = hostAdvance t' := by
  unfold hostStep at h
  split at h
  · rename_i line _ _
    cases hi : line.instr <;> simp only [hi, hostExec] at h
    case w32 off imm => exact (hostWrite_cases h).imp_right fun ⟨t', h⟩ => ⟨_, _, _, t', h⟩
    case w16 off imm => exact (hostWrite_cases h).imp_right fun ⟨t', h⟩ => ⟨_, _, _, t', h⟩
    case w8 off imm => exact (hostWrite_cases h).imp_right fun ⟨t', h⟩ => ⟨_, _, _, t', h⟩
    case rd32 => exact .inl (hostRead_cases h)
    case rd16 => exact .inl (hostRead_cases h)
    case rd8 => exact .inl (hostRead_cases h)
    case halt => cases h; exact .inl rfl
    all_goals
      cases h
      left
      rcases withVar_cases s _ _ with ⟨v, -, he⟩ | ⟨-, he⟩ <;> rw [he] <;>
        first | rfl | (split_ifs <;> first | rfl | exact hostGoto_frame _ _)
  · cases h; exact .inl rfl

/-! ### The engines and the step -/

/-- A completion: nothing for an idle unit, an illegal word's code, or the command's meaning (20_memory.md R75). -/
theorem complete_cases (u : DevUnit) (s : State) :
    ((latchOf s u).pending = false ∧ complete u s = .next s) ∨
    ((latchOf s u).pending = true ∧ (∃ e, decode u (latchOf s u).word = .error e) ∧
      complete u s = .next (finish s u .illegalCommand)) ∨
    ((latchOf s u).pending = true ∧ ∃ i, decode u (latchOf s u).word = .ok i ∧ complete u s = exec i s) := by
  unfold complete
  cases hp : (latchOf s u).pending
  · exact .inl ⟨rfl, rfl⟩
  · cases hd : decode u (latchOf s u).word with
    | error e => exact .inr (.inl ⟨rfl, ⟨e, rfl⟩, rfl⟩)
    | ok i => exact .inr (.inr ⟨rfl, i, rfl, rfl⟩)

/-- The commands of a unit. -/
theorem decode_ok {u : DevUnit} {w : Word32} {i : Instr} (h : decode u w = .ok i) :
    i.devUnit = u ∧ encode i = w := by
  unfold decode at h
  cases u <;> dsimp only at h <;> split_ifs at h <;> cases h <;> simp_all [Instr.devUnit, encode]

/-- Who moves in a step (10_state.md R20). -/
theorem step_cases {s t : State} (h : step s = .next t) :
    (nextAgent s = .host ∧ hostStep (takeTurn s) = .next t) ∨
    (∃ u, nextAgent s = .engine u ∧ complete u (takeTurn s) = .next t) ∨
    (nextAgent s = .reset ∧ t = deviceReset (takeTurn s)) := by
  unfold step at h
  cases ha : nextAgent s with
  | host => rw [ha] at h; exact .inl ⟨rfl, h⟩
  | engine u => rw [ha] at h; exact .inr (.inl ⟨u, rfl, h⟩)
  | reset => rw [ha] at h; cases h; exact .inr (.inr ⟨rfl, rfl⟩)

end Sys2Proof.Machine
end

