-- ==== Sys2Proof/Laws/PerInstr.lean ====
section
/-! SUPPORT. Statements for all instructions, one lemma for each constructor: every command's word holds a command code in bits
3:0 that is not 0 and 0 in the reserved bits 31:4 (30_encoding.md R91), and decodes back to the command. -/

namespace Sys2Proof.Laws.ReservedZero

/-- The command is well formed, its word has a nonzero OPC and RSV = 0, and decodes to it (30_encoding.md R91, R93, R94). -/
def Statement (i : Instr) : Prop :=
  i.wf = true ∧ rsvField (encode i) = 0 ∧ opcField (encode i) ≠ 0 ∧ decode i.devUnit (encode i) = .ok i

theorem b2Init : Statement .b2Init := ⟨by decide, by decide, by decide, rfl⟩
theorem b2Update : Statement .b2Update := ⟨by decide, by decide, by decide, rfl⟩
theorem b2Final : Statement .b2Final := ⟨by decide, by decide, by decide, rfl⟩
theorem b58Encode : Statement .b58Encode := ⟨by decide, by decide, by decide, rfl⟩
theorem b58Decode : Statement .b58Decode := ⟨by decide, by decide, by decide, rfl⟩

end Sys2Proof.Laws.ReservedZero
end

