-- ==== Sys2Proof/Laws/Units.lean ====
section
/-! SUPPORT. What a command reads and writes: each is a function of its unit's registers, of N and of its unit's block, and writes
the unit's registers and one run of bytes of its block (20_memory.md R77, R83). -/

namespace Sys2Proof.Machine

/-! ### The B58 unit -/

/-- Two states a B58 command cannot tell apart. -/
structure SameB58 (s s' : State) : Prop where
  cfg : s'.cfg = s.cfg
  b58 : s'.b58 = s.b58
  mem : ∀ a, 0x200 ≤ a → memRead s'.mem a = memRead s.mem a

theorem SameB58.bin {s s' : State} (h : SameB58 s s') (n : Nat) : winBytes s' .bin n = winBytes s .bin n :=
  memReadBytes_congr fun k _ => h.mem _ (by simp only [winBase]; omega)

theorem SameB58.txt {s s' : State} (h : SameB58 s s') (n : Nat) : winBytes s' .txt n = winBytes s .txt n :=
  memReadBytes_congr fun k _ => h.mem _ (by simp only [winBase]; omega)

theorem SameB58.terminator {s s' : State} (h : SameB58 s s') : terminatorAt s' = terminatorAt s := by
  have e : (fun k => winRead s' .txt k == 0x00) = fun k => winRead s .txt k == 0x00 := by
    funext k
    rw [show winRead s' .txt k = winRead s .txt k from h.mem _ (by simp only [winBase]; omega)]
  unfold terminatorAt
  rw [h.cfg, e]

/-- What a B58 command answers: the registers x, and the bytes bs written from the offset off on. -/
def b58Result (s : State) (x : B58Unit) (off : Nat) (bs : List Byte) : Host.Outcome State Fault Refusal :=
  .next { s with b58 := x, mem := memWriteBytes s.mem off bs }

/-- The unit after a command that ended with e. -/
def endB58 (x : B58Unit) (e : ResultCode) : B58Unit := { x with err := e, latch := { x.latch with pending := false } }

theorem finish_b58_result (s : State) (e : ResultCode) (off : Nat) {x : B58Unit} (h : s.b58 = x) :
    Host.Outcome.next (finish s .b58 e) = b58Result s (endB58 x e) off [] := by subst h; rfl

/-- B58.ENCODE is a function of the B58 unit, N and the windows of B58, and writes the unit and a run of TXT
(40_base58.md R127). -/
theorem execB58Encode_local (s : State) : ∃ x bs,
    ∀ s', SameB58 s s' → execB58Encode s' = b58Result s' x 0x800 bs := by
  have hl : ∀ s', SameB58 s s' → encodeLen s' = encodeLen s := fun s' h => by simp only [encodeLen, param0Of, h.b58]
  have hc : ∀ s', SameB58 s s' → encodeCap s' = encodeCap s := fun s' h => by simp only [encodeCap, param1Of, h.b58]
  have hd : ∀ s', SameB58 s s' → encodeData s' = encodeData s := fun s' h => by
    simp only [encodeData, hl s' h, h.bin]
  by_cases h1 : s.cfg.maxLen < encodeLen s
  · refine ⟨endB58 s.b58 .capacityExceeded, [], fun s' h => ?_⟩
    unfold execB58Encode
    rw [h.cfg, hl s' h, if_pos h1, finish_b58_result _ _ 0x800 h.b58]
  by_cases h2 : s.cfg.encWorkMax < encSize (encodeLen s - leadingCount 0x00 (encodeData s))
  · refine ⟨endB58 s.b58 .capacityExceeded, [], fun s' h => ?_⟩
    unfold execB58Encode
    simp only [h.cfg, hl s' h, hd s' h]
    rw [if_neg h1, if_pos h2, finish_b58_result _ _ 0x800 h.b58]
  cases h3 : b58Digits ((encodeData s).drop (leadingCount 0x00 (encodeData s)))
      (encSize (encodeLen s - leadingCount 0x00 (encodeData s))) with
  | none =>
    refine ⟨endB58 s.b58 .underflow, [], fun s' h => ?_⟩
    unfold execB58Encode
    simp only [h.cfg, hl s' h, hd s' h, h3]
    rw [if_neg h1, if_neg h2, finish_b58_result _ _ 0x800 h.b58]
  | some digits =>
    by_cases h4 : encodeCap s ≤ leadingCount 0x00 (encodeData s) + digits.length
    · refine ⟨{ s.b58 with
        param1 := BitVec.ofNat 32 (leadingCount 0x00 (encodeData s) + digits.length + 1), err := .bufferTooSmall,
        latch := { s.b58.latch with pending := false } }, [], fun s' h => ?_⟩
      unfold execB58Encode
      simp only [h.cfg, hl s' h, hd s' h, h3, hc s' h]
      rw [if_neg h1, if_neg h2, if_pos h4, finish_b58_result _ _ 0x800 rfl]
      simp only [b58Result, endB58, setParam1, h.b58, memWriteBytes_nil]
    · refine ⟨{ s.b58 with
        param1 := BitVec.ofNat 32 (leadingCount 0x00 (encodeData s) + digits.length + 1), err := .ok,
        latch := { s.b58.latch with pending := false } }, encodedText (leadingCount 0x00 (encodeData s)) digits,
        fun s' h => ?_⟩
      unfold execB58Encode
      simp only [h.cfg, hl s' h, hd s' h, h3, hc s' h]
      rw [if_neg h1, if_neg h2, if_neg h4, finish_b58_result _ _ 0x800 rfl]
      simp only [b58Result, endB58, setParam1, winWrite, h.b58, memWriteBytes_nil, winBase]

/-- B58.DECODE is a function of the B58 unit, N and the windows of B58, and writes the unit and a run of BIN
(40_base58.md R130). -/
theorem execB58Decode_local (s : State) : ∃ x bs,
    ∀ s', SameB58 s s' → execB58Decode s' = b58Result s' x 0x400 bs := by
  have hl : ∀ s', SameB58 s s' → decodeLen s' = decodeLen s := fun s' h => by simp only [decodeLen, param0Of, h.b58]
  have hw : ∀ s', SameB58 s s' → decodeWidth s' = decodeWidth s := fun s' h => by
    simp only [decodeWidth, param1Of, h.b58]
  have ht : ∀ s', SameB58 s s' → decodeTextLen s' = decodeTextLen s := fun s' h => by
    simp only [decodeTextLen, hl s' h, h.terminator]
  by_cases h1 : s.cfg.maxLen < decodeWidth s
  · refine ⟨endB58 s.b58 .capacityExceeded, [], fun s' h => ?_⟩
    unfold execB58Decode
    simp only [h.cfg, hw s' h]
    rw [if_pos h1, finish_b58_result _ _ 0x400 h.b58]
  by_cases h2 : s.cfg.txtSize < decodeLen s
  · refine ⟨endB58 s.b58 .capacityExceeded, [], fun s' h => ?_⟩
    unfold execB58Decode
    simp only [h.cfg, hw s' h, hl s' h]
    rw [if_neg h1, if_pos h2, finish_b58_result _ _ 0x400 h.b58]
  cases h3 : decodeTextLen s with
  | none =>
    refine ⟨endB58 s.b58 .capacityExceeded, [], fun s' h => ?_⟩
    unfold execB58Decode
    simp only [h.cfg, hw s' h, hl s' h, ht s' h, h3]
    rw [if_neg h1, if_neg h2, finish_b58_result _ _ 0x400 h.b58]
  | some len =>
    cases h4 : decodeChars (decodeWidth s) ((winBytes s .txt len).drop (leadingCount 0x31 (winBytes s .txt len)))
        (List.replicate ((decodeWidth s + 3) / 4) 0) with
    | error e =>
      refine ⟨endB58 s.b58 e, [], fun s' h => ?_⟩
      unfold execB58Decode
      simp only [h.cfg, hw s' h, hl s' h, ht s' h, h3, h.txt, h4]
      rw [if_neg h1, if_neg h2, finish_b58_result _ _ 0x400 h.b58]
    | ok acc =>
      by_cases h5 : decodeWidth s < leadingCount 0x31 (winBytes s .txt len) +
          (decodeWidth s - leadingCount 0x00 (unpack (decodeWidth s) acc))
      · refine ⟨endB58 s.b58 .capacityExceeded, [], fun s' h => ?_⟩
        unfold execB58Decode
        simp only [h.cfg, hw s' h, hl s' h, ht s' h, h3, h.txt, h4]
        rw [if_neg h1, if_neg h2]
        unfold storeDecoded
        simp only
        rw [if_pos h5, finish_b58_result _ _ 0x400 h.b58]
      · refine ⟨{ s.b58 with
          param1 := BitVec.ofNat 32 (leadingCount 0x31 (winBytes s .txt len) +
            (decodeWidth s - leadingCount 0x00 (unpack (decodeWidth s) acc))), err := .ok,
          latch := { s.b58.latch with pending := false } }, unpack (decodeWidth s) acc, fun s' h => ?_⟩
        unfold execB58Decode
        simp only [h.cfg, hw s' h, hl s' h, ht s' h, h3, h.txt, h4]
        rw [if_neg h1, if_neg h2]
        unfold storeDecoded
        simp only
        rw [if_neg h5, finish_b58_result _ _ 0x400 rfl]
        simp only [b58Result, endB58, setParam1, winWrite, h.b58, memWriteBytes_nil, winBase]

/-! ### The B2 unit -/

/-- Two states a B2 command cannot tell apart. -/
structure SameB2 (s s' : State) : Prop where
  b2 : s'.b2 = s.b2
  mem : ∀ a, a < 0x200 → memRead s'.mem a = memRead s.mem a

/-- What a B2 command answers: the registers x, and the bytes bs written to DOUT. -/
def b2Result (s : State) (x : B2Unit) (bs : List Byte) : Host.Outcome State Fault Refusal :=
  .next { s with b2 := x, mem := memWriteBytes s.mem 0x180 bs }

/-- The unit after a command that ended with e. -/
def endB2 (x : B2Unit) (e : ResultCode) : B2Unit := { x with err := e, latch := { x.latch with pending := false } }

theorem finish_b2_result (s : State) (e : ResultCode) {x : B2Unit} (h : s.b2 = x) :
    Host.Outcome.next (finish s .b2 e) = b2Result s (endB2 x e) [] := by subst h; rfl

/-- B2.INIT is a function of the B2 unit and DIN, and writes the unit and DOUT; it reads below the end of DIN only when kk is at
most 64 (41_blake2b.md R179). -/
theorem execB2Init_local (s : State) : ∃ x, ∀ s', SameB2 s s' → execB2Init s' = b2Result s' x (zeroBytes 64) := by
  have hn : ∀ s', SameB2 s s' → initDigestLen s' = initDigestLen s := fun s' h => by
    simp only [initDigestLen, param0Of, h.b2]
  have hk : ∀ s', SameB2 s s' → initKeyLen s' = initKeyLen s := fun s' h => by
    simp only [initKeyLen, param1Of, h.b2]
  cases hb : initInvalid (initDigestLen s) (initKeyLen s)
  · have hkk : initKeyLen s ≤ 64 := by
      simp only [initInvalid, Bool.or_eq_false_iff, decide_eq_false_iff_not] at hb
      omega
    have hd : ∀ s', SameB2 s s' → initKey s' = initKey s := fun s' h => by
      unfold initKey
      rw [hk s' h]
      exact memReadBytes_congr fun k hk' => h.mem _ (by simp only [winBase]; omega)
    refine ⟨endB2 { absorbKey (freshContext s.b2 (initDigestLen s) (initKeyLen s)) (initKey s) with phase := .active } .ok,
      fun s' h => ?_⟩
    unfold execB2Init
    simp only [hn s' h, hk s' h, hd s' h, hb, winWrite_b2, h.b2, Bool.false_eq_true, if_false]
    rw [finish_b2_result _ _ (Eq.refl _)]
    simp only [b2Result, winWrite, memWriteBytes_nil, winBase]
  · refine ⟨endB2 (zeroContext s.b2 .inert) .invalidParameters, fun s' h => ?_⟩
    unfold execB2Init
    simp only [hn s' h, hk s' h, hb, winWrite_b2, h.b2, if_true]
    rw [finish_b2_result _ _ (Eq.refl _)]
    simp only [b2Result, winWrite, memWriteBytes_nil, winBase]

/-- B2.UPDATE is a function of the B2 unit and DIN, and writes the unit only (41_blake2b.md R180). -/
theorem execB2Update_local (s : State) : ∃ x, ∀ s', SameB2 s s' → execB2Update s' = b2Result s' x [] := by
  have hl : ∀ s', SameB2 s s' → updateLen s' = updateLen s := fun s' h => by simp only [updateLen, param0Of, h.b2]
  by_cases h1 : s.b2.phase ≠ .active
  · refine ⟨endB2 s.b2 .sequenceError, fun s' h => ?_⟩
    unfold execB2Update
    rw [h.b2, if_pos h1, finish_b2_result _ _ h.b2]
  by_cases h2 : 128 < updateLen s
  · refine ⟨endB2 s.b2 .capacityExceeded, fun s' h => ?_⟩
    unfold execB2Update
    rw [h.b2, if_neg h1, hl s' h, if_pos h2, finish_b2_result _ _ h.b2]
  · have hd : ∀ s', SameB2 s s' → updateBytes s' = updateBytes s := fun s' h => by
      unfold updateBytes
      rw [hl s' h]
      exact memReadBytes_congr fun k hk' => h.mem _ (by simp only [winBase]; omega)
    refine ⟨endB2 (absorb s.b2 (updateBytes s)) .ok, fun s' h => ?_⟩
    unfold execB2Update
    rw [h.b2, if_neg h1, hl s' h, if_neg h2, hd s' h, finish_b2_result _ _ (Eq.refl _)]
    simp only [b2Result, memWriteBytes_nil]

/-- B2.FINAL is a function of the B2 unit, and writes the unit and DOUT (41_blake2b.md R181). -/
theorem execB2Final_local (s : State) : ∃ x bs, bs.length ≤ 64 ∧
    ∀ s', SameB2 s s' → execB2Final s' = b2Result s' x bs := by
  by_cases h1 : s.b2.phase ≠ .active
  · refine ⟨endB2 s.b2 .sequenceError, [], by simp, fun s' h => ?_⟩
    unfold execB2Final
    rw [h.b2, if_pos h1, finish_b2_result _ _ h.b2]
  · refine ⟨endB2 (finalContext s.b2) .ok, digestWindow (finalContext s.b2).h (finalContext s.b2).outlen, by simp, fun s' h => ?_⟩
    unfold execB2Final
    rw [h.b2, if_neg h1]
    simp only
    rw [finish_b2_result _ _ (winWrite_b2 _ _ _)]
    simp only [b2Result, winWrite, memWriteBytes_nil, winBase]

/-! ### Completions -/

/-- A completion of B58 answers registers and a run of bytes of its block that depend on its unit, N and its block only. -/
theorem complete_b58_local (s : State) : ∃ x off bs, 0x400 ≤ off ∧
    ∀ s', SameB58 s s' → complete .b58 s' = b58Result s' x off bs := by
  have hlat : ∀ s', SameB58 s s' → latchOf s' .b58 = latchOf s .b58 := fun s' h => by simp only [latchOf, h.b58]
  obtain ⟨hp, -⟩ | ⟨hp, ⟨e, hd⟩, -⟩ | ⟨hp, i, hd, -⟩ := complete_cases .b58 s
  · refine ⟨s.b58, 0x400, [], le_refl _, fun s' h => ?_⟩
    unfold complete
    rw [hlat s' h, if_neg (by simp [hp]), ← h.b58]
    rfl
  · refine ⟨endB58 s.b58 .illegalCommand, 0x400, [], le_refl _, fun s' h => ?_⟩
    unfold complete
    rw [hlat s' h, if_pos hp, hd]
    dsimp only
    rw [finish_b58_result _ _ 0x400 h.b58]
  · have hu := (decode_ok hd).1
    obtain ⟨x, off, bs, ho, hx⟩ : ∃ x off bs, 0x400 ≤ off ∧ ∀ s', SameB58 s s' → exec i s' = b58Result s' x off bs := by
      cases i <;> cases hu
      · obtain ⟨x, bs, h⟩ := execB58Encode_local s
        exact ⟨x, 0x800, bs, by omega, h⟩
      · obtain ⟨x, bs, h⟩ := execB58Decode_local s
        exact ⟨x, 0x400, bs, by omega, h⟩
    refine ⟨x, off, bs, ho, fun s' h => ?_⟩
    unfold complete
    rw [hlat s' h, if_pos hp, hd]
    exact hx s' h

/-- A completion of B2 answers registers and a run of bytes of DOUT that depend on its unit and its block only. -/
theorem complete_b2_local (s : State) : ∃ x bs, bs.length ≤ 64 ∧
    ∀ s', SameB2 s s' → complete .b2 s' = b2Result s' x bs := by
  have hlat : ∀ s', SameB2 s s' → latchOf s' .b2 = latchOf s .b2 := fun s' h => by simp only [latchOf, h.b2]
  obtain ⟨hp, -⟩ | ⟨hp, ⟨e, hd⟩, -⟩ | ⟨hp, i, hd, -⟩ := complete_cases .b2 s
  · refine ⟨s.b2, [], by simp, fun s' h => ?_⟩
    unfold complete
    rw [hlat s' h, if_neg (by simp [hp]), ← h.b2]
    rfl
  · refine ⟨endB2 s.b2 .illegalCommand, [], by simp, fun s' h => ?_⟩
    unfold complete
    rw [hlat s' h, if_pos hp, hd]
    dsimp only
    rw [finish_b2_result _ _ h.b2]
  · have hu := (decode_ok hd).1
    obtain ⟨x, bs, ho, hx⟩ : ∃ x bs, bs.length ≤ 64 ∧ ∀ s', SameB2 s s' → exec i s' = b2Result s' x bs := by
      cases i <;> cases hu
      · obtain ⟨x, h⟩ := execB2Init_local s
        exact ⟨x, _, by simp, h⟩
      · obtain ⟨x, h⟩ := execB2Update_local s
        exact ⟨x, _, by simp, h⟩
      · exact execB2Final_local s
    refine ⟨x, bs, ho, fun s' h => ?_⟩
    unfold complete
    rw [hlat s' h, if_pos hp, hd]
    exact hx s' h

end Sys2Proof.Machine
end

