-- ==== Sys2Proof/Tests/Slice0.lean ====
section
/-! SUPPORT. The author's tests: ill-formed terms that the checks refuse, words written out from the encoding tables, one-step
vectors of 95_test_vectors.md, and for every statement with hypotheses a state that meets them together. -/

namespace Sys2Proof.Tests

open Sys2Proof Sys2Proof.Machine

/-! ### Helpers -/

/-- The outcome is a next state with a property. -/
def goes (o : Host.Outcome State Fault Refusal) (p : State → Bool) : Bool :=
  match o with
  | .next t => p t
  | .fault _ => false
  | .refused _ => false

/-- The reset state with PARAM registers of B2. -/
def b2With (p0 p1 : Word32) : State := setParam1 (setParam0 State.reset .b2 p0) .b2 p1

/-- The reset state with PARAM registers of B58. -/
def b58With (p0 p1 : Word32) : State := setParam1 (setParam0 State.reset .b58 p0) .b58 p1

/-- A small ACTIVE context: digest length n, fill index c, from a zero hash state. -/
def activeWith (p0 : Word32) (n : Fin 65) (c : Fin 129) : State :=
  { State.reset with b2 := { B2Unit.reset with phase := .active, outlen := n, c := c, param0 := p0 } }

/-- The reset state with bytes in a window. -/
def holding (s : State) (w : Window) (bs : List Byte) : State := winWrite s w bs

/-- A state with a host program. -/
def running (s : State) (i : HostInstr) : State := loadProgram s [plain i]

/-- A state whose next step is an agent's. -/
def turnOf (s : State) (a : Agent) : State := { s with schedule := [a] }

/-- "Hello World!" (95_test_vectors.md V-N12). -/
def hello : List Byte := [0x48, 0x65, 0x6C, 0x6C, 0x6F, 0x20, 0x57, 0x6F, 0x72, 0x6C, 0x64, 0x21]

theorem exists_next {o : Host.Outcome State Fault Refusal} (h : isNext o = true) : ∃ t, o = .next t := by
  cases o with
  | next t => exact ⟨t, rfl⟩
  | fault _ => cases h
  | refused _ => cases h

theorem exists_ok {α : Type} {e : Except BusError α} (h : e.toBool = true) : ∃ a, e = .ok a := by
  cases e with
  | ok a => exact ⟨a, rfl⟩
  | error _ => cases h

/-! ### Well-formedness refuses ill-formed terms -/

theorem test_config_zero_refused : Config.wf { maxLen := 0 } = false := by decide
theorem test_config_1025_refused : Config.wf { maxLen := 1025 } = false := by decide
theorem test_config_range_ends : Config.wf { maxLen := 1 } = true ∧ Config.wf { maxLen := 1024 } = true := by decide
theorem test_offset_refused : Program.wf [plain (.w32 0x1000 0)] = false := by decide
theorem test_dangling_label_refused : Program.wf [plain (.bne .s 0 (.named 1))] = false := by decide
theorem test_double_label_refused :
    Program.wf [{ labels := [.named 1], instr := .halt }, { labels := [.named 1], instr := .halt }] = false := by decide
theorem test_wait_loop_accepted : Program.wf (assemble [unlabelled .wait2]) = true := by decide

/-! ### Words written out bit by bit from 30_encoding.md R91, R93, R94 -/

theorem test_word_b2_init : decode .b2 0b00000000000000000000000000000001#32 = .ok .b2Init := by decide
theorem test_word_b2_update : decode .b2 0b00000000000000000000000000000010#32 = .ok .b2Update := by decide
theorem test_word_b2_final : decode .b2 0b00000000000000000000000000000011#32 = .ok .b2Final := by decide
theorem test_word_b58_encode : decode .b58 0b00000000000000000000000000000001#32 = .ok .b58Encode := by decide
theorem test_word_b58_decode : decode .b58 0b00000000000000000000000000000010#32 = .ok .b58Decode := by decide

/-- V-B22 to V-B24 and V-N28: codes and reserved bits that are no command. -/
theorem test_illegal_words :
    decode .b2 0x00000000 = .error .noSuchOpcode ∧ decode .b2 0x00000004 = .error .noSuchOpcode ∧
    decode .b58 0x00000003 = .error .noSuchOpcode ∧ decode .b2 0x00000011 = .error .reservedBits ∧
    decode .b58 0x80000002 = .error .reservedBits := by decide

/-- The rows of the opcode table: 32 bits name a word at B2_CMD; with the offset 0x200 above it the word is one at B58_CMD. -/
theorem test_table_words :
    decodeTableWord 32 1 = some .b2Init ∧ decodeTableWord 32 2 = some .b2Update ∧ decodeTableWord 32 3 = some .b2Final ∧
    decodeTableWord 64 0x20000000001 = some .b58Encode ∧ decodeTableWord 64 0x20000000002 = some .b58Decode ∧
    decodeTableWord 32 0 = none ∧ decodeTableWord 64 0x10000000001 = none := by decide

/-- A placed word runs as the first command after reset (V-B8, V-B16, V-N23 with cap = 0). -/
theorem test_placed_words_run :
    goes (step (State.reset.withFetchWord 32 1)) (fun t => statusOf t .b2 == 0x00000350) = true ∧
    goes (step (State.reset.withFetchWord 32 2)) (fun t => statusOf t .b2 == 0x00000060) = true ∧
    goes (step (State.reset.withFetchWord 64 0x20000000001)) (fun t => statusOf t .b58 == 0x00000010) = true := by
  decide

/-! ### B2.INIT -/

/-- V-B6: the key block is held back, h[0] holds the parameter word. -/
theorem test_init_keyed :
    goes (exec .b2Init (holding (b2With 64 64) .din ((List.range 64).map (BitVec.ofNat 8)))) (fun t =>
      t.b2.h[0] == 0x6A09E667F2BD8948 && t.b2.c == 128 && t.b2.t == 0 && t.b2.buf[63] == 0x3F && t.b2.buf[64] == 0 &&
      statusOf t .b2 == 0x00000100) = true := by decide +kernel

/-- V-B14: kk is compared as a full 32-bit number. -/
theorem test_init_wide_key_length :
    goes (exec .b2Init (b2With 64 0x00000100)) (fun t => statusOf t .b2 == 0x00000350 && t.b2.outlen == 0) = true := by
  decide

/-! ### B2.UPDATE -/

/-- V-B2 and V-B18: three bytes are buffered, no compression; len = 0 changes nothing. -/
theorem test_update_buffers :
    goes (exec .b2Update (holding (activeWith 3 64 0) .din [0x61, 0x62, 0x63])) (fun t =>
      t.b2.c == 3 && t.b2.buf[2] == 0x63 && t.b2.t == 0 && t.b2.h[0] == 0) = true ∧
    goes (exec .b2Update (activeWith 0 64 5)) (fun t => t.b2.c == 5 && t.b2.err == .ok) = true := by decide +kernel

/-- V-B7: a byte for a full buffer compresses the block first, with t = 128. -/
theorem test_update_compresses_full_block :
    goes (exec .b2Update (holding (activeWith 1 64 128) .din [0x7E])) (fun t =>
      t.b2.c == 1 && t.b2.t == 128 && t.b2.buf[0] == 0x7E && t.b2.buf[1] == 0) = true := by decide +kernel

/-! ### The functions of the B2 unit -/

/-- V-G2. -/
theorem test_mixing_carries :
    (let v := blakeG (((Vector.replicate 16 0).set 0 0xFFFFFFFFFFFFFFFF).set 4 1) 0 4 8 12 1 0xFFFFFFFFFFFFFFFF
     [v[0], v[4], v[8], v[12]]) =
      [0x0000010000000100, 0x0200020202020200, 0x0100000101010000, 0x0100000001010000] := by decide

/-- V-A1. -/
theorem test_counter_addition :
    add128 0xFFFFFFFFFFFFFF80 128 = 0x10000000000000000 ∧ add128 (BitVec.allOnes 128) 1 = 0 := by decide

/-! ### B58.ENCODE -/

/-- V-N12, V-N21: exactly the required room. -/
theorem test_encode_hello :
    goes (exec .b58Encode (holding (b58With 12 18) .bin hello)) (fun t =>
      winBytes t .txt 18 == [0x32, 0x4E, 0x45, 0x70, 0x6F, 0x37, 0x54, 0x5A, 0x52, 0x52, 0x72, 0x4C, 0x5A, 0x53, 0x69,
        0x32, 0x55, 0x00] && param1Of t .b58 == 18 && statusOf t .b58 == 0) = true := by decide

/-- V-N20 and V-N25. -/
theorem test_encode_errors :
    goes (exec .b58Encode (holding (b58With 12 17) .bin hello)) (fun t =>
      param1Of t .b58 == 18 && statusOf t .b58 == 0x10 && winRead t .txt 0 == 0) = true ∧
    goes (exec .b58Encode (b58With 257 18)) (fun t => param1Of t .b58 == 18 && statusOf t .b58 == 0x20) = true := by
  decide

/-! ### B58.DECODE -/

/-- V-D7: "112" into a width of 4 is right-aligned. -/
theorem test_decode_right_aligned :
    goes (exec .b58Decode (holding (b58With 0 4) .txt [0x31, 0x31, 0x32])) (fun t =>
      winBytes t .bin 4 == [0, 0, 0, 1] && param1Of t .b58 == 3 && statusOf t .b58 == 0) = true := by decide

/-- V-D10 and L1-4: "5R" needs two bytes; "10" holds no valid character at its second place. -/
theorem test_decode_errors :
    goes (exec .b58Decode (holding (b58With 0 1) .txt [0x35, 0x52])) (fun t => statusOf t .b58 == 0x20) = true ∧
    goes (exec .b58Decode (holding (b58With 0 4) .txt [0x31, 0x30])) (fun t =>
      statusOf t .b58 == 0x30 && param1Of t .b58 == 4) = true := by decide

/-! ### The engines of the B58 unit -/

/-- V-E1 to V-E3: a digit buffer that is too small, one that is just large enough, and one with its guard byte. -/
theorem test_digits_sizes :
    b58Digits [0xFF] 1 = none ∧ b58Digits [0x39] 1 = some [57] ∧ b58Digits [0xFF] 2 = some [4, 23] := by decide

/-- V-E4, V-E5. -/
theorem test_fold :
    b58Fold [0xFFFFFFFF] 57 = ([0xFFFFFFFF], 57) ∧ b58Fold [0, 4] 23 = ([0, 0xFF], 0) := by decide

/-! ### The bus -/

/-- V-M family: size before busy, reserved before size, read-only last. -/
theorem test_bus_errors :
    busRead State.reset 0x00E .word = .error .reservedOffset ∧ busRead State.reset 0x004 .byte = .error .sizeOrAlignment ∧
    busRead (issue State.reset .b2 1) 0x008 .word = .error .unitBusy ∧
    busRead (issue State.reset .b2 1) 0x004 .word = .ok 1 ∧ busRead (issue State.reset .b2 1) 0x208 .word = .ok 0 ∧
    (busWrite State.reset 0x180 .byte 1).toBool = false := by decide

/-- Little-endian window access (20_memory.md R64). -/
theorem test_bus_little_endian :
    busRead (holding State.reset .din [0x11, 0x22, 0x33, 0x44]) 0x100 .word = .ok 0x44332211 ∧
    busRead (holding State.reset .din [0x11, 0x22, 0x33, 0x44]) 0x102 .half = .ok 0x4433 := by decide

/-! ### Witnesses: a state and operands that meet the hypotheses of each statement -/

/-- IllegalWordOnlySetsIllegalCommand, each clause, with the words next to the opcode map. -/
theorem witness_illegal_words :
    ((issue State.reset .b2 0).b2.latch.pending = true ∧ (0 : Word32) ≠ 1 ∧ (0 : Word32) ≠ 2 ∧ (0 : Word32) ≠ 3) ∧
    ((issue State.reset .b2 4).b2.latch.word ≠ 1 ∧ (issue State.reset .b2 4).b2.latch.word ≠ 2 ∧
      (issue State.reset .b2 4).b2.latch.word ≠ 3) ∧
    ((issue State.reset .b58 3).b58.latch.pending = true ∧ (issue State.reset .b58 3).b58.latch.word ≠ 1 ∧
      (issue State.reset .b58 3).b58.latch.word ≠ 2) := by decide

/-- StepRunsTheDecodedCommand, for each of the five commands. -/
theorem witness_step_runs :
    ∀ p ∈ [(DevUnit.b2, 1#32, Instr.b2Init), (.b2, 2, .b2Update), (.b2, 3, .b2Final), (.b58, 1, .b58Encode),
      (.b58, 2, .b58Decode)],
      (placeCommand State.reset p.1 p.2.1).schedule = [.engine p.1] ∧
      (latchOf (placeCommand State.reset p.1 p.2.1) p.1).pending = true ∧
      decode p.1 (latchOf (placeCommand State.reset p.1 p.2.1) p.1).word = .ok p.2.2 := by decide

/-- PlacedCommandRunsNext: the last command of each unit. -/
theorem witness_placed :
    3 < 2 ^ 32 ∧ decode .b2 (BitVec.ofNat 32 3) = .ok .b2Final ∧ 2 < 2 ^ 32 ∧
    decode .b58 (BitVec.ofNat 32 2) = .ok .b58Decode := by decide

/-- CommandWriteIssuesTheWord, IdleRegistersReadAndWrite: both units idle. -/
theorem witness_idle : ∀ u ∈ [DevUnit.b2, .b58], (latchOf State.reset u).pending = false := by decide

/-- BusyUnitAnswersOnlyStatus: a busy unit with an access that is no STATUS read, with the STATUS read, and the other unit. -/
theorem witness_busy :
    (latchOf (issue State.reset .b58 1) (blockOf 0xFFF)).pending = true ∧
    ¬ (AccessSize.byte = .word ∧ 0xFFF = regOffset (blockOf 0xFFF) .status) ∧
    (latchOf (issue State.reset .b2 1) (blockOf 0x004)).pending = true ∧ 0x004 = regOffset (blockOf 0x004) .status ∧
    DevUnit.b58 ≠ blockOf 0x1FF := by decide

/-- ReservedOffsetsAreBusErrors: the ends of each reserved range at N = 256, T = 355, reached from below by a word. -/
theorem witness_reserved :
    State.reset.cfg.wf = true ∧
    ∀ p ∈ [(0x00D, 0x010), (0x0FF, 0x0FF), (0x1C0, 0x1C0), (0x1FE, 0x1FF), (0x20D, 0x210), (0x3FF, 0x3FF), (0x4FD, 0x500),
      (0x7FF, 0x7FF), (0x960, 0x963), (0xFFF, 0xFFF)],
      p.1 ≤ p.2 ∧ p.2 < p.1 + sizeBytes .word ∧
      ((0x010 ≤ p.2 ∧ p.2 ≤ 0x0FF) ∨ (0x1C0 ≤ p.2 ∧ p.2 ≤ 0x1FF) ∨ (0x210 ≤ p.2 ∧ p.2 ≤ 0x3FF) ∨
        (0x400 + State.reset.cfg.maxLen ≤ p.2 ∧ p.2 ≤ 0x7FF) ∨ (0x800 + State.reset.cfg.txtSize ≤ p.2 ∧ p.2 ≤ 0xFFF)) := by
  decide

/-- RegistersAreReachedWhole: a byte at the offset, and a word one byte further. -/
theorem witness_register_parts :
    regOffset .b58 .param1 ≤ 0x20C ∧ 0x20C < regOffset .b58 .param1 + 4 ∧
    ¬ (AccessSize.byte = .word ∧ 0x20C = regOffset .b58 .param1) ∧
    regOffset .b2 .cmd ≤ 0x003 ∧ 0x003 < regOffset .b2 .cmd + 4 ∧
    ¬ (AccessSize.word = .word ∧ 0x003 = regOffset .b2 .cmd) := by decide

/-- AlignedWindowAccessesArePerformed: the last place of each window. -/
theorem witness_aligned :
    State.reset.cfg.wf = true ∧
    ∀ p ∈ [(Window.din, 124, AccessSize.word), (.dout, 62, .half), (.bin, 252, .word), (.txt, 354, .byte), (.dout, 0, .word)],
      (latchOf State.reset (blockOf (winBase p.1))).pending = false ∧
      (winBase p.1 + p.2.1) % sizeBytes p.2.2 = 0 ∧ p.2.1 + sizeBytes p.2.2 ≤ winSize State.reset.cfg p.1 := by
  decide

/-- MisalignedWindowAccessesAreBusErrors: a misaligned half word, and a word that covers the byte after TXT (V-M10, V-M11). -/
theorem witness_misaligned :
    State.reset.cfg.wf = true ∧
    (1 < winSize State.reset.cfg .din ∧ (winBase .din + 1) % sizeBytes .half ≠ 0) ∧
    (352 < winSize State.reset.cfg .txt ∧ winSize State.reset.cfg .txt < 352 + sizeBytes .word) := by decide

/-- WindowWriteIsLittleEndianAndLocal: the largest half word, at an offset of DIN. -/
theorem witness_window_write :
    Memory.wf State.reset.mem = true ∧ locate State.reset.cfg 0x102 = .window .din 2 ∧
      0xFFFF < 256 ^ sizeBytes .half ∧ ∃ t, busWrite State.reset 0x102 .half 0xFFFF = .ok t :=
  ⟨by decide, by decide, by decide, exists_ok (by decide)⟩

/-- BusErrorOnlyStopsTheHost: a write and a read that are BusErrors. -/
theorem witness_bus_errors :
    0x180 < 4096 ∧ (∃ e, busWrite State.reset 0x180 .byte 1 = .error e) ∧
    0x010 < 4096 ∧ busRead State.reset 0x010 .word = .error .reservedOffset := by
  refine ⟨by decide, ?_, by decide, by decide⟩
  cases h : busWrite State.reset 0x180 .byte 1 with
  | error e => exact ⟨e, rfl⟩
  | ok t =>
    have h1 : (busWrite State.reset 0x180 .byte 1).toBool = false := by decide
    rw [h] at h1
    cases h1

/-- HostAccessesFollowTheBus: a running host with a line, a performed write, a performed read. -/
theorem witness_host_accesses :
    (running State.reset .halt).host.status = .running ∧
    (running State.reset .halt).host.program[(running State.reset .halt).host.next]? = some (plain .halt) ∧
    (∃ t, busWrite State.reset 0x000 .word 1 = .ok t) ∧ busRead State.reset 0x000 .word = .ok 0 :=
  ⟨by decide, by decide, exists_ok (by decide), by decide⟩

/-- StepStopsOnlyOutsideTheDevice: the first offset past the device, written and read. -/
theorem witness_outside :
    (step (turnOf (running State.reset (.w8 0x1000 7)) .host) matches .fault (.outsideDevice 0x1000)) = true ∧
    (step (turnOf (running State.reset (.rd32 0x1000 .s)) .host) matches .fault (.outsideDevice 0x1000)) = true ∧
    nextAgent (turnOf (running State.reset (.w8 0x1000 7)) .host) = .host ∧
    (turnOf (running State.reset (.w8 0x1000 7)) .host).host.program[0]? = some (plain (.w8 0x1000 7)) := by decide

/-- PseudoInstructionsExpandAsListed: the last byte of two (30_encoding.md R99). -/
theorem witness_wbytes :
    ([0x61, 0x62] : List Byte)[1]? = some 0x62 ∧
    (expandItem 0 (.wbytes 0x100 0x61 [0x62]))[1]? = some (plain (.w8 0x101 0x62)) := by decide

/-- ExpansionLabelsAreLocal: the second of two lines that wait. -/
theorem witness_expansion :
    [unlabelled .wait2, unlabelled .b2Final][1]? = some (unlabelled .b2Final) ∧
    ∃ off, ∃ front, expandItem 1 (unlabelled .b2Final).item = front ++ waitLoop 1 off :=
  ⟨rfl, 0x004, [plain (.w32 0x000 0x00000003)], rfl⟩

/-- PendingOperandsCannotChange, each unit; HostCannotSeeTheContext: a host step that writes a busy unit, and one that reads
STATUS. -/
theorem witness_pending_operands :
    (∃ t, (latchOf (running (issue State.reset .b2 1) (.w8 0x100 7)) .b2).pending = true ∧
      hostStep (running (issue State.reset .b2 1) (.w8 0x100 7)) = .next t) ∧
    (∃ t, (latchOf (running (issue State.reset .b58 1) (.rd32 0x204 .s)) .b58).pending = true ∧
      hostStep (running (issue State.reset .b58 1) (.rd32 0x204 .s)) = .next t) :=
  ⟨(exists_next (by decide)).imp fun _ h => ⟨by decide, h⟩,
    (exists_next (by decide)).imp fun _ h => ⟨by decide, h⟩⟩

/-- HostArithmeticAndBranches: a variable with a value, a comparison that holds and one that fails, a label of one line, and an
undefined variable. -/
theorem witness_host_arithmetic :
    varValue (hostAssign State.reset .s 7).host.vars .s = some 7 ∧ (7 ≠ 6) ∧ (7 = 7) ∧
    linesNamed (assemble [unlabelled .wait2]) (.inner 0) = [0] ∧
    varValue State.reset.host.vars (.named 1) = none ∧ HostVar.named 1 ≠ .s := by decide

/-- ResetEventResetsTheBlock, and PhaseTransitions for the reset. -/
theorem witness_reset_event :
    (turnOf (issue State.reset .b2 1) .reset).schedule = [.reset] ∧
    isNext (agentStep .reset (activeWith 0 64 0)) = true := by decide

/-- EveryStepKeepsTheInvariant: a B2.INIT about to complete. -/
theorem witness_invariant_step :
    Inv (placeCommand (b2With 64 0) .b2 1) ∧ ∃ t, step (placeCommand (b2With 64 0) .b2 1) = .next t := by
  refine ⟨⟨by decide, rfl, fun cell h => ?_, ⟨by decide, fun _ => ⟨rfl, rfl, rfl, rfl⟩, fun h => ?_, fun k hk _ => ?_,
    fun h => ?_⟩, fun k _ => rfl, by decide, by decide⟩, ?_⟩
  · cases h
  · cases h
  · exact Vector.getElem_replicate hk
  · cases h
  · exact exists_next (by decide)

/-- CompletionsOfTheUnitsCommute and UnitsShareNoState: both units busy, both completions go on. -/
theorem witness_both_busy :
    Memory.wf (issue (issue (b2With 64 0) .b2 1) .b58 1).mem = true ∧
    (∀ u ∈ [DevUnit.b2, .b58], (latchOf (issue (issue (b2With 64 0) .b2 1) .b58 1) u).pending = true ∧
      isNext (complete u (issue (issue (b2With 64 0) .b2 1) .b58 1)) = true) := by decide

/-- UnitsShareNoState, what a completion reads: two states with one B58 unit and different B2 units and DIN bytes, and the other
way round with BIN bytes. -/
theorem witness_same_unit :
    (issue (b2With 64 0) .b58 1).cfg = (issue (holding State.reset .din [7]) .b58 1).cfg ∧
    (issue (b2With 64 0) .b58 1).b58 = (issue (holding State.reset .din [7]) .b58 1).b58 ∧
    (∀ a, blockOf a = .b58 →
      memRead (issue (b2With 64 0) .b58 1).mem a = memRead (issue (holding State.reset .din [7]) .b58 1).mem a) ∧
    Memory.wf (issue (holding State.reset .din [7]) .b58 1).mem = true ∧
    isNext (complete .b58 (issue (holding State.reset .din [7]) .b58 1)) = true ∧
    (issue (b58With 12 18) .b2 1).b2 = (issue (holding State.reset .bin [7]) .b2 1).b2 ∧
    (∀ a, blockOf a = .b2 →
      memRead (issue (b58With 12 18) .b2 1).mem a = memRead (issue (holding State.reset .bin [7]) .b2 1).mem a) ∧
    Memory.wf (issue (holding State.reset .bin [7]) .b2 1).mem = true ∧
    isNext (complete .b2 (issue (holding State.reset .bin [7]) .b2 1)) = true := by
  refine ⟨by decide, by decide, fun a ha => ?_, by decide, by decide, rfl, fun a ha => ?_, by decide, by decide⟩
  · show (0 : Byte) = if a = 0x100 then 7 else 0
    rw [if_neg]
    rintro rfl
    cases ha
  · show (0 : Byte) = if a = 0x400 then 7 else 0
    rw [if_neg]
    rintro rfl
    cases ha

/-- ErrKeepsUntilTheNextCompletion, and PhaseTransitions for the steps of the others: a host step, and a completion of the other
unit. -/
theorem witness_err_keeps :
    Agent.host ≠ .engine .b2 ∧ Agent.host ≠ .reset ∧ isNext (agentStep .host (issue State.reset .b58 1)) = true ∧
    Agent.engine .b58 ≠ .engine .b2 ∧ isNext (agentStep (.engine .b58) (issue State.reset .b58 1)) = true := by decide

/-- PhaseTransitions: each command goes on from a phase of each kind, and an illegal word completes. -/
theorem witness_phases :
    isNext (exec .b2Init (b2With 64 64)) = true ∧ isNext (exec .b2Init (b2With 65 0)) = true ∧
    isNext (exec .b2Update State.reset) = true ∧ isNext (exec .b2Update (activeWith 128 64 0)) = true ∧
    isNext (exec .b2Update (activeWith 129 64 0)) = true ∧ isNext (exec .b2Final State.reset) = true ∧
    isNext (exec .b2Final (activeWith 0 64 0)) = true ∧
    isNext (complete .b2 (issue (activeWith 0 64 0) .b2 4)) = true ∧ (activeWith 0 64 0).b2.phase = .active ∧
    State.reset.b2.phase ≠ .active := by decide

/-- MixingFollowsItsRule and MixingOfDisjointGroupsCommutes: two columns. -/
theorem witness_groups :
    ((1 : Fin 16) ≠ 0 ∧ (1 : Fin 16) ≠ 4 ∧ (1 : Fin 16) ≠ 8 ∧ (1 : Fin 16) ≠ 12) ∧
    ([0, 4, 8, 12] : List (Fin 16)).Nodup ∧
    ∀ i ∈ ([0, 4, 8, 12] : List (Fin 16)), i ∉ ([1, 5, 9, 13] : List (Fin 16)) := by decide

/-- CounterAdditionCarriesIntoTheHighWord: with the carry and without it, at the largest k. -/
theorem witness_counter :
    128 ≤ 128 ∧ ((0xFFFFFFFFFFFFFF80#128).extractLsb' 0 64 + BitVec.ofNat 64 128).toNat < 128 ∧
    ¬ ((0xFFFFFFFFFFFFFF7F#128).extractLsb' 0 64 + BitVec.ofNat 64 128).toNat < 128 := by decide

/-- InitFollowsItsRule: the ends of both ranges. -/
theorem witness_init :
    ∀ p ∈ [(1, 0), (64, 64)], p.1 = (b2With (BitVec.ofNat 32 p.1) (BitVec.ofNat 32 p.2)).b2.param0.toNat ∧
      p.2 = (b2With (BitVec.ofNat 32 p.1) (BitVec.ofNat 32 p.2)).b2.param1.toNat ∧ 1 ≤ p.1 ∧ p.1 ≤ 64 ∧ p.2 ≤ 64 := by
  decide

/-- InitFollowsItsRule: the first value past each end. -/
theorem witness_init_bad :
    (b2With 0 0).b2.param0.toNat = 0 ∧ 64 < (b2With 65 0).b2.param0.toNat ∧ 64 < (b2With 64 65).b2.param1.toNat := by
  decide

/-- UpdateFollowsItsRule: the most bytes that fit without a compression, and one more. -/
theorem witness_update :
    128 = (activeWith 128 64 0).b2.param0.toNat ∧ 0 = (activeWith 128 64 0).b2.c.val ∧
    (activeWith 128 64 0).b2.phase = .active ∧ 0 + 128 ≤ 128 ∧
    1 = (activeWith 128 64 1).b2.c.val ∧ (activeWith 128 64 1).b2.phase = .active ∧ 128 < 1 + 128 := by decide

/-- UpdateFollowsItsRule (both errors) and FinalFollowsItsRule (both phases). -/
theorem witness_update_final_phases :
    State.reset.b2.phase ≠ .active ∧ (activeWith 129 64 0).b2.phase = .active ∧
    128 < (activeWith 129 64 0).b2.param0.toNat := by decide

/-- ChunkingDoesNotShow and CommandsComputeTheBlockwiseHash: one message cut in two ways, with a key, from two states. -/
theorem witness_chunks :
    Memory.wf State.reset.mem = true ∧ Memory.wf (holding (activeWith 3 32 5) .din hello).mem = true ∧ 1 ≤ 64 ∧ 64 ≤ 64 ∧ ([0x01] : List Byte).length ≤ 64 ∧
    (∀ chunk ∈ ([[0x61, 0x62], [0x63]] ++ [[0x61], [], [0x62, 0x63]] : List (List Byte)), chunk.length ≤ 128) ∧
    ([[0x61, 0x62], [0x63]] : List (List Byte)).flatten = ([[0x61], [], [0x62, 0x63]] : List (List Byte)).flatten := by
  decide

/-- DigitMapInvertsTheAlphabet: the ends of the runs of 40_base58.md R120. -/
theorem test_alphabet_runs :
    [0, 8, 9, 16, 17, 21, 22, 32, 33, 43, 44, 57].map symbolOf =
      [0x31, 0x39, 0x41, 0x48, 0x4A, 0x4E, 0x50, 0x5A, 0x61, 0x6B, 0x6D, 0x7A] := by decide

/-- FoldMultipliesBy58AndAdds: the largest digit. -/
theorem witness_fold : 57 < 58 := by decide

/-- The needed length of "Hello World!" is 17 (95_test_vectors.md V-N12), whatever the room is. -/
theorem hello_needed :
    encodeNeeded (holding (b58With 12 18) .bin hello) = 17 ∧ encodeNeeded (holding (b58With 12 17) .bin hello) = 17 := by
  have h1 : encodeValue (holding (b58With 12 18) .bin hello) = 0x48656C6C6F20576F726C6421 := by decide +kernel
  have h2 : encodeValue (holding (b58With 12 17) .bin hello) = 0x48656C6C6F20576F726C6421 := by decide +kernel
  have h3 : encodeZeros (holding (b58With 12 18) .bin hello) = 0 := by decide +kernel
  have h4 : encodeZeros (holding (b58With 12 17) .bin hello) = 0 := by decide +kernel
  unfold encodeNeeded
  rw [h1, h2, h3, h4]
  norm_num [base58Digits]

/-- EncodeWritesTheBase58Text: the least room that is enough. -/
theorem witness_encode_room :
    (holding (b58With 12 18) .bin hello).cfg.wf = true ∧ Memory.wf (holding (b58With 12 18) .bin hello).mem = true ∧
    (holding (b58With 12 18) .bin hello).b58.param0.toNat ≤ (holding (b58With 12 18) .bin hello).cfg.maxLen ∧
    encodeNeeded (holding (b58With 12 18) .bin hello) < (holding (b58With 12 18) .bin hello).b58.param1.toNat := by
  rw [hello_needed.1]
  decide

/-- EncodeReportsTheRequiredLength: one less. -/
theorem witness_encode_no_room :
    (holding (b58With 12 17) .bin hello).cfg.wf = true ∧
    (holding (b58With 12 17) .bin hello).b58.param0.toNat ≤ (holding (b58With 12 17) .bin hello).cfg.maxLen ∧
    (holding (b58With 12 17) .bin hello).b58.param1.toNat ≤ encodeNeeded (holding (b58With 12 17) .bin hello) := by
  rw [hello_needed.2]
  decide

/-- EncodeRefusesLongInput, and EncodeStaysInItsBounds: a next state. -/
theorem witness_encode_long :
    (b58With 257 18).cfg.maxLen < (b58With 257 18).b58.param0.toNat ∧
    isNext (exec .b58Encode (holding (b58With 12 18) .bin hello)) = true := by decide

/-- DecodeStoresTheValue: "112" at the least width, the length by a scan. -/
theorem witness_decode_scan :
    (holding (b58With 0 3) .txt [0x31, 0x31, 0x32]).cfg.wf = true ∧
    Memory.wf (holding (b58With 0 3) .txt [0x31, 0x31, 0x32]).mem = true ∧
    3 = (holding (b58With 0 3) .txt [0x31, 0x31, 0x32]).b58.param1.toNat ∧
    3 ≤ (holding (b58With 0 3) .txt [0x31, 0x31, 0x32]).cfg.maxLen ∧
    TextLength (holding (b58With 0 3) .txt [0x31, 0x31, 0x32]) 3 ∧
    winBytes (holding (b58With 0 3) .txt [0x31, 0x31, 0x32]) .txt 3 = textOf 2 [1] ∧
    PlainDigits [1] ∧ 2 + byteLen (digitsValue [1]) ≤ 3 := by
  refine ⟨by decide, by decide, by decide, by decide, .inr (by decide), by decide,
    ⟨by decide, by decide⟩, ?_⟩
  norm_num [byteLen, digitsValue]

/-- DecodeStoresTheValue: "5Q" at the least width, the length by PARAM0. -/
theorem witness_decode_length :
    (holding (b58With 2 1) .txt [0x35, 0x51]).cfg.wf = true ∧
    Memory.wf (holding (b58With 2 1) .txt [0x35, 0x51]).mem = true ∧
    1 = (holding (b58With 2 1) .txt [0x35, 0x51]).b58.param1.toNat ∧
    1 ≤ (holding (b58With 2 1) .txt [0x35, 0x51]).cfg.maxLen ∧
    TextLength (holding (b58With 2 1) .txt [0x35, 0x51]) 2 ∧
    winBytes (holding (b58With 2 1) .txt [0x35, 0x51]) .txt 2 = textOf 0 [4, 23] ∧
    PlainDigits [4, 23] ∧ 0 + byteLen (digitsValue [4, 23]) ≤ 1 := by
  refine ⟨by decide, by decide, by decide, by decide, .inl (by decide), by decide,
    ⟨by decide, by decide⟩, ?_⟩
  norm_num [byteLen, digitsValue]

/-- DecodeRefusesWhatDoesNotFit: "5R" at width 1, with a character left over. -/
theorem witness_decode_too_wide :
    1 = (holding (b58With 0 1) .txt [0x35, 0x52, 0x30]).b58.param1.toNat ∧
    1 ≤ (holding (b58With 0 1) .txt [0x35, 0x52, 0x30]).cfg.maxLen ∧
    TextLength (holding (b58With 0 1) .txt [0x35, 0x52, 0x30]) 3 ∧
    winBytes (holding (b58With 0 1) .txt [0x35, 0x52, 0x30]) .txt 3 = textOf 0 [4, 24] ++ [0x30] ∧ PlainDigits [4, 24] ∧
    2 ^ (8 * 1) ≤ digitsValue [4, 24] :=
  ⟨by decide, by decide, .inr (by decide), by decide, ⟨by decide, by decide⟩, by decide⟩

/-- DecodeRefusesWhatDoesNotFit: "112" at width 2, where the value fits and the zeros do not. -/
theorem witness_decode_zeros_too_wide :
    2 = (holding (b58With 0 2) .txt [0x31, 0x31, 0x32]).b58.param1.toNat ∧
    2 ≤ (holding (b58With 0 2) .txt [0x31, 0x31, 0x32]).cfg.maxLen ∧
    TextLength (holding (b58With 0 2) .txt [0x31, 0x31, 0x32]) 3 ∧
    winBytes (holding (b58With 0 2) .txt [0x31, 0x31, 0x32]) .txt 3 = textOf 2 [1] ++ [] ∧ PlainDigits [1] ∧
    2 < 2 + byteLen (digitsValue [1]) := by
  refine ⟨by decide, by decide, .inr (by decide), by decide, ⟨by decide, by decide⟩, ?_⟩
  norm_num [byteLen, digitsValue]

/-- DecodeRefusesOtherCharacters: '0' after the largest value of the width. -/
theorem witness_decode_character :
    1 = (holding (b58With 0 1) .txt [0x35, 0x51, 0x30]).b58.param1.toNat ∧
    1 ≤ (holding (b58With 0 1) .txt [0x35, 0x51, 0x30]).cfg.maxLen ∧
    TextLength (holding (b58With 0 1) .txt [0x35, 0x51, 0x30]) 3 ∧
    winBytes (holding (b58With 0 1) .txt [0x35, 0x51, 0x30]) .txt 3 = textOf 0 [4, 23] ++ 0x30 :: [] ∧
    PlainDigits [4, 23] ∧ digitsValue [4, 23] < 2 ^ (8 * 1) ∧ ∀ d < 58, symbolOf d ≠ 0x30 :=
  ⟨by decide, by decide, .inr (by decide), by decide, ⟨by decide, by decide⟩, by decide,
    by decide⟩

/-- DecodeRefusesBadLengths: each of the three reasons, the third at N = 1 with a window full of '1's. -/
theorem witness_decode_lengths :
    State.reset.cfg.maxLen < (b58With 0 257).b58.param1.toNat ∧ State.reset.cfg.txtSize < (b58With 356 4).b58.param0.toNat ∧
    ((holding (State.resetWith { maxLen := 1 }) .txt [0x31, 0x31, 0x31]).b58.param0.toNat = 0 ∧
      ∀ k < Config.txtSize { maxLen := 1 },
        winRead (holding (State.resetWith { maxLen := 1 }) .txt [0x31, 0x31, 0x31]) .txt k ≠ 0) := by
  decide

/-- DecodeOfEncodeIsTheInput: a width above the length of the input. -/
theorem witness_round_trip :
    (holding (b58With 12 18) .bin hello).cfg.wf = true ∧ Memory.wf (holding (b58With 12 18) .bin hello).mem = true ∧
    12 = (holding (b58With 12 18) .bin hello).b58.param0.toNat ∧ 12 ≤ 16 ∧
    16 ≤ (holding (b58With 12 18) .bin hello).cfg.maxLen ∧
    encodeNeeded (holding (b58With 12 18) .bin hello) < (holding (b58With 12 18) .bin hello).b58.param1.toNat := by
  rw [hello_needed.1]
  decide

/-! ### B2.FINAL and the compression function -/

/-- V-B3 with V-H6's digest length: the digest of "abc" at one byte, 0 in the rest of DOUT. -/
theorem test_final_abc :
    goes (hashAll State.reset 1 [] [[0x61, 0x62, 0x63]]) (fun t =>
      winBytes t .dout 2 == [0x6B, 0x00] && statusOf t .b2 == 0x00000200 && t.b2.t == 3 && t.b2.c == 128) = true := by
  decide +kernel

/-- V-H14 begins 10 eb b6 77: the key block alone, final, with t = 128. -/
theorem test_final_keyed_empty :
    goes (hashAll State.reset 64 ((List.range 64).map (BitVec.ofNat 8)) []) (fun t =>
      winBytes t .dout 4 == [0x10, 0xEB, 0xB6, 0x77] && t.b2.t == 128) = true := by decide +kernel

/-- V-C3: an all-zero block with the high counter word. -/
theorem test_compress_high_counter :
    (compress (blakeIV.set 0 (blakeIV[0] ^^^ paramWord 64 0)) (Vector.replicate 128 0) (BitVec.ofNat 128 (2 ^ 64)) false)[0] =
      0xF96013FC926706C6 := by decide +kernel

end Sys2Proof.Tests
end

section
/-! PROOFS of the statements of 10_state.md: the reset values (R45) and the phase transitions (R28). -/

namespace Sys2Proof.Machine

/-! ### The reset values -/

@[simp] theorem latchOf_reset (u : DevUnit) : latchOf State.reset u = { pending := false, word := 0 } := by
  cases u <;> rfl
@[simp] theorem statusOf_reset (u : DevUnit) : statusOf State.reset u = 0 := by cases u <;> decide
@[simp] theorem param0Of_reset (u : DevUnit) : param0Of State.reset u = 0 := by cases u <;> rfl
@[simp] theorem param1Of_reset (u : DevUnit) : param1Of State.reset u = 0 := by cases u <;> rfl
@[simp] theorem winRead_reset (w : Window) (k : Nat) : winRead State.reset w k = 0 := memRead_nil _

/-- Settles O24: every row of 10_state.md R45. -/
theorem resetStateHoldsTheResetValues : Obligations.ResetStateHoldsTheResetValues := by
  refine ⟨fun k hk => ?_, rfl, fun k hk => ?_, rfl, rfl, rfl,
    fun u => ⟨latchOf_reset u, statusOf_reset u, param0Of_reset u, param1Of_reset u⟩, winRead_reset⟩
  · exact Vector.getElem_replicate hk
  · exact Vector.getElem_replicate hk

/-! ### The phase after each command of B2 -/

@[simp] theorem finish_b2_phase (s : State) (e : ResultCode) : (finish s .b2 e).b2.phase = s.b2.phase := rfl
@[simp] theorem finish_b2_err (s : State) (e : ResultCode) : (finish s .b2 e).b2.err = e := rfl

/-- The parameters B2.INIT accepts, 41_blake2b.md R179. -/
theorem initInvalid_eq_false_iff (nn kk : Nat) : initInvalid nn kk = false ↔ 1 ≤ nn ∧ nn ≤ 64 ∧ kk ≤ 64 := by
  simp only [initInvalid, Bool.or_eq_false_iff, beq_eq_false_iff_ne, decide_eq_false_iff_not]
  omega

theorem execB2Init_phase {s t : State} (h : execB2Init s = .next t) :
    t.b2.phase = if 1 ≤ initDigestLen s ∧ initDigestLen s ≤ 64 ∧ initKeyLen s ≤ 64 then .active else .inert := by
  simp only [← initInvalid_eq_false_iff]
  obtain ⟨m, -, -, -, -, ⟨hbad, he⟩ | ⟨hgood, he⟩⟩ := execB2Init_cases s
  · cases he.symm.trans h
    simp [hbad, zeroContext]
  · cases he.symm.trans h
    simp [hgood]

theorem execB2Update_phase {s t : State} (h : execB2Update s = .next t) : t.b2.phase = s.b2.phase := by
  obtain ⟨-, he⟩ | ⟨-, -, he⟩ | ⟨-, -, he⟩ := execB2Update_cases s <;> cases he.symm.trans h <;> simp

theorem execB2Update_err_of_not_active {s t : State} (h : execB2Update s = .next t) (hp : s.b2.phase ≠ .active) :
    t.b2.err = .sequenceError := by
  obtain ⟨-, he⟩ | ⟨ha, -⟩ | ⟨ha, -⟩ := execB2Update_cases s
  · cases he.symm.trans h
    rfl
  · exact absurd ha hp
  · exact absurd ha hp

theorem execB2Update_err_of_active {s t : State} (h : execB2Update s = .next t) (hp : s.b2.phase = .active) :
    t.b2.err = .ok ∨ t.b2.err = .capacityExceeded := by
  obtain ⟨hn, -⟩ | ⟨-, -, he⟩ | ⟨-, -, he⟩ := execB2Update_cases s
  · exact absurd hp hn
  · cases he.symm.trans h
    exact .inr rfl
  · cases he.symm.trans h
    exact .inl rfl

theorem execB2Final_phase_of_active {s t : State} (h : execB2Final s = .next t) (hp : s.b2.phase = .active) :
    t.b2.phase = .finalized := by
  obtain ⟨hn, -⟩ | ⟨-, m, -, -, -, -, he⟩ := execB2Final_cases s
  · exact absurd hp hn
  · cases he.symm.trans h
    rfl

theorem execB2Final_of_not_active {s t : State} (h : execB2Final s = .next t) (hp : s.b2.phase ≠ .active) :
    t.b2.phase = s.b2.phase ∧ t.b2.err = .sequenceError := by
  obtain ⟨-, he⟩ | ⟨ha, -⟩ := execB2Final_cases s
  · cases he.symm.trans h
    exact ⟨rfl, rfl⟩
  · exact absurd ha hp

/-! ### The phase after the other completions and steps -/

/-- The words of the three B2 commands, 30_encoding.md R93. -/
theorem decode_b2_ok {w : Word32} {i : Instr} (h : decode .b2 w = .ok i) : w = 1 ∨ w = 2 ∨ w = 3 := by
  obtain ⟨hu, rfl⟩ := decode_ok h
  cases i with
  | b2Init => exact .inl rfl
  | b2Update => exact .inr (.inl rfl)
  | b2Final => exact .inr (.inr rfl)
  | b58Encode => cases hu
  | b58Decode => cases hu

/-- A completion of B2 whose word is no command, or of an idle unit, keeps the phase. -/
theorem complete_b2_phase_of_illegal {s t : State} (h : complete .b2 s = .next t) (h1 : s.b2.latch.word ≠ 1)
    (h2 : s.b2.latch.word ≠ 2) (h3 : s.b2.latch.word ≠ 3) : t.b2.phase = s.b2.phase := by
  obtain ⟨-, he⟩ | ⟨-, -, he⟩ | ⟨-, i, hd, -⟩ := complete_cases .b2 s
  · cases he.symm.trans h
    rfl
  · cases he.symm.trans h
    rfl
  · obtain hw | hw | hw := decode_b2_ok hd
    · exact absurd hw h1
    · exact absurd hw h2
    · exact absurd hw h3

theorem SameB58.refl (s : State) : SameB58 s s := ⟨rfl, rfl, fun _ _ => rfl⟩

/-- A completion of B58 leaves the registers of B2 (20_memory.md R77). -/
theorem complete_b58_b2 {s t : State} (h : complete .b58 s = .next t) : t.b2 = s.b2 := by
  obtain ⟨x, off, bs, -, he⟩ := complete_b58_local s
  cases (he s (.refl s)).symm.trans h
  rfl

@[simp] theorem writeReg_phase (s : State) (u : DevUnit) (v : Word32) (r : Reg) :
    (writeReg s u v r).b2.phase = s.b2.phase := by
  cases u <;> cases r <;> rfl

theorem busWrite_phase {s t : State} {a v : Nat} {size : AccessSize} (h : busWrite s a size v = .ok t) :
    t.b2.phase = s.b2.phase := by
  obtain ⟨-, ⟨u, r, -, -, -, -, -, rfl⟩ | ⟨w, k, -, -, -, -, rfl⟩⟩ := busWrite_ok h
  · exact writeReg_phase ..
  · rfl

theorem hostStep_phase {s t : State} (h : hostStep s = .next t) : t.b2.phase = s.b2.phase := by
  obtain he | ⟨off, size, v, t', hw, rfl⟩ := hostStep_cases h
  · rw [he]
  · rw [hostAdvance_b2, busWrite_phase hw]

/-- Only the engine of B2 and the reset input can change the phase. -/
theorem agentStep_phase {s t : State} {a : Agent} (ha : a ≠ .engine .b2) (hr : a ≠ .reset)
    (h : agentStep a s = .next t) : t.b2.phase = s.b2.phase := by
  match a with
  | .host => exact hostStep_phase h
  | .engine .b2 => exact absurd rfl ha
  | .engine .b58 => rw [complete_b58_b2 h]
  | .reset => exact absurd rfl hr

theorem deviceReset_phase (s : State) : (deviceReset s).b2.phase = .uninit := rfl

/-- Settles O33: the table of 10_state.md R28, a lemma for each column, and the steps that make no transition. -/
theorem phaseTransitions : Obligations.PhaseTransitions := by
  intro s t
  refine ⟨fun h => ?init, fun h => ?update, fun h => ?final, fun h _ => complete_b2_phase_of_illegal h,
    fun a => agentStep_phase, fun h => ?reset⟩
  case init => exact execB2Init_phase h
  case update => exact ⟨execB2Update_phase h, execB2Update_err_of_not_active h, execB2Update_err_of_active h⟩
  case final => exact ⟨execB2Final_phase_of_active h, execB2Final_of_not_active h⟩
  case reset =>
    cases h
    exact deviceReset_phase s

end Sys2Proof.Machine
end

section
/-! PROOFS of the statements of 20_memory.md: what a busy unit answers (R71) and how a register is reached (R65). -/

namespace Sys2Proof.Machine

/-- An access that no outcome of a performed access fits is a BusError. -/
theorem exists_error_of_ne_ok {ε α : Type} {x : Except ε α} (h : ∀ a, x ≠ .ok a) : ∃ e, x = .error e := by
  cases x with
  | error e => exact ⟨e, rfl⟩
  | ok a => exact absurd rfl (h a)

/-! ### A busy unit -/

theorem busWrite_error_of_pending {s : State} {a : Nat} (hp : (latchOf s (blockOf a)).pending = true)
    (size : AccessSize) (v : Nat) : ∃ e, busWrite s a size v = .error e := by
  refine exists_error_of_ne_ok fun t h => ?_
  obtain ⟨hidle, -⟩ := busWrite_ok h
  exact absurd (hidle.symm.trans hp) Bool.false_ne_true

theorem busRead_error_of_pending {s : State} {a : Nat} {size : AccessSize} (hp : (latchOf s (blockOf a)).pending = true)
    (hne : ¬ (size = .word ∧ a = regOffset (blockOf a) .status)) : ∃ e, busRead s a size = .error e := by
  refine exists_error_of_ne_ok fun v h => ?_
  obtain ⟨hidle | hstatus, -⟩ := busRead_ok h
  · exact absurd (hidle.symm.trans hp) Bool.false_ne_true
  · exact hne hstatus

theorem locate_regOffset_self (cfg : Config) (u : DevUnit) (r : Reg) : locate cfg (regOffset u r) = .reg u r :=
  locate_regOffset cfg u r 0 (by omega)

theorem coversReserved_regOffset (cfg : Config) (u : DevUnit) (r : Reg) :
    coversReserved cfg (regOffset u r) 4 = false := by
  simp only [coversReserved, List.any_eq_false, List.mem_range]
  intro i hi
  simp [locate_regOffset cfg u r i hi]

/-- The checks of 20_memory.md R69 let a whole read of STATUS through, whether the unit is busy or not. -/
theorem busCheck_status_read (s : State) (u : DevUnit) : busCheck s .read (regOffset u .status) 4 = none := by
  have halign : sizeAlignOk s.cfg (regOffset u .status) 4 = true := by simp [sizeAlignOk, locate_regOffset_self]
  have hread : isStatusRead u .read (regOffset u .status) 4 = true := by simp [isStatusRead]
  simp [busCheck, coversReserved_regOffset, halign, blockOf_regOffset, hread]

theorem busRead_status (s : State) (u : DevUnit) :
    busRead s (regOffset u .status) .word = .ok (statusOf s u).toNat := by
  simp [busRead, sizeBytes, busCheck_status_read, locate_regOffset_self, readReg]

/-! ### The latch of the other unit -/

theorem readReg_setLatch_ne (s : State) {u v : DevUnit} (l : Latch) (r : Reg) (h : u ≠ v) :
    readReg (setLatch s u l) v r = readReg s v r := by
  match u, v with
  | .b2, .b58 | .b58, .b2 => cases r <;> rfl
  | .b2, .b2 | .b58, .b58 => exact absurd rfl h

theorem writeReg_setLatch_ne (s : State) {u v : DevUnit} (l : Latch) (x : Word32) (r : Reg) (h : u ≠ v) :
    writeReg (setLatch s u l) v x r = setLatch (writeReg s v x r) u l := by
  match u, v with
  | .b2, .b58 | .b58, .b2 => cases r <;> rfl
  | .b2, .b2 | .b58, .b58 => exact absurd rfl h

/-- The checks read no latch but the one of the block accessed. -/
theorem busCheck_setLatch_ne (s : State) {u : DevUnit} (l : Latch) (kind : AccessKind) {a : Nat} (n : Nat)
    (h : u ≠ blockOf a) : busCheck (setLatch s u l) kind a n = busCheck s kind a n := by
  simp only [busCheck, setLatch_cfg, latchOf_setLatch_ne s l h]

theorem busRead_setLatch_ne (s : State) {u : DevUnit} (l : Latch) {a : Nat} (size : AccessSize) (h : u ≠ blockOf a) :
    busRead (setLatch s u l) a size = busRead s a size := by
  simp only [busRead, busCheck_setLatch_ne s l _ _ h, setLatch_cfg, setLatch_mem]
  cases busCheck s .read a (sizeBytes size) with
  | some e => rfl
  | none =>
    cases hl : locate s.cfg a with
    | reg v r =>
      obtain ⟨hv, -⟩ := locate_reg hl
      simp only [readReg_setLatch_ne s l r (hv ▸ h)]
    | window w k => rfl
    | reserved => rfl

theorem busWrite_setLatch_ne (s : State) {u : DevUnit} (l : Latch) {a : Nat} (size : AccessSize) (v : Nat)
    (h : u ≠ blockOf a) :
    busWrite (setLatch s u l) a size v = (busWrite s a size v).map fun t => setLatch t u l := by
  simp only [busWrite, busCheck_setLatch_ne s l _ _ h, setLatch_cfg, setLatch_mem]
  cases busCheck s .write a (sizeBytes size) with
  | some e => rfl
  | none =>
    cases hl : locate s.cfg a with
    | reg w r =>
      obtain ⟨hw, -⟩ := locate_reg hl
      simp only [writeReg_setLatch_ne s l _ r (hw ▸ h), Except.map]
    | window w k => cases u <;> rfl
    | reserved => rfl

/-- Settles O8: a performed access of a busy unit can only be the read of its STATUS, and the other latch is not looked at. -/
theorem busyUnitAnswersOnlyStatus : Obligations.BusyUnitAnswersOnlyStatus := by
  intro s a size
  refine ⟨fun hp => ⟨busWrite_error_of_pending hp size, busRead_error_of_pending hp, ?status⟩,
    fun u l hu => ⟨busRead_setLatch_ne s l size hu, fun v => busWrite_setLatch_ne s l size v hu⟩⟩
  case status =>
    rintro rfl ha
    calc busRead s a .word = busRead s (regOffset (blockOf a) .status) .word := by rw [← ha]
      _ = .ok (statusOf s (blockOf a)).toNat := busRead_status s (blockOf a)

/-! ### The parts of a register -/

theorem regOffset_aligned (u : DevUnit) (r : Reg) : regOffset u r % 4 = 0 := by cases u <;> cases r <;> rfl

/-- Each of a register's 4 bytes is mapped to it (20_memory.md R61). -/
theorem locate_register_byte (cfg : Config) {u : DevUnit} {r : Reg} {a : Nat} (hlow : regOffset u r ≤ a)
    (hhigh : a < regOffset u r + 4) : locate cfg a = .reg u r := by
  have h := locate_regOffset cfg u r (a - regOffset u r) (by omega)
  rwa [Nat.add_sub_cancel' hlow] at h

theorem busRead_ok_reg {s : State} {a v : Nat} {size : AccessSize} {u : DevUnit} {r : Reg}
    (hl : locate s.cfg a = .reg u r) (h : busRead s a size = .ok v) : size = .word ∧ a = regOffset u r := by
  obtain ⟨-, ⟨u', r', hl', hsize, ha, -⟩ | ⟨w, k, hl', -⟩⟩ := busRead_ok h
  · cases hl.symm.trans hl'
    exact ⟨hsize, ha⟩
  · cases hl.symm.trans hl'

theorem busWrite_ok_reg {s t : State} {a v : Nat} {size : AccessSize} {u : DevUnit} {r : Reg}
    (hl : locate s.cfg a = .reg u r) (h : busWrite s a size v = .ok t) : size = .word ∧ a = regOffset u r := by
  obtain ⟨-, ⟨u', r', hl', -, -, hsize, ha, -⟩ | ⟨w, k, hl', -⟩⟩ := busWrite_ok h
  · cases hl.symm.trans hl'
    exact ⟨hsize, ha⟩
  · cases hl.symm.trans hl'

/-- Settles O10: what a performed access at a byte of a register is, read and write. -/
theorem registersAreReachedWhole : Obligations.RegistersAreReachedWhole := by
  intro s u r a size hlow hhigh hpart
  have hl : locate s.cfg a = .reg u r := locate_register_byte s.cfg hlow hhigh
  exact ⟨regOffset_aligned u r, exists_error_of_ne_ok fun _ h => hpart (busRead_ok_reg hl h),
    fun _ => exists_error_of_ne_ok fun _ h => hpart (busWrite_ok_reg hl h)⟩

end Sys2Proof.Machine
end

section
/-! PROOFS of the statements of 30_encoding.md: the opcode map (R97), and what a word outside it does (R95). -/

namespace Sys2Proof.Machine

/-! ### The opcode map -/

theorem decode_encode (i : Instr) : decode i.devUnit (encode i) = .ok i := by cases i <;> rfl

/-- The decoder accepts a word exactly when it is the word of a command of the unit. -/
theorem decode_ok_iff {u : DevUnit} {w : Word32} {i : Instr} :
    decode u w = .ok i ↔ i.devUnit = u ∧ encode i = w := by
  constructor
  · exact decode_ok
  · rintro ⟨rfl, rfl⟩
    exact decode_encode i

/-- Settles O1: what the decoder accepts, read off for each command from its unit and its word. -/
theorem decodeIsTheOpcodeMap : Obligations.DecodeIsTheOpcodeMap := by
  intro u w i
  rw [decode_ok_iff]
  cases i <;> simp [Instr.devUnit, encode, eq_comm]

/-! ### A word outside the map -/

/-- The words of the two B58 commands, 30_encoding.md R94. -/
theorem decode_b58_ok {w : Word32} {i : Instr} (h : decode .b58 w = .ok i) : w = 1 ∨ w = 2 := by
  obtain ⟨hu, rfl⟩ := decode_ok h
  cases i with
  | b58Encode => exact .inl rfl
  | b58Decode => exact .inr rfl
  | b2Init => cases hu
  | b2Update => cases hu
  | b2Final => cases hu

/-- Every word written to the CMD register of an idle unit is issued, a command or not (20_memory.md R72). -/
theorem busWrite_cmd {s : State} {u : DevUnit} (v : Word32) (hp : (latchOf s u).pending = false) :
    busWrite s (regOffset u .cmd) .word v.toNat = .ok (issue s u v) := by
  have hcheck : busCheck s .write (regOffset u .cmd) 4 = none := by simp [busCheck_reg s u .cmd .write hp]
  simp [busWrite, sizeBytes, hcheck, locate_regOffset_self, writeReg]

theorem complete_of_no_command {s : State} {u : DevUnit} {w : Word32}
    (hl : latchOf s u = { pending := true, word := w }) (hw : ∀ i, decode u w ≠ .ok i) :
    complete u s = .next (finish s u .illegalCommand) := by
  obtain ⟨hidle, -⟩ | ⟨-, -, he⟩ | ⟨-, i, hd, -⟩ := complete_cases u s
  · rw [hl] at hidle
    cases hidle
  · exact he
  · rw [hl] at hd
    exact absurd hd (hw i)

/-- Settles O4: a write of CMD issues whatever the word is, and the completion of no command is `finish` alone. -/
theorem illegalWordOnlySetsIllegalCommand : Obligations.IllegalWordOnlySetsIllegalCommand := by
  intro s w
  refine ⟨fun h1 h2 h3 => ⟨busWrite_cmd (u := .b2) w, fun hl => ?b2⟩,
    fun h1 h2 => ⟨busWrite_cmd (u := .b58) w, fun hl => ?b58⟩⟩
  case b2 =>
    have hw : ∀ i, decode .b2 w ≠ .ok i := fun _ hd => (decode_b2_ok hd).elim h1 (·.elim h2 h3)
    rw [complete_of_no_command (u := .b2) hl hw, finish_b2]
  case b58 =>
    have hw : ∀ i, decode .b58 w ≠ .ok i := fun _ hd => (decode_b58_ok hd).elim h1 h2
    rw [complete_of_no_command (u := .b58) hl hw, finish_b58]

end Sys2Proof.Machine
end

section
/-! PROOFS of the statements of 40_base58.md: the digit map (R121), what B58.ENCODE (R127) and B58.DECODE (R130) write, and that
the one undoes the other (R133). -/

namespace Sys2Proof.Machine

/-! ### The alphabet and the digit map -/

/-- The code of the symbol of a digit, run by run of the alphabet (40_base58.md R120). -/
def symbolCode (d : Nat) : Nat :=
  if d < 9 then 0x31 + d else if d < 17 then 0x41 + (d - 9) else if d < 22 then 0x4A + (d - 17)
  else if d < 33 then 0x50 + (d - 22) else if d < 44 then 0x61 + (d - 33) else 0x6D + (d - 44)

theorem symbolOf_toNat : ∀ d < 58, (symbolOf d).toNat = symbolCode d := by decide

/-- The codes of the six runs (40_base58.md R121). -/
theorem exists_symbolCode_iff (n : Nat) : (∃ d < 58, symbolCode d = n) ↔
    (0x31 ≤ n ∧ n ≤ 0x39) ∨ (0x41 ≤ n ∧ n ≤ 0x48) ∨ (0x4A ≤ n ∧ n ≤ 0x4E) ∨ (0x50 ≤ n ∧ n ≤ 0x5A) ∨
      (0x61 ≤ n ∧ n ≤ 0x6B) ∨ (0x6D ≤ n ∧ n ≤ 0x7A) := by
  unfold symbolCode
  constructor
  · rintro ⟨d, hd, rfl⟩
    split_ifs <;> omega
  · rintro (h | h | h | h | h | h)
    · exact ⟨n - 0x31, by omega, by split_ifs <;> omega⟩
    · exact ⟨n - 0x41 + 9, by omega, by split_ifs <;> omega⟩
    · exact ⟨n - 0x4A + 17, by omega, by split_ifs <;> omega⟩
    · exact ⟨n - 0x50 + 22, by omega, by split_ifs <;> omega⟩
    · exact ⟨n - 0x61 + 33, by omega, by split_ifs <;> omega⟩
    · exact ⟨n - 0x6D + 44, by omega, by split_ifs <;> omega⟩

theorem digitOf_eq_some_iff (ch : Byte) (d : Nat) : digitOf ch = some d ↔ d < 58 ∧ symbolOf d = ch := by
  constructor
  · exact digitOf_some
  · rintro ⟨hd, rfl⟩
    exact (symbolOf_digit d hd).2

theorem symbolOf_eq_iff {d : Nat} (hd : d < 58) (ch : Byte) : symbolOf d = ch ↔ symbolCode d = ch.toNat := by
  rw [← BitVec.toNat_inj, symbolOf_toNat d hd]

theorem digitOf_isSome_iff (ch : Byte) : (digitOf ch).isSome = true ↔ ∃ d < 58, symbolCode d = ch.toNat := by
  rw [Option.isSome_iff_exists]
  refine exists_congr fun d => ?_
  rw [digitOf_eq_some_iff]
  exact and_congr_right fun hd => symbolOf_eq_iff hd ch

/-- Settles O47: the runs of the alphabet, and the codes they cover. -/
theorem digitMapInvertsTheAlphabet : Obligations.DigitMapInvertsTheAlphabet :=
  ⟨symbolOf_toNat, fun ch => ⟨digitOf_eq_some_iff ch, (digitOf_isSome_iff ch).trans (exists_symbolCode_iff ch.toNat)⟩⟩

/-! ### The encoder's conversion (40_base58.md R124) -/

/-- The loop appends the input bytes to the value of the digits, if the result fits the positions. -/
theorem digitsLoop_value {bs : List Byte} {dig : List Nat} {hw : Nat} (hle : hw ≤ dig.length)
    (hz : ∀ d ∈ dig.drop hw, d = 0) (hd : ∀ d ∈ dig, d < 58)
    (hfit : 256 ^ bs.length * Nat.ofDigits 58 dig + beValue bs < 58 ^ dig.length) :
    ∃ dig', digitsLoop bs dig hw = some dig' ∧ (∀ d ∈ dig', d < 58) ∧
      Nat.ofDigits 58 dig' = 256 ^ bs.length * Nat.ofDigits 58 dig + beValue bs := by
  induction bs generalizing dig hw with
  | nil => exact ⟨dig, rfl, hd, by simp⟩
  | cons b bs ih =>
    have hsplit : 256 ^ (b :: bs).length * Nat.ofDigits 58 dig + beValue (b :: bs) =
        256 ^ bs.length * (256 * Nat.ofDigits 58 dig + b.toNat) + beValue bs := by
      rw [beValue_cons, List.length_cons, pow_succ]
      ring
    have hbyte : 256 * Nat.ofDigits 58 dig + b.toNat < 58 ^ dig.length := by
      have := Nat.le_mul_of_pos_left (256 * Nat.ofDigits 58 dig + b.toNat) (show 0 < 256 ^ bs.length by positivity)
      omega
    obtain ⟨⟨dig₁, n⟩, hpass⟩ := Option.isSome_iff_exists.1 (carryPass_isSome hle hbyte)
    obtain ⟨hval, hlen, hd₁, hz₁⟩ := carryPass_value hpass hz hd
    rw [hsplit, ← hval] at hfit ⊢
    obtain ⟨dig', hloop, hd', hval'⟩ := ih (carryPass_le hpass) hz₁ hd₁ (hlen ▸ hfit)
    exact ⟨dig', by simp [digitsLoop, hpass, hloop], hd', hval'⟩

/-- With enough positions the conversion gives the digits of the value. -/
theorem b58Digits_eq {src : List Byte} {size : Nat} (hfit : beValue src < 58 ^ size) :
    b58Digits src size = some (base58Digits (beValue src)) := by
  have h0 : Nat.ofDigits 58 (List.replicate size 0) = 0 := by simp [Nat.ofDigits_replicate_zero]
  obtain ⟨dig, hloop, hd, hval⟩ := digitsLoop_value (bs := src) (dig := List.replicate size 0) (hw := 0) (by simp)
    (by simp) (by simp) (by simpa [h0] using hfit)
  rw [h0, Nat.mul_zero, Nat.zero_add] at hval
  rw [b58Digits, hloop, Option.map_some, dropWhile_zero_eq_digits _ (by simpa using hd), List.reverse_reverse, hval,
    base58Digits]

/-! ### The state after a B58 command that ends OK -/

/-- The bytes bs written to a window from its start, n in PARAM1, and the end with OK (40_base58.md R127, R130). -/
def b58Done (s : State) (x : Window) (bs : List Byte) (n : Nat) : State :=
  finish (setParam1 (winWrite s x bs) .b58 (BitVec.ofNat 32 n)) .b58 .ok

theorem b58Done_eq (s : State) (x : Window) (bs : List Byte) (n : Nat) :
    b58Done s x bs n = { s with b58 := (b58Done s x bs n).b58, mem := (b58Done s x bs n).mem } := rfl

theorem b58Done_b58 (s : State) (x : Window) (bs : List Byte) (n : Nat) : (b58Done s x bs n).b58 =
    { s.b58 with param1 := BitVec.ofNat 32 n, err := .ok, latch := { s.b58.latch with pending := false } } := rfl

@[simp] theorem b58Done_cfg (s : State) (x : Window) (bs : List Byte) (n : Nat) : (b58Done s x bs n).cfg = s.cfg := rfl

@[simp] theorem b58Done_err (s : State) (x : Window) (bs : List Byte) (n : Nat) : (b58Done s x bs n).b58.err = .ok := rfl

@[simp] theorem b58Done_mem (s : State) (x : Window) (bs : List Byte) (n : Nat) :
    (b58Done s x bs n).mem = memWriteBytes s.mem (winBase x) bs := rfl

theorem b58Done_winBytes {s : State} (hwf : Memory.wf s.mem = true) (x : Window) (bs : List Byte) (n : Nat) :
    winBytes (b58Done s x bs n) x bs.length = bs := by
  rw [winBytes, b58Done_mem, memReadBytes_memWriteBytes _ _ _ hwf]

theorem b58Done_frame (s : State) (x : Window) (bs : List Byte) (n : Nat) {a : Nat}
    (ha : ¬ (winBase x ≤ a ∧ a < winBase x + bs.length)) : memRead (b58Done s x bs n).mem a = memRead s.mem a := by
  rw [b58Done_mem, memRead_memWriteBytes_out _ _ _ _ ha]

/-- A number no larger than some register's fits a register. -/
theorem toNat_ofNat_of_le {n : Nat} {v : Word32} (h : n ≤ v.toNat) : (BitVec.ofNat 32 n).toNat = n := by
  rw [BitVec.toNat_ofNat, Nat.mod_eq_of_lt (Nat.lt_of_le_of_lt h v.isLt)]

theorem b58Done_param1 (s : State) (x : Window) (bs : List Byte) {n : Nat} {v : Word32} (h : n ≤ v.toNat) :
    (b58Done s x bs n).b58.param1.toNat = n := by
  rw [b58Done_b58, toNat_ofNat_of_le h]

/-! ### B58.ENCODE -/

/-- The value of the input is the value of what follows its leading zeros. -/
theorem beValue_drop_encodeZeros (s : State) : beValue ((encodeData s).drop (encodeZeros s)) = encodeValue s := by
  conv_rhs => rw [encodeValue, leadingZeros_split (encodeData s), beValue_zeros]
  rfl

/-- What B58.ENCODE converts and the size it asks for: no Underflow (40_base58.md R129). -/
theorem b58Digits_encodeData (s : State) :
    b58Digits ((encodeData s).drop (encodeZeros s)) (encSize (encodeLen s - encodeZeros s)) =
      some (base58Digits (encodeValue s)) := by
  have hlt := (beValue_lt ((encodeData s).drop (encodeZeros s))).trans (pow_256_lt_pow_encSize _)
  rw [List.length_drop, encodeData_length] at hlt
  rw [b58Digits_eq hlt, beValue_drop_encodeZeros]

/-- The text of the input (40_base58.md R128). -/
def encodeText (s : State) : List Byte := textOf (encodeZeros s) (base58Digits (encodeValue s))

theorem encodeText_length (s : State) : (encodeText s).length = encodeNeeded s := by
  simp [encodeText, textOf, encodeNeeded]

/-- The state after a B58.ENCODE with room for its text. -/
def encodedState (s : State) : State := b58Done s .txt (encodeText s ++ [0x00]) (encodeNeeded s + 1)

/-- B58.ENCODE on at most N bytes: the text when there is room for it, else its length (40_base58.md R127). -/
theorem exec_b58Encode {s : State} (hlen : encodeLen s ≤ s.cfg.maxLen) :
    exec .b58Encode s = .next (if encodeCap s ≤ encodeNeeded s then
      finish (setParam1 s .b58 (BitVec.ofNat 32 (encodeNeeded s + 1))) .b58 .bufferTooSmall else encodedState s) := by
  have hsize : ¬ s.cfg.encWorkMax < encSize (encodeLen s - encodeZeros s) :=
    not_lt.2 (encSize_mono (by omega))
  have hdigits := b58Digits_encodeData s
  unfold encodeZeros at hsize hdigits
  show execB58Encode s = _
  simp only [execB58Encode, if_neg (not_lt.2 hlen), if_neg hsize, hdigits]
  exact (apply_ite Host.Outcome.next _ _ _).symm

theorem exec_b58Encode_of_room {s : State} (hlen : encodeLen s ≤ s.cfg.maxLen) (hroom : encodeNeeded s < encodeCap s) :
    exec .b58Encode s = .next (encodedState s) := by
  rw [exec_b58Encode hlen, if_neg (not_le.2 hroom)]

theorem encodedState_winBytes {s : State} (hwf : Memory.wf s.mem = true) :
    winBytes (encodedState s) .txt (encodeNeeded s + 1) = encodeText s ++ [0x00] := by
  have h := b58Done_winBytes hwf .txt (encodeText s ++ [0x00]) (encodeNeeded s + 1)
  rwa [List.length_append, encodeText_length] at h

/-- Settles O50: the next state is `encodedState`. -/
theorem encodeWritesTheBase58Text : Obligations.EncodeWritesTheBase58Text := by
  intro s _ hwf hlen hroom
  refine ⟨encodedState s, exec_b58Encode_of_room hlen hroom, encodedState_winBytes hwf, b58Done_param1 _ _ _ hroom,
    b58Done_b58 .., fun a ha => b58Done_frame _ _ _ _ ?_, b58Done_eq ..⟩
  rwa [List.length_append, encodeText_length]

/-! ### The decoder's loop (40_base58.md R125, R130) -/

/-- A fold is 58 times the accumulator and the digit, the carry included (40_base58.md R125). -/
theorem b58Fold_value (acc : List Word32) (d : Nat) :
    accValue (b58Fold acc d).1 + 2 ^ (32 * acc.length) * (b58Fold acc d).2 = 58 * accValue acc + d ∧
      (b58Fold acc d).1.length = acc.length := by
  induction acc with
  | nil => simp [b58Fold, accValue]
  | cons a acc ih =>
    obtain ⟨hval, hlen⟩ := ih
    have hword := Nat.mod_add_div (a.toNat * 58 + (b58Fold acc d).2) (2 ^ 32)
    have hpow : 2 ^ (32 * (acc.length + 1)) = 2 ^ (32 * acc.length) * 2 ^ 32 := by ring
    refine ⟨?_, by simp [b58Fold, hlen]⟩
    simp only [b58Fold, accValue_cons, List.length_cons, BitVec.toNat_ofNat, hlen, hpow]
    linear_combination 2 ^ (32 * acc.length) * hword + hval

/-- A fold whose result fits the width leaves no carry, so it is exact. -/
theorem b58Fold_of_fits {w d : Nat} {acc : List Word32} (hl : acc.length = (w + 3) / 4)
    (hfit : 58 * accValue acc + d < 2 ^ (8 * w)) :
    (b58Fold acc d).2 = 0 ∧ accValue (b58Fold acc d).1 = 58 * accValue acc + d := by
  obtain ⟨hval, -⟩ := b58Fold_value acc d
  have hcap : 2 ^ (8 * w) ≤ 2 ^ (32 * acc.length) := Nat.pow_le_pow_right (by norm_num) (by omega)
  have hcarry : (b58Fold acc d).2 = 0 := by
    by_contra hne
    have := Nat.le_mul_of_pos_right (2 ^ (32 * acc.length)) (Nat.pos_of_ne_zero hne)
    omega
  rw [hcarry] at hval
  exact ⟨hcarry, by simpa using hval⟩

theorem digitsValue_cons (d : Nat) (ds : List Nat) : digitsValue (d :: ds) = 58 ^ ds.length * d + digitsValue ds := by
  simpa [digitsValue] using digitsValue_append [d] ds

/-- One symbol whose fold fits the width. -/
theorem decodeChars_symbol {w d : Nat} (hd : d < 58) (cs : List Byte) {acc : List Word32}
    (hl : acc.length = (w + 3) / 4) (hfit : 58 * accValue acc + d < 2 ^ (8 * w)) :
    decodeChars w (symbolOf d :: cs) acc = decodeChars w cs (b58Fold acc d).1 := by
  obtain ⟨hbit, hdigit⟩ := symbolOf_digit d hd
  obtain ⟨hcarry, hval⟩ := b58Fold_of_fits hl hfit
  have hwidth : beyondWidth w (b58Fold acc d).1 = false := by
    rw [← Bool.not_eq_true, beyondWidth_iff w _ ((b58Fold_value acc d).2.trans hl), hval]
    omega
  simp only [decodeChars, hbit, hdigit, hcarry, hwidth, ne_eq, not_true_eq_false, Bool.false_eq_true, if_false]

/-- Digits whose value still fits the width are read into the accumulator, whatever follows them (40_base58.md R131). -/
theorem decodeChars_digits {w : Nat} {ds : List Nat} (rest : List Byte) {acc : List Word32} (hd : ∀ d ∈ ds, d < 58)
    (hl : acc.length = (w + 3) / 4) (hfit : 58 ^ ds.length * accValue acc + digitsValue ds < 2 ^ (8 * w)) :
    ∃ acc', decodeChars w (ds.map symbolOf ++ rest) acc = decodeChars w rest acc' ∧ acc'.length = (w + 3) / 4 ∧
      accValue acc' = 58 ^ ds.length * accValue acc + digitsValue ds := by
  induction ds generalizing acc with
  | nil => exact ⟨acc, rfl, hl, by simp [digitsValue]⟩
  | cons d ds ih =>
    have hsplit : 58 ^ (d :: ds).length * accValue acc + digitsValue (d :: ds) =
        58 ^ ds.length * (58 * accValue acc + d) + digitsValue ds := by
      rw [digitsValue_cons, List.length_cons, pow_succ]
      ring
    have hstep : 58 * accValue acc + d < 2 ^ (8 * w) := by
      have := Nat.le_mul_of_pos_left (58 * accValue acc + d) (show 0 < 58 ^ ds.length by positivity)
      omega
    rw [hsplit, ← (b58Fold_of_fits hl hstep).2] at hfit ⊢
    rw [List.map_cons, List.cons_append, decodeChars_symbol (hd d (by simp)) _ hl hstep]
    exact ih (fun x hx => hd x (by simp [hx])) ((b58Fold_value acc d).2.trans hl) hfit

/-! ### B58.DECODE -/

/-- The state after a B58.DECODE at width w of zc leading '1's and then digits of value v. -/
def decodedState (s : State) (w zc v : Nat) : State :=
  b58Done s .bin (beBytes w v) (zc + byteLen v)

/-- B58.DECODE of a text whose zeros and value fit the width (40_base58.md R130 to R132). -/
theorem exec_b58Decode_of_fits {s : State} {n w zc : Nat} {ds : List Nat} (hw : w = s.b58.param1.toNat)
    (hN : w ≤ s.cfg.maxLen) (hn : TextLength s n) (htext : winBytes s .txt n = textOf zc ds) (hds : PlainDigits ds)
    (hfit : zc + byteLen (digitsValue ds) ≤ w) :
    exec .b58Decode s = .next (decodedState s w zc (digitsValue ds)) := by
  have hv : digitsValue ds < 2 ^ (8 * w) := by
    rw [two_pow_eight_mul, ← byteLen_le_iff]
    omega
  have hzc : leadingCount 0x31 (textOf zc ds) = zc := by simpa using leadingCount_textOf zc ds [] hds (by simp)
  have hdrop : (textOf zc ds).drop zc = ds.map symbolOf ++ [] := by simpa using textOf_drop zc ds []
  obtain ⟨acc, hloop, hl, hval⟩ := decodeChars_digits (w := w) [] (acc := List.replicate ((w + 3) / 4) 0) hds.1 (by simp)
    (by rwa [accValue_zeros, Nat.mul_zero, Nat.zero_add])
  rw [accValue_zeros, Nat.mul_zero, Nat.zero_add] at hval
  have hwidth : decodeWidth s = w := hw.symm
  rw [execB58Decode_of_textLength (hw ▸ hN) hn, hwidth, htext, hzc, hdrop, hloop]
  simp only [decodeChars]
  rw [storeDecoded_eq s w zc acc hl (hval ▸ hv), hval, if_neg (by omega), decodedState, b58Done]

theorem decodedState_winBytes {s : State} (hwf : Memory.wf s.mem = true) (w zc v : Nat) :
    winBytes (decodedState s w zc v) .bin w = beBytes w v := by
  have h := b58Done_winBytes hwf .bin (beBytes w v) (zc + byteLen v)
  rwa [beBytes_length] at h

theorem beBytes_zero (n : Nat) : beBytes n 0 = List.replicate n 0 := by
  simp [beBytes, leBytes_eq_digits n 0 (by positivity), byteLen]

/-- A value of at most n bytes written in more bytes is right-aligned behind zeros. -/
theorem beBytes_eq_zeros_append {w n v : Nat} (hn : byteLen v ≤ n) (hw : n ≤ w) :
    beBytes w v = List.replicate (w - n) 0 ++ beBytes n v := by
  have h := beBytes_append (w - n) n 0 v ((byteLen_le_iff n v).1 hn)
  rwa [Nat.sub_add_cancel hw, Nat.zero_mul, Nat.zero_add, beBytes_zero] at h

/-- Settles O54: the next state is `decodedState`. -/
theorem decodeStoresTheValue : Obligations.DecodeStoresTheValue := by
  intro s n w zc ds _ hwf hw hN hn htext hds hfit
  have hbin := decodedState_winBytes hwf w zc (digitsValue ds)
  refine ⟨decodedState s w zc (digitsValue ds), exec_b58Decode_of_fits hw hN hn htext hds hfit, hbin, ?aligned,
    b58Done_param1 _ _ _ (hw ▸ hfit), b58Done_b58 .., fun a ha => b58Done_frame _ _ _ _ ?frame, b58Done_eq ..⟩
  case aligned =>
    have hzeros := beBytes_eq_zeros_append (v := digitsValue ds) le_rfl (Nat.le_add_left _ zc)
    rw [hbin, beBytes_eq_zeros_append (Nat.le_add_left _ _) hfit, hzeros, Nat.add_sub_cancel, List.append_assoc]
  case frame => rwa [beBytes_length]

/-! ### Decoding what was encoded (40_base58.md R133) -/

/-- The input bytes are the bytes of their value. -/
theorem beBytes_encodeValue (s : State) : beBytes (encodeLen s) (encodeValue s) = encodeData s := by
  rw [← encodeData_length]
  exact beBytes_beValue _

theorem byteLen_encodeValue_le (s : State) : byteLen (encodeValue s) ≤ encodeLen s := by
  rw [byteLen_le_iff, ← encodeData_length]
  exact beValue_lt _

/-- The leading zeros and the bytes of the value are the whole input. -/
theorem encodeZeros_add_byteLen (s : State) : encodeZeros s + byteLen (encodeValue s) = encodeLen s := by
  have hle := byteLen_encodeValue_le s
  have hlead := leadingCount_beBytes _ _ ((byteLen_le_iff _ _).1 hle)
  rw [beBytes_encodeValue] at hlead
  rw [encodeZeros, hlead, Nat.sub_add_cancel hle]

/-- The input bytes stand at the end of their value written in more bytes (40_base58.md R132). -/
theorem drop_beBytes_encodeValue {s : State} {w : Nat} (hw : encodeLen s ≤ w) :
    (beBytes w (encodeValue s)).drop (w - encodeLen s) = encodeData s := by
  rw [beBytes_eq_zeros_append (byteLen_encodeValue_le s) hw, List.drop_left' List.length_replicate,
    beBytes_encodeValue]

/-- No character of a text of digits is the terminator. -/
theorem textOf_ne_zero {zc : Nat} {ds : List Nat} (hds : ∀ d ∈ ds, d < 58) : ∀ ch ∈ textOf zc ds, ch ≠ 0 := by
  intro ch hch
  rw [textOf, List.mem_append, List.mem_replicate, List.mem_map] at hch
  obtain ⟨-, rfl⟩ | ⟨d, hd, rfl⟩ := hch
  · decide
  · exact symbolOf_ne_zero d (hds d hd)

theorem winBytes_getElem (s : State) (w : Window) (n k : Nat) (hk : k < (winBytes s w n).length) :
    (winBytes s w n)[k] = winRead s w k := memReadBytes_getElem ..

theorem winBytes_succ (s : State) (w : Window) (n : Nat) : winBytes s w (n + 1) = winBytes s w n ++ [winRead s w n] := by
  simp [winBytes, memReadBytes, winRead, List.range_succ]

/-- The text of an encoding and its terminator, as the decoder reads them. -/
theorem encodedState_text {s : State} (hwf : Memory.wf s.mem = true) :
    winBytes (encodedState s) .txt (encodeNeeded s) = encodeText s ∧
      winRead (encodedState s) .txt (encodeNeeded s) = 0 := by
  have h := encodedState_winBytes hwf
  rw [winBytes_succ] at h
  simpa using h

/-- What the host writes to have TXT decoded: a text length and a width. -/
def decodeRequest (s : State) (l w : Nat) : State :=
  setParam1 (setParam0 s .b58 (BitVec.ofNat 32 l)) .b58 (BitVec.ofNat 32 w)

@[simp] theorem decodeRequest_cfg (s : State) (l w : Nat) : (decodeRequest s l w).cfg = s.cfg := rfl
@[simp] theorem decodeRequest_mem (s : State) (l w : Nat) : (decodeRequest s l w).mem = s.mem := rfl
@[simp] theorem decodeRequest_param1 (s : State) (l w : Nat) :
    (decodeRequest s l w).b58.param1 = BitVec.ofNat 32 w := rfl
@[simp] theorem decodeRequest_decodeLen (s : State) (l w : Nat) :
    decodeLen (decodeRequest s l w) = (BitVec.ofNat 32 l).toNat := rfl
@[simp] theorem decodeRequest_winRead (s : State) (l w : Nat) (x : Window) (k : Nat) :
    winRead (decodeRequest s l w) x k = winRead s x k := rfl
@[simp] theorem decodeRequest_winBytes (s : State) (l w : Nat) (x : Window) (n : Nat) :
    winBytes (decodeRequest s l w) x n = winBytes s x n := rfl

/-- The decoder finds the length of the encoded text by the scan, and takes it when the host gives it. -/
theorem encodedState_textLength {s : State} (hwf : Memory.wf s.mem = true) (hlen : encodeLen s ≤ s.cfg.maxLen)
    (hroom : encodeNeeded s < encodeCap s) {l : Nat} (hl : l = 0 ∨ l = encodeNeeded s) (w : Nat) :
    TextLength (decodeRequest (encodedState s) l w) (encodeNeeded s) := by
  have hsize : encodeNeeded s < (decodeRequest (encodedState s) l w).cfg.txtSize := by
    rw [decodeRequest_cfg, encodedState, b58Done_cfg]
    exact encodeNeeded_lt_txtSize s hlen
  have hdecode : decodeLen (decodeRequest (encodedState s) l w) = l := by
    have hle : l ≤ encodeCap s := by omega
    rw [decodeRequest_decodeLen, toNat_ofNat_of_le hle]
  obtain ⟨htext, hterm⟩ := encodedState_text hwf
  by_cases h0 : l = 0
  · refine .inr ⟨hdecode.trans h0, hsize, by rwa [decodeRequest_winRead], fun k hk => ?_⟩
    have hchar : winRead (encodedState s) .txt k ∈ encodeText s := by
      rw [← htext, ← winBytes_getElem _ _ (encodeNeeded s) k (by simpa [winBytes] using hk)]
      exact List.getElem_mem _
    rw [decodeRequest_winRead]
    exact textOf_ne_zero (base58Digits_plain _).1 _ hchar
  · exact .inl ⟨hdecode.trans (hl.resolve_left h0), by omega, hsize.le⟩

/-- Settles O58: B58.ENCODE leaves `encodedState`, and B58.DECODE of its text leaves `decodedState`. -/
theorem decodeOfEncodeIsTheInput : Obligations.DecodeOfEncodeIsTheInput := by
  intro s n w hcfg hwf hn hnw hwN hroom
  subst hn
  have hcount : encodeZeros s + byteLen (encodeValue s) = s.b58.param0.toNat := encodeZeros_add_byteLen s
  have hlen : encodeLen s ≤ s.cfg.maxLen := hnw.trans hwN
  refine ⟨encodedState s, exec_b58Encode_of_room hlen hroom, b58Done_err .., fun l hl => ?_⟩
  have hw : w = (decodeRequest (encodedState s) l w).b58.param1.toNat := by
    have hmax : s.cfg.maxLen ≤ 1024 := by
      simp only [Config.wf, Bool.and_eq_true, decide_eq_true_eq] at hcfg
      omega
    rw [decodeRequest_param1, BitVec.toNat_ofNat]
    omega
  have hwf' : Memory.wf (decodeRequest (encodedState s) l w).mem = true := by
    rw [decodeRequest_mem, encodedState, b58Done_mem]
    exact memWriteBytes_wf _ _ _ hwf
  have htext := (decodeRequest_winBytes _ l w .txt _).trans (encodedState_text hwf).1
  have hdecode := exec_b58Decode_of_fits hw (by rwa [decodeRequest_cfg, encodedState, b58Done_cfg])
    (encodedState_textLength hwf hlen hroom hl w) htext (base58Digits_plain _)
    (by rwa [digitsValue_base58, hcount])
  refine ⟨_, hdecode, b58Done_err .., ?count, ?bytes⟩
  case count =>
    rw [digitsValue_base58, decodedState, b58Done_param1 (v := s.b58.param0) _ _ _ hcount.le, hcount]
  case bytes =>
    rw [digitsValue_base58, decodedState_winBytes hwf']
    exact drop_beBytes_encodeValue hnw

end Sys2Proof.Machine
end

section
/-! PROOFS of the statements of 41_blake2b.md: the constants (R170, R171), the compression function (R175) and the counter (R176),
the three commands (R179 to R181), and that they compute the blockwise hash however the message is cut (R182, R183). -/

namespace Sys2Proof.Machine

/-! ### The constants -/

/-- Settles O34: the words are those of the definition. -/
theorem initializationVectorHoldsItsWords : Obligations.InitializationVectorHoldsItsWords := rfl

/-- No row of SIGMA names a message word twice, so each is a permutation (41_blake2b.md R171). -/
theorem blakeSigma_nodup : ∀ row ∈ blakeSigma, row.toList.Nodup := by
  simp only [blakeSigma, List.forall_mem_cons, Vector.toList_mk]
  simp

/-- Settles O35: the table is the definition's, and the repeated rows are the same rows. -/
theorem sigmaHoldsItsPermutationRows : Obligations.SigmaHoldsItsPermutationRows :=
  ⟨rfl, blakeSigma_nodup, rfl, rfl⟩

/-! ### The compression function (41_blake2b.md R175) -/

/-- The work vector after the first r rounds. -/
def workAfter (m v : Words16) (r : Nat) : Words16 := (blakeSigma.take r).foldl (fun v row => blakeRound m row v) v

/-- All the rounds are the twelve rows of SIGMA. -/
theorem workAfter_twelve (m v : Words16) : workAfter m v 12 = blakeRounds m v := rfl

/-- One more round takes the next row of SIGMA. -/
theorem workAfter_succ (m v : Words16) {r : Nat} (hr : r < blakeSigma.length) :
    workAfter m v (r + 1) = blakeRound m blakeSigma[r] (workAfter m v r) := by
  simp only [workAfter, List.take_succ_eq_append_getElem hr, List.foldl_append, List.foldl_cons, List.foldl_nil]

theorem messageWords_byte (b : Vector Byte 128) {i j : Nat} (hi : i < 16) (hj : j < 8) :
    (messageWords b)[i].extractLsb' (8 * j) 8 = b[8 * i + j] := by
  rw [messageWords, Vector.getElem_ofFn, load64le_byte b _ j hj]
  simp [Vector.getD, show 8 * i + j < 128 by omega]

/-- The words of the starting work vector that neither the counter nor the flag touches. -/
theorem initialWork_other (h : Vector Word64 8) (t : BitVec 128) (f : Bool) {i : Nat} (hi : i < 16) (h12 : i ≠ 12)
    (h13 : i ≠ 13) (h14 : i ≠ 14) : (initialWork h t f)[i] = (h ++ blakeIV : Words16)[i] := by
  cases f <;> simp [initialWork, h12.symm, h13.symm, h14.symm]

theorem initialWork_low (h : Vector Word64 8) (t : BitVec 128) (f : Bool) {i : Nat} (hi : i < 8) :
    (initialWork h t f)[i] = h[i] := by
  rw [initialWork_other h t f (by omega) (by omega) (by omega) (by omega), stateThenIV_low h i hi]

theorem initialWork_high (h : Vector Word64 8) (t : BitVec 128) (f : Bool) {i : Nat} (hi : i < 8) (h4 : i ≠ 4)
    (h5 : i ≠ 5) (h6 : i ≠ 6) : (initialWork h t f)[8 + i] = blakeIV[i] := by
  rw [initialWork_other h t f (by omega) (by omega) (by omega) (by omega), stateThenIV_high h i hi]

theorem initialWork_counter_low (h : Vector Word64 8) (t : BitVec 128) (f : Bool) :
    (initialWork h t f)[12] = blakeIV[4] ^^^ t.extractLsb' 0 64 := by
  cases f <;> simp [initialWork, stateThenIV_high h 4 (by omega)]

theorem initialWork_counter_high (h : Vector Word64 8) (t : BitVec 128) (f : Bool) :
    (initialWork h t f)[13] = blakeIV[5] ^^^ t.extractLsb' 64 64 := by
  cases f <;> simp [initialWork, stateThenIV_high h 5 (by omega)]

theorem initialWork_flag (h : Vector Word64 8) (t : BitVec 128) (f : Bool) :
    (initialWork h t f)[14] = if f then ~~~ blakeIV[6] else blakeIV[6] := by
  have hiv : (h ++ blakeIV : Words16)[14] = blakeIV[6] := stateThenIV_high h 6 (by omega)
  cases f
  · simp [initialWork, hiv]
  · simp only [initialWork, if_true, Vector.getElem_set_self]
    simp [hiv, ← BitVec.xor_allOnes]

/-- Settles O39: the message words, and the work vector after each round. -/
theorem compressionFollowsItsRule : Obligations.CompressionFollowsItsRule := by
  intro h b t f
  refine ⟨messageWords b, workAfter (messageWords b) (initialWork h t f), fun i hi j hj => messageWords_byte b hi hj,
    fun i hi => initialWork_low h t f hi, fun i hi => initialWork_high h t f hi, initialWork_counter_low h t f,
    initialWork_counter_high h t f, initialWork_flag h t f, fun r hr => ?round, fun i hi => ?final⟩
  case round => exact ⟨blakeSigma[r], List.getElem?_eq_getElem hr, workAfter_succ _ _ hr⟩
  case final => simp only [compress, Vector.getElem_ofFn, workAfter_twelve, Fin.getElem_fin]

/-! ### The counter (41_blake2b.md R176) -/

theorem add128_toNat (t : BitVec 128) {k : Nat} (hk : k < 2 ^ 128) : (add128 t k).toNat = (t.toNat + k) % 2 ^ 128 := by
  rw [add128, BitVec.toNat_add, BitVec.toNat_ofNat, Nat.mod_eq_of_lt hk]

theorem low_word_toNat (t : BitVec 128) : (t.extractLsb' 0 64).toNat = t.toNat % 2 ^ 64 := by
  rw [BitVec.extractLsb'_toNat, Nat.shiftRight_zero]

theorem high_word_toNat (t : BitVec 128) : (t.extractLsb' 64 64).toNat = t.toNat / 2 ^ 64 := by
  have ht := t.isLt
  rw [BitVec.extractLsb'_toNat, Nat.shiftRight_eq_div_pow]
  omega

/-- Settles O40: the words of the sum as quotient and remainder by 2^64. -/
theorem counterAdditionCarriesIntoTheHighWord : Obligations.CounterAdditionCarriesIntoTheHighWord := by
  intro t k hk
  have hsum := add128_toNat t (k := k) (by omega)
  have ht := t.isLt
  have hlow : (t.extractLsb' 0 64 + BitVec.ofNat 64 k).toNat = (t.toNat + k) % 2 ^ 64 := by
    rw [BitVec.toNat_add, low_word_toNat, BitVec.toNat_ofNat]
    omega
  refine ⟨hsum, BitVec.eq_of_toNat_eq ?low, BitVec.eq_of_toNat_eq ?high⟩
  case low =>
    rw [low_word_toNat, hsum, hlow]
    omega
  case high =>
    rw [high_word_toNat, hsum, hlow]
    split
    · rw [BitVec.toNat_add, high_word_toNat, show (1 : Word64).toNat = 1 from rfl]
      omega
    · rw [high_word_toNat]
      omega

/-! ### The commands (41_blake2b.md R179 to R181) -/

/-- The hash state a valid B2.INIT starts from: the IV with the parameter word (41_blake2b.md R172, R179). -/
def startHash (nn kk : Nat) : Vector Word64 8 := blakeIV.set 0 (blakeIV[0] ^^^ paramWord nn kk)

theorem freshContext_buf (x : B2Unit) (nn kk : Nat) : (freshContext x nn kk).buf = Vector.replicate 128 0 := rfl
theorem freshContext_c (x : B2Unit) (nn kk : Nat) : (freshContext x nn kk).c = 0 := rfl

theorem freshContext_outlen (x : B2Unit) {nn : Nat} (kk : Nat) (hnn : nn ≤ 64) :
    (freshContext x nn kk).outlen.val = nn := Nat.mod_eq_of_lt (by omega)

/-- The context a valid B2.INIT sets up: the key goes into a buffer of zeros, which counts as full, and nothing is compressed
(41_blake2b.md R179). -/
theorem keyedContext_spec (x : B2Unit) (nn : Nat) {key : List Byte} (hkey : key.length ≤ 64) :
    ∃ buf, absorbKey (freshContext x nn key.length) key =
        { freshContext x nn key.length with buf := buf, c := if key.length = 0 then 0 else 128 } ∧
      ∀ k (hk : k < 128), buf[k] = key.getD k 0 := by
  have hc : (freshContext x nn key.length).c.val = 0 := rfl
  obtain ⟨hh, ht, -, hbuf⟩ := absorb_fits (freshContext x nn key.length) key (by omega)
  refine ⟨(absorb (freshContext x nn key.length) key).buf, ?_, fun k hk => ?_⟩
  · unfold absorbKey
    split
    · next h0 => rw [List.length_eq_zero_iff.1 h0, absorb_nil, List.length_nil, ← freshContext_c]
    · rw [absorb_frame, hh, ht]
  · rw [hbuf k hk, hc, freshContext_buf, Vector.getElem_replicate, Nat.zero_add, Nat.sub_zero]
    split
    · rfl
    · next hge => rw [List.getD_eq_default _ _ (by omega)]

@[simp] theorem absorbKey_outlen (x : B2Unit) (key : List Byte) : (absorbKey x key).outlen = x.outlen := by
  unfold absorbKey
  split
  · rfl
  · exact absorb_outlen x key

theorem initInvalid_eq_true_iff (nn kk : Nat) : initInvalid nn kk = true ↔ nn = 0 ∨ 64 < nn ∨ 64 < kk := by
  simp [initInvalid, or_assoc]

theorem initKey_getD (s : State) (k : Nat) :
    (initKey s).getD k 0 = if k < initKeyLen s then winRead s .din k else 0 := by
  rw [← initKey_length]
  split
  · next hlt => rw [List.getD_eq_getElem _ _ hlt, initKey_getElem]
  · next hge => rw [List.getD_eq_default _ _ (not_lt.1 hge)]

theorem updateBytes_getD (s : State) {k : Nat} (hk : k < updateLen s) : (updateBytes s).getD k 0 = winRead s .din k := by
  have hlen : k < (updateBytes s).length := by rwa [updateBytes_length]
  rw [List.getD_eq_getElem _ _ hlen, updateBytes_getElem]

/-- Settles O42: the two outcomes of B2.INIT, of which the parameters choose one. -/
theorem initFollowsItsRule : Obligations.InitFollowsItsRule := by
  refine ⟨rfl, fun s nn kk hnn hkk => ?_⟩
  have hn : initDigestLen s = nn := hnn.symm
  have hk : initKeyLen s = kk := hkk.symm
  obtain ⟨m, hframe, -, hzero, -, ⟨hbad, he⟩ | ⟨hgood, he⟩⟩ := execB2Init_cases s
  · rw [initInvalid_eq_true_iff, hn, hk] at hbad
    exact ⟨_, he, fun h1 h2 h3 => by omega, fun _ => rfl, hzero, hframe, rfl⟩
  · rw [initInvalid_eq_false_iff, hn, hk] at hgood
    obtain ⟨hpos, hle, hkey⟩ := hgood
    obtain ⟨buf, hx, hbuf⟩ := keyedContext_spec s.b2 nn (key := initKey s) (by rwa [initKey_length, hk])
    rw [initKey_length, hk] at hx
    rw [hn, hk, hx] at he
    refine ⟨_, he, fun _ _ _ => ⟨Vector.getElem_set_self (by omega),
      fun k hk8 h0 => Vector.getElem_set_ne (by omega) hk8 h0.symm, fun k hk128 => ?buffer, rfl,
      freshContext_outlen s.b2 kk hle, rfl⟩, fun h => by omega, hzero, hframe, rfl⟩
    case buffer => exact (hbuf k hk128).trans (hk ▸ initKey_getD s k)

theorem compressFull_ne_full (x : B2Unit) : (compressFull x).c ≠ 128 :=
  fun h => absurd (congrArg Fin.val h) (compressFull_room_left x).ne

/-- A full buffer may be compressed before a loop turn instead of in it (41_blake2b.md R177). -/
theorem absorb_compressFull (x : B2Unit) {bs : List Byte} (hbs : bs ≠ []) : absorb (compressFull x) bs = absorb x bs := by
  cases bs with
  | nil => exact absurd rfl hbs
  | cons b bs =>
    rw [absorb_cons, absorb_cons, absorbByte, compressFull_room (compressFull_ne_full x), absorbByte]

/-- The buffer of x filled up from the fill index on with the first of the bytes. -/
def filledBuffer (x : B2Unit) (bs : List Byte) : Vector Byte 128 :=
  Vector.ofFn fun k => if k.val < x.c.val then x.buf[k] else bs.getD (k.val - x.c.val) 0

/-- x with the block b counted, compressed as a non-final one and gone from the buffer (41_blake2b.md R177). -/
def afterBlock (x : B2Unit) (b : Vector Byte 128) : B2Unit :=
  { x with t := x.t + 128, h := compress x.h b (x.t + 128) false, buf := Vector.replicate 128 0, c := 0 }

/-- Bytes that just fill the buffer wait in it until more come. -/
theorem absorb_fills (x : B2Unit) (bs : List Byte) (hfill : x.c.val + bs.length = 128) :
    absorb x bs = { x with buf := filledBuffer x bs, c := 128 } := by
  obtain ⟨hh, ht, hc, hbuf⟩ := absorb_fits x bs hfill.le
  have hfull : (absorb x bs).c = 128 := Fin.ext (hc.trans hfill)
  have hblock : (absorb x bs).buf = filledBuffer x bs := by
    refine Vector.ext fun k hk => ?_
    rw [hbuf k hk, filledBuffer, Vector.getElem_ofFn]
    by_cases hlt : k < x.c.val
    · rw [if_neg (by omega), if_pos hlt, Fin.getElem_fin]
    · rw [if_pos (by omega), if_neg hlt]
  rw [absorb_frame, hh, ht, hfull, hblock]

/-- Only the bytes that fit matter to the filled buffer. -/
theorem filledBuffer_take (x : B2Unit) (bs : List Byte) :
    filledBuffer x (bs.take (128 - x.c.val)) = filledBuffer x bs := by
  refine Vector.ext fun k hk => ?_
  simp only [filledBuffer, Vector.getElem_ofFn]
  refine ite_congr rfl (fun _ => rfl) fun hle => ?_
  rw [List.getD_eq_getElem?_getD, List.getElem?_take_of_lt (by omega), List.getD_eq_getElem?_getD]

/-- The bulk form of Absorb (41_blake2b.md R177) when the bytes do not fit: one compression, of the buffer filled up, and the
rest goes into a cleared buffer. -/
theorem absorb_overflows (x : B2Unit) (bs : List Byte) (hover : 128 < x.c.val + bs.length) :
    absorb x bs = absorb (afterBlock x (filledBuffer x bs)) (bs.drop (128 - x.c.val)) := by
  have hc := x.c.isLt
  have hfill : x.c.val + (bs.take (128 - x.c.val)).length = 128 := by
    rw [List.length_take]
    omega
  have hrest : bs.drop (128 - x.c.val) ≠ [] := List.ne_nil_of_length_pos (by rw [List.length_drop]; omega)
  calc absorb x bs = absorb (absorb x (bs.take (128 - x.c.val))) (bs.drop (128 - x.c.val)) := by
        rw [← absorb_append, List.take_append_drop]
    _ = absorb (compressFull (absorb x (bs.take (128 - x.c.val)))) (bs.drop (128 - x.c.val)) :=
        (absorb_compressFull _ hrest).symm
    _ = absorb (afterBlock x (filledBuffer x bs)) (bs.drop (128 - x.c.val)) := by
        rw [absorb_fills x _ hfill, filledBuffer_take, compressFull_full rfl]
        rfl

/-- Settles O43: the three outcomes of B2.UPDATE, and the two forms of the absorption. -/
theorem updateFollowsItsRule : Obligations.UpdateFollowsItsRule := by
  refine ⟨rfl, ?_⟩
  rintro s _ _ rfl rfl
  have hlen : (updateBytes s).length = s.b2.param0.toNat := updateBytes_length s
  have hbyte : ∀ k < s.b2.param0.toNat, (updateBytes s).getD k 0 = winRead s .din k := fun k hk => updateBytes_getD s hk
  obtain ⟨hphase, he⟩ | ⟨hphase, hlong, he⟩ | ⟨hphase, hshort, he⟩ := execB2Update_cases s
  · exact ⟨fun _ => he, fun h => absurd h hphase, fun h => absurd h hphase⟩
  · exact ⟨fun h => absurd hphase h, fun _ _ => he, fun _ h => absurd hlong (not_lt.2 h)⟩
  · refine ⟨fun h => absurd hphase h, fun _ h => absurd hshort (not_le.2 h),
      fun _ _ => ⟨absorb s.b2 (updateBytes s), ?finish, absorb_frame .., fun hfits => ?fits, fun hover => ?overflows⟩⟩
    case finish =>
      refine he.trans ?_
      rw [finish_b2, ← hphase, ← absorb_phase s.b2 (updateBytes s), absorb_latch]
    case fits =>
      obtain ⟨hh, ht, hc, hbuf⟩ := absorb_fits s.b2 (updateBytes s) (by rw [hlen]; exact hfits)
      rw [hlen] at hc
      refine ⟨hh, ht, hc, fun k hk => ?_⟩
      rw [hbuf k hk, hlen]
      exact ite_congr rfl (fun h => hbyte _ (by omega)) fun _ => rfl
    case overflows =>
      have hc := s.b2.c.isLt
      have hrest : ((updateBytes s).drop (128 - s.b2.c.val)).length = s.b2.c.val + s.b2.param0.toNat - 128 := by
        rw [List.length_drop, hlen]
        omega
      have hcleared : (afterBlock s.b2 (filledBuffer s.b2 (updateBytes s))).c.val = 0 := rfl
      obtain ⟨hh, ht, hcnt, hbuf⟩ := absorb_fits (afterBlock s.b2 (filledBuffer s.b2 (updateBytes s)))
        ((updateBytes s).drop (128 - s.b2.c.val)) (by omega)
      rw [absorb_overflows s.b2 (updateBytes s) (by omega)]
      refine ⟨ht, by omega, hh.trans ?block, fun k hk => (hbuf k hk).trans ?rest⟩
      case block =>
        have hblock : filledBuffer s.b2 (updateBytes s) =
            Vector.ofFn fun k => if k.val < s.b2.c.val then s.b2.buf[k] else winRead s .din (k.val - s.b2.c.val) :=
          congrArg Vector.ofFn (funext fun k => ite_congr rfl (fun _ => rfl) fun _ => hbyte _ (by omega))
        rw [afterBlock, hblock]
      case rest =>
        rw [hcleared, hrest, Nat.zero_add, Nat.sub_zero]
        refine ite_congr (by simp) (fun h => ?_) fun _ => Vector.getElem_replicate hk
        rw [← hbyte _ (by omega), List.getD_eq_getElem?_getD, List.getElem?_drop, List.getD_eq_getElem?_getD]

/-- The bytes of the digest in words (41_blake2b.md R178). -/
theorem digestByte_eq (h : Vector Word64 8) {k : Nat} (hk : k < 64) :
    digestByte h k = (h[k / 8] >>> (8 * (k % 8))).setWidth 8 := by
  have hword : k / 8 < 8 := by omega
  simp [digestByte, Vector.getD, hword]

/-- Settles O44: the two outcomes of B2.FINAL. -/
theorem finalFollowsItsRule : Obligations.FinalFollowsItsRule := by
  refine ⟨rfl, fun s => ?_⟩
  obtain ⟨hphase, he⟩ | ⟨hphase, m, hframe, -, hdigest, -, he⟩ := execB2Final_cases s
  · exact ⟨fun _ => he, fun h => absurd h hphase⟩
  · refine ⟨fun h => absurd hphase h, fun _ => ⟨_, he, rfl, fun k hk => padFrom_getElem _ _ k hk, rfl, rfl,
      fun hwf k hk => ?digest, hframe, rfl⟩⟩
    case digest => exact (hdigest hwf k hk).trans (ite_congr rfl (fun _ => digestByte_eq _ hk) fun _ => rfl)

/-! ### The hash block by block (41_blake2b.md R182, R183) -/

/-- The blocks compressed before B2.FINAL when n bytes are absorbed: all but the last one. -/
def blocksDone (n : Nat) : Nat := blockCount n - 1

/-- One more byte opens a new block exactly when the held-back one is full. -/
theorem blocksDone_succ (n : Nat) :
    blocksDone (n + 1) = if n = 128 * blocksDone n + 128 then blocksDone n + 1 else blocksDone n := by
  by_cases h : n = 128 * blocksDone n + 128
  · rw [if_pos h]
    simp only [blocksDone, blockCount] at h ⊢
    omega
  · rw [if_neg h]
    simp only [blocksDone, blockCount] at h ⊢
    omega

theorem blockOf128_getElem (data : List Byte) (i k : Nat) (hk : k < 128) :
    (blockOf128 data i)[k] = data.getD (128 * i + k) 0 := by
  rw [blockOf128, Vector.getElem_ofFn]

/-- A block that is complete does not change when more bytes come. -/
theorem blockOf128_append (data more : List Byte) {i : Nat} (hi : 128 * (i + 1) ≤ data.length) :
    blockOf128 (data ++ more) i = blockOf128 data i := by
  refine Vector.ext fun k hk => ?_
  rw [blockOf128_getElem, blockOf128_getElem, List.getD_append _ _ _ _ (by omega)]

/-- A block that starts where the bytes end is empty. -/
theorem blockOf128_empty (data : List Byte) {i : Nat} (hi : data.length ≤ 128 * i) :
    blockOf128 data i = Vector.replicate 128 0 := by
  refine Vector.ext fun k hk => ?_
  rw [blockOf128_getElem, Vector.getElem_replicate, List.getD_eq_default _ _ (by omega)]

/-- A byte more is stored in its place in its block. -/
theorem blockOf128_snoc (data : List Byte) (b : Byte) {i : Nat} (hlow : 128 * i ≤ data.length) :
    blockOf128 (data ++ [b]) i = (blockOf128 data i).setIfInBounds (data.length - 128 * i) b := by
  refine Vector.ext fun k hk => ?_
  rw [Vector.getElem_setIfInBounds, blockOf128_getElem, blockOf128_getElem]
  obtain hlt | heq | hgt := Nat.lt_trichotomy (128 * i + k) data.length
  · rw [if_neg (by omega), List.getD_append _ _ _ _ hlt]
  · rw [if_pos (by omega), heq, List.getD_append_right _ _ _ _ le_rfl, Nat.sub_self, List.getD_cons_zero]
  · rw [if_neg (by omega), List.getD_eq_default _ _ (by simp; omega), List.getD_eq_default _ _ (by omega)]

theorem hashAfter_zero (h0 : Vector Word64 8) (data : List Byte) : hashAfter h0 data 0 = h0 := rfl

theorem hashAfter_succ (h0 : Vector Word64 8) (data : List Byte) (k : Nat) : hashAfter h0 data (k + 1) =
    compress (hashAfter h0 data k) (blockOf128 data k) (BitVec.ofNat 128 (128 * (k + 1))) false := by
  simp only [hashAfter, List.range_succ, List.foldl_append, List.foldl_cons, List.foldl_nil]

/-- The hash state after complete blocks does not change when more bytes come. -/
theorem hashAfter_append (h0 : Vector Word64 8) (data more : List Byte) {k : Nat} (hk : 128 * k ≤ data.length) :
    hashAfter h0 (data ++ more) k = hashAfter h0 data k := by
  induction k with
  | zero => rw [hashAfter_zero, hashAfter_zero]
  | succ k ih => rw [hashAfter_succ, hashAfter_succ, ih (by omega), blockOf128_append data more hk]

/-- The context x has absorbed data from the hash state h0 on: it has compressed k blocks of them and holds the next one back
in its buffer. -/
structure Holds (h0 : Vector Word64 8) (data : List Byte) (k : Nat) (x : B2Unit) : Prop where
  hash : x.h = hashAfter h0 data k
  counter : x.t = BitVec.ofNat 128 (128 * k)
  buffer : x.buf = blockOf128 data k
  fill : 128 * k + x.c.val = data.length

/-- The context x has absorbed data from the hash state h0 on, with as many blocks compressed as R177 says. -/
def Absorbed (h0 : Vector Word64 8) (data : List Byte) (x : B2Unit) : Prop := Holds h0 data (blocksDone data.length) x

/-- What is absorbed stands in h, t, buf and c. -/
theorem Absorbed.of_context {h0 : Vector Word64 8} {data : List Byte} {x y : B2Unit} (hx : Absorbed h0 data x)
    (hh : y.h = x.h) (ht : y.t = x.t) (hbuf : y.buf = x.buf) (hc : y.c = x.c) : Absorbed h0 data y :=
  ⟨hh.trans hx.hash, ht.trans hx.counter, hbuf.trans hx.buffer, hc ▸ hx.fill⟩

theorem add128_blocks (k : Nat) (n : Nat) : add128 (BitVec.ofNat 128 (128 * k)) n = BitVec.ofNat 128 (128 * k + n) := by
  rw [add128, BitVec.ofNat_add]

/-- A full buffer is the next block of the data (41_blake2b.md R177). -/
theorem Holds.compressFull {h0 : Vector Word64 8} {data : List Byte} {k : Nat} {x : B2Unit} (hx : Holds h0 data k x)
    (hfull : x.c = 128) : Holds h0 data (k + 1) (compressFull x) := by
  obtain ⟨hash, counter, buffer, fill⟩ := hx
  have hlen : data.length = 128 * (k + 1) := by
    rw [hfull] at fill
    exact fill.symm
  rw [compressFull_full hfull]
  refine ⟨?_, ?_, ?_, ?_⟩
  · rw [hashAfter_succ, hash, counter, buffer, add128_blocks]
    rfl
  · rw [counter, add128_blocks]
    rfl
  · rw [blockOf128_empty data hlen.le]
  · exact hlen.symm

/-- Where there is room a byte of the data is stored behind the others (41_blake2b.md R177). -/
theorem Holds.absorbByte {h0 : Vector Word64 8} {data : List Byte} {k : Nat} {x : B2Unit} (hx : Holds h0 data k x)
    (hroom : x.c ≠ 128) (b : Byte) : Holds h0 (data ++ [b]) k (absorbByte x b) := by
  obtain ⟨hash, counter, buffer, fill⟩ := hx
  have hle : 128 * k ≤ data.length := by omega
  have hlt := compressFull_room_left x
  rw [compressFull_room hroom] at hlt
  have hstep : Machine.absorbByte x b = { x with buf := x.buf.setIfInBounds x.c b, c := x.c + 1 } := by
    rw [Machine.absorbByte, compressFull_room hroom]
  rw [hstep]
  refine ⟨?_, counter, ?_, ?_⟩
  · rw [hashAfter_append h0 data [b] hle, hash]
  · rw [blockOf128_snoc data b hle, ← buffer, show data.length - 128 * k = x.c.val by omega]
  · have hsucc := fin129_succ hlt
    simp only [List.length_append, List.length_singleton]
    omega

/-- One turn of Absorb's loop: the held-back block is compressed exactly when it is full. -/
theorem Absorbed.absorbByte {h0 : Vector Word64 8} {data : List Byte} {x : B2Unit} (hx : Absorbed h0 data x) (b : Byte) :
    Absorbed h0 (data ++ [b]) (absorbByte x b) := by
  have hlen : (data ++ [b]).length = data.length + 1 := by simp
  unfold Absorbed at hx ⊢
  rw [hlen, blocksDone_succ]
  have hfill := hx.fill
  by_cases hfull : x.c = 128
  · rw [if_pos (by rw [hfull] at hfill; exact hfill.symm)]
    have hroom := compressFull_ne_full x
    have hstep := (hx.compressFull hfull).absorbByte hroom b
    rwa [Machine.absorbByte, compressFull_room hroom] at hstep
  · have hne : x.c.val ≠ 128 := fun h => hfull (Fin.ext h)
    rw [if_neg (by omega)]
    exact hx.absorbByte hfull b

/-- Absorb (41_blake2b.md R177), byte by byte. -/
theorem Absorbed.absorb {h0 : Vector Word64 8} {data : List Byte} {x : B2Unit} (hx : Absorbed h0 data x) (bs : List Byte) :
    Absorbed h0 (data ++ bs) (absorb x bs) := by
  induction bs generalizing data x with
  | nil => simpa using hx
  | cons b bs ih =>
    rw [absorb_cons, List.append_cons]
    exact ih (hx.absorbByte b)

/-- The last compression (41_blake2b.md R181, R183). -/
theorem Absorbed.finalContext {h0 : Vector Word64 8} {data : List Byte} {x : B2Unit} (hx : Absorbed h0 data x) :
    (finalContext x).t = BitVec.ofNat 128 data.length ∧
      (finalContext x).h = compress (hashAfter h0 data (blocksDone data.length)) (blockOf128 data (blocksDone data.length))
        (BitVec.ofNat 128 data.length) true := by
  obtain ⟨hash, counter, buffer, fill⟩ := hx
  have ht : add128 x.t x.c = BitVec.ofNat 128 data.length := by rw [counter, add128_blocks, fill]
  have hpad : padFrom x.c x.buf = blockOf128 data (blocksDone data.length) := by
    refine Vector.ext fun k hk => ?_
    rw [padFrom_getElem, buffer]
    split
    · rfl
    · rw [blockOf128_getElem, List.getD_eq_default _ _ (by omega)]
  refine ⟨ht, ?_⟩
  show compress x.h (padFrom x.c x.buf) (add128 x.t x.c) true = _
  rw [ht, hpad, hash]

/-! ### The commands of a hash (30_encoding.md R100) -/

/-- A hash with nn digest bytes is under way in s: the context is active and has absorbed data. -/
structure Hashing (nn kk : Nat) (data : List Byte) (s : State) : Prop where
  phase : s.b2.phase = .active
  outlen : s.b2.outlen.val = nn
  absorbed : Absorbed (startHash nn kk) data s.b2
  canonical : Memory.wf s.mem = true

theorem toNat_ofNat_32 {n : Nat} (hn : n ≤ 128) : (BitVec.ofNat 32 n).toNat = n := by
  rw [BitVec.toNat_ofNat]
  omega

/-- A window reads as the bytes just written to it. -/
theorem winBytes_winWrite {s : State} (hwf : Memory.wf s.mem = true) (w : Window) (bs : List Byte) :
    winBytes (winWrite s w bs) w bs.length = bs :=
  memReadBytes_memWriteBytes bs s.mem (winBase w) hwf

theorem feed_updateLen (s : State) {chunk : List Byte} (hlen : chunk.length ≤ 128) :
    updateLen (feed s chunk) = chunk.length := toNat_ofNat_32 hlen

theorem feed_updateBytes {s : State} (hwf : Memory.wf s.mem = true) {chunk : List Byte} (hlen : chunk.length ≤ 128) :
    updateBytes (feed s chunk) = chunk := by
  rw [updateBytes, feed_updateLen s hlen, feed]
  exact winBytes_winWrite hwf .din chunk

/-- One UPDATE of a hash under way. -/
theorem Hashing.update {nn kk : Nat} {data : List Byte} {s : State} (hs : Hashing nn kk data s) {chunk : List Byte}
    (hlen : chunk.length ≤ 128) :
    ∃ t, exec .b2Update (feed s chunk) = .next t ∧ Hashing nn kk (data ++ chunk) t := by
  obtain ⟨phase, outlen, absorbed, canonical⟩ := hs
  obtain ⟨hphase, -⟩ | ⟨-, hlong, -⟩ | ⟨-, -, he⟩ := execB2Update_cases (feed s chunk)
  · exact absurd phase hphase
  · rw [feed_updateLen s hlen] at hlong
    exact absurd hlong (not_lt.2 hlen)
  · rw [feed_updateBytes canonical hlen] at he
    have hfed : Absorbed (startHash nn kk) data (feed s chunk).b2 := absorbed.of_context rfl rfl rfl rfl
    refine ⟨_, he, ?_, ?_, (hfed.absorb chunk).of_context rfl rfl rfl rfl, memWriteBytes_wf chunk s.mem _ canonical⟩
    · exact (absorb_phase _ _).trans phase
    · exact (congrArg Fin.val (absorb_outlen _ _)).trans outlen

/-- The UPDATEs of a hash absorb the chunks in order. -/
theorem Hashing.updateAll {nn kk : Nat} {data : List Byte} {s : State} (hs : Hashing nn kk data s)
    {chunks : List (List Byte)} (hlen : ∀ chunk ∈ chunks, chunk.length ≤ 128) :
    ∃ t, updateAll s chunks = .next t ∧ Hashing nn kk (data ++ chunks.flatten) t := by
  induction chunks generalizing data s with
  | nil => exact ⟨s, rfl, by simpa using hs⟩
  | cons chunk rest ih =>
    obtain ⟨t, he, ht⟩ := hs.update (hlen chunk (by simp))
    obtain ⟨t', he', ht'⟩ := ih ht fun c hc => hlen c (by simp [hc])
    refine ⟨t', ?_, by simpa using ht'⟩
    rw [Machine.updateAll, he]
    exact he'

/-- What a valid INIT absorbs is the key block (41_blake2b.md R183). -/
theorem keyBlock_absorbed (x : B2Unit) (nn : Nat) {key : List Byte} (hkey : key.length ≤ 64) :
    Absorbed (startHash nn key.length) (hashInput key []) (absorbKey (freshContext x nn key.length) key) := by
  obtain ⟨buf, hx, hbuf⟩ := keyedContext_spec x nn hkey
  rw [hx]
  by_cases h0 : key = []
  · subst h0
    exact ⟨rfl, rfl, Vector.ext fun k hk => by rw [hbuf k hk, blockOf128_getElem]; rfl, rfl⟩
  · have hpos : key.length ≠ 0 := fun h => h0 (List.length_eq_zero_iff.1 h)
    have hdata : hashInput key [] = key ++ List.replicate (128 - key.length) 0 := by simp [hashInput, h0]
    have hlen : (hashInput key []).length = 128 := by
      rw [hdata, List.length_append, List.length_replicate]
      omega
    have hdone : blocksDone 128 = 0 := rfl
    rw [Absorbed, hlen, hdone, if_neg hpos]
    refine ⟨rfl, rfl, Vector.ext fun k hk => ?_, hlen.symm⟩
    rw [hbuf k hk, blockOf128_getElem, hdata, Nat.mul_zero, Nat.zero_add]
    obtain hlt | hge := Nat.lt_or_ge k key.length
    · rw [List.getD_append _ _ _ _ hlt]
    · rw [List.getD_append_right _ _ _ _ hge, List.getD_replicate _ (by omega), List.getD_eq_default _ _ hge]

theorem feedInit_initDigestLen (s : State) {nn : Nat} (key : List Byte) (hnn : nn ≤ 64) :
    initDigestLen (feedInit s nn key) = nn := toNat_ofNat_32 (by omega)

theorem feedInit_initKeyLen (s : State) (nn : Nat) {key : List Byte} (hkey : key.length ≤ 64) :
    initKeyLen (feedInit s nn key) = key.length := toNat_ofNat_32 (by omega)

theorem feedInit_initKey {s : State} (hwf : Memory.wf s.mem = true) (nn : Nat) {key : List Byte} (hkey : key.length ≤ 64) :
    initKey (feedInit s nn key) = key := by
  rw [initKey, feedInit_initKeyLen s nn hkey, feedInit]
  exact winBytes_winWrite hwf .din key

/-- The INIT of a hash, from any state (41_blake2b.md R182). -/
theorem exec_b2Init_hashing {s : State} (hwf : Memory.wf s.mem = true) {nn : Nat} {key : List Byte} (hpos : 1 ≤ nn)
    (hnn : nn ≤ 64) (hkey : key.length ≤ 64) :
    ∃ t, exec .b2Init (feedInit s nn key) = .next t ∧ Hashing nn key.length (hashInput key []) t := by
  have hn := feedInit_initDigestLen s key hnn
  have hk := feedInit_initKeyLen s nn hkey
  obtain ⟨m, -, hm, -, -, ⟨hbad, -⟩ | ⟨-, he⟩⟩ := execB2Init_cases (feedInit s nn key)
  · rw [hn, hk, (initInvalid_eq_false_iff nn key.length).2 ⟨hpos, hnn, hkey⟩] at hbad
    cases hbad
  · rw [hn, hk, feedInit_initKey hwf nn hkey] at he
    refine ⟨_, he, rfl, ?_, (keyBlock_absorbed _ nn hkey).of_context rfl rfl rfl rfl, hm (memWriteBytes_wf key s.mem _ hwf)⟩
    exact (congrArg Fin.val (absorbKey_outlen _ key)).trans (freshContext_outlen _ _ hnn)

/-- The FINAL of a hash (41_blake2b.md R181). -/
theorem Hashing.final {nn kk : Nat} {data : List Byte} {s : State} (hs : Hashing nn kk data s) :
    ∃ t, exec .b2Final s = .next t ∧ t.b2.err = .ok ∧ t.b2.phase = .finalized ∧
      t.b2.h = compress (hashAfter (startHash nn kk) data (blocksDone data.length)) (blockOf128 data (blocksDone data.length))
        (BitVec.ofNat 128 data.length) true ∧
      t.b2.t = BitVec.ofNat 128 data.length ∧
      ∀ k < 64, winRead t .dout k = if k < nn then digestByte t.b2.h k else 0 := by
  obtain ⟨phase, outlen, absorbed, canonical⟩ := hs
  obtain ⟨ht, hh⟩ := absorbed.finalContext
  obtain ⟨hphase, -⟩ | ⟨-, m, -, -, hdigest, -, he⟩ := execB2Final_cases s
  · exact absurd phase hphase
  · refine ⟨_, he, rfl, rfl, hh, ht, fun k hk => ?_⟩
    rw [← outlen]
    exact hdigest canonical k hk

theorem hashInput_append (key msg : List Byte) : hashInput key [] ++ msg = hashInput key msg := by
  simp [hashInput]

theorem hashInput_length {key : List Byte} (hkey : key.length ≤ 64) (msg : List Byte) :
    (hashInput key msg).length = (if key = [] then 0 else 128) + msg.length := by
  by_cases h0 : key = []
  · simp [hashInput, h0]
  · simp only [hashInput, if_neg h0, List.length_append, List.length_replicate]
    omega

theorem blockwiseHash_eq (nn : Nat) (key msg : List Byte) : blockwiseHash nn key msg =
    compress (hashAfter (startHash nn key.length) (hashInput key msg) (blocksDone (hashInput key msg).length))
      (blockOf128 (hashInput key msg) (blocksDone (hashInput key msg).length))
      (BitVec.ofNat 128 (hashInput key msg).length) true := rfl

/-- Settles O46: INIT starts a hash, the UPDATEs keep it under way, FINAL ends it. -/
theorem commandsComputeTheBlockwiseHash : Obligations.CommandsComputeTheBlockwiseHash := by
  intro s nn key chunks hwf hpos hnn hkey hlen
  obtain ⟨t, hinit, ht⟩ := exec_b2Init_hashing hwf hpos hnn hkey
  obtain ⟨t', hupdate, ht'⟩ := ht.updateAll hlen
  obtain ⟨t'', hfinal, herr, hphase, hh, hcount, hdout⟩ := ht'.final
  rw [hashInput_append] at hh hcount
  rw [← blockwiseHash_eq] at hh
  rw [hashInput_length hkey] at hcount
  refine ⟨t'', ?run, herr, hphase, hh, hcount, hh ▸ hdout⟩
  case run => simp only [hashAll, hinit, andThen, hupdate, hfinal]

/-- Settles O45: both runs compute the blockwise hash of the same message. -/
theorem chunkingDoesNotShow : Obligations.ChunkingDoesNotShow := by
  intro s s' nn key cs ds hwf hwf' hpos hnn hkey hlen hflat
  obtain ⟨t, ht, -, -, hh, hcount, hdout⟩ := commandsComputeTheBlockwiseHash s nn key cs hwf hpos hnn hkey
    fun c hc => hlen c (List.mem_append_left _ hc)
  obtain ⟨t', ht', -, -, hh', hcount', hdout'⟩ := commandsComputeTheBlockwiseHash s' nn key ds hwf' hpos hnn hkey
    fun c hc => hlen c (List.mem_append_right _ hc)
  rw [hflat] at hh hcount hdout
  exact ⟨t, t', ht, ht', hh.trans hh'.symm, hcount.trans hcount'.symm,
    fun k hk => (hdout k hk).trans (hdout' k hk).symm⟩

end Sys2Proof.Machine
end

section
/-! PROOFS of the statements of 30_encoding.md: the byte form of a command (section 2), the words written out (R93, R94), the
expansions of the pseudo-instructions and their labels (R99). -/

namespace Sys2Proof.Machine

/-! ### Commands as bytes -/

theorem instr_wf (i : Instr) : i.wf = true := by cases i <;> rfl

theorem unitOfCmdOffset_eq_some_iff (off : Nat) (u : DevUnit) : unitOfCmdOffset off = some u ↔ off = cmdOffset u := by
  unfold unitOfCmdOffset
  split_ifs with hb2 hb58
  · subst hb2
    cases u <;> decide
  · subst hb58
    cases u <;> decide
  · cases u <;> simp_all

theorem except_map_eq_ok_iff {ε α β : Type} {x : Except ε α} {f : α → β} {b : β} :
    x.map f = .ok b ↔ ∃ a, x = .ok a ∧ f a = b := by
  cases x <;> simp [Except.map]

/-- n bytes have a value below 256^n exactly when they are its bytes (20_memory.md R64). -/
theorem leValue_eq_iff {bs : List Byte} {n v : Nat} (hlen : bs.length = n) (hv : v < 256 ^ n) :
    leValue bs = v ↔ bs = leBytes n v := by
  subst hlen
  constructor
  · rintro rfl
    exact (leBytes_leValue bs).symm
  · intro h
    rw [h, leValue_leBytes, Nat.mod_eq_of_lt hv]

/-- What the byte decoder looks for: the CMD offset of a unit, a word of that unit, then the rest. -/
theorem decodeBytes_ok_iff (i : Instr) (bs rest : List Byte) :
    decodeBytes bs = .ok (i, rest) ↔ 8 ≤ bs.length ∧ ∃ u, leValue ((bs.drop 4).take 4) = cmdOffset u ∧
      decode u (BitVec.ofNat 32 (leValue (bs.take 4))) = .ok i ∧ bs.drop 8 = rest := by
  simp only [← unitOfCmdOffset_eq_some_iff]
  unfold decodeBytes
  by_cases hlen : bs.length < 8
  · simp [hlen]
  rw [if_neg hlen]
  cases unitOfCmdOffset (leValue ((bs.drop 4).take 4)) with
  | none => simp
  | some u => simp [except_map_eq_ok_iff, not_lt.1 hlen]

/-- The same with the command's own word and unit (30_encoding.md R93, R94). -/
theorem decodeBytes_ok_iff_encode (i : Instr) (bs rest : List Byte) :
    decodeBytes bs = .ok (i, rest) ↔ 8 ≤ bs.length ∧ leValue (bs.take 4) = (encode i).toNat ∧
      leValue ((bs.drop 4).take 4) = cmdOffset i.devUnit ∧ bs.drop 8 = rest := by
  rw [decodeBytes_ok_iff]
  refine and_congr_right fun hlen => ?_
  have hword : leValue (bs.take 4) < 2 ^ 32 := by
    have h := leValue_lt (bs.take 4)
    rwa [List.length_take_of_le (by omega)] at h
  have hencode : encode i = BitVec.ofNat 32 (leValue (bs.take 4)) ↔ leValue (bs.take 4) = (encode i).toNat := by
    rw [← BitVec.toNat_inj, BitVec.toNat_ofNat, Nat.mod_eq_of_lt hword, eq_comm]
  simp only [decode_ok_iff, hencode]
  constructor
  · rintro ⟨u, hoff, ⟨rfl, hw⟩, hrest⟩
    exact ⟨hw, hoff, hrest⟩
  · rintro ⟨hw, hoff, hrest⟩
    exact ⟨i.devUnit, hoff, ⟨rfl, hw⟩, hrest⟩

/-- A list is two runs of four and a rest exactly when it can be cut so. -/
theorem eq_append_append_iff {bs as cs rest : List Byte} (ha : as.length = 4) (hc : cs.length = 4) :
    bs = as ++ cs ++ rest ↔ 8 ≤ bs.length ∧ bs.take 4 = as ∧ (bs.drop 4).take 4 = cs ∧ bs.drop 8 = rest := by
  constructor
  · rintro rfl
    refine ⟨by simp only [List.length_append]; omega, ?_, ?_, ?_⟩
    · rw [List.append_assoc, List.take_left' ha]
    · rw [List.append_assoc, List.drop_left' ha, List.take_left' hc]
    · rw [List.drop_left' (by rw [List.length_append]; omega)]
  · rintro ⟨-, rfl, rfl, rfl⟩
    rw [List.append_assoc, show (8 : Nat) = 4 + 4 from rfl, ← List.drop_drop, List.take_append_drop, List.take_append_drop]

/-- Settles O2: what the decoder looks for is where the encoder puts it. -/
theorem decodeBytesInvertsEncodeBytes : Obligations.DecodeBytesInvertsEncodeBytes := by
  intro i bs rest
  have hoff : cmdOffset i.devUnit < 256 ^ 4 := by cases i <;> decide
  rw [encodeBytes, eq_append_append_iff (leBytes_length ..) (leBytes_length ..), decodeBytes_ok_iff_encode]
  simp only [instr_wf, true_and]
  refine and_congr_right fun hlen => ?_
  have hword : (bs.take 4).length = 4 := List.length_take_of_le (by omega)
  have hunit : ((bs.drop 4).take 4).length = 4 := List.length_take_of_le (by rw [List.length_drop]; omega)
  rw [leValue_eq_iff hword (encode i).isLt, leValue_eq_iff hunit hoff]

/-- Settles O3: each word is decoded by evaluation. -/
theorem writtenOutWordsDecode : Obligations.WrittenOutWordsDecode := by
  refine ⟨?_, ?_, ?_, ?_, ?_, ?_⟩ <;> rfl

/-! ### Pseudo-instructions -/

theorem writeBytes_length (off : Nat) (bs : List Byte) : (writeBytes off bs).length = bs.length := by
  induction bs generalizing off with
  | nil => rfl
  | cons b bs ih => rw [writeBytes, List.length_cons, List.length_cons, ih]

/-- WBYTES writes byte k with a W8 at its offset. -/
theorem writeBytes_getElem? (off k : Nat) (bs : List Byte) :
    (writeBytes off bs)[k]? = bs[k]?.map fun b => plain (.w8 (off + k) b) := by
  induction bs generalizing off k with
  | nil => rfl
  | cons b bs ih =>
    cases k with
    | zero => rfl
    | succ k => rw [writeBytes, List.getElem?_cons_succ, List.getElem?_cons_succ, ih, Nat.add_right_comm, Nat.add_assoc]

/-- Settles O18: row by row of the table; WBYTES by its bytes. -/
theorem pseudoInstructionsExpandAsListed : Obligations.PseudoInstructionsExpandAsListed := by
  intro p off nn kk b0 bs e
  refine ⟨?wait, fun k b hb => ?wbytes, writeBytes_length .., rfl, rfl, rfl, rfl, rfl, rfl, rfl⟩
  case wait => rintro q st (⟨rfl, rfl⟩ | ⟨rfl, rfl⟩) <;> exact ⟨rfl, rfl⟩
  case wbytes =>
    rw [expandItem, writeBytes_getElem?, hb]
    rfl

/-! ### The label of a waiting loop -/

/-- How many lines a label names. -/
def namings (l : Label) (prog : Program) : Nat := prog.countP fun line => line.labels.contains l

@[simp] theorem namings_nil (l : Label) : namings l [] = 0 := rfl

theorem namings_cons (l : Label) (line : Line) (prog : Program) :
    namings l (line :: prog) = namings l prog + if line.labels.contains l then 1 else 0 := List.countP_cons

theorem namings_append (l : Label) (p q : Program) : namings l (p ++ q) = namings l p + namings l q :=
  List.countP_append

theorem linesNamed_cons (line : Line) (prog : Program) (l : Label) : linesNamed (line :: prog) l =
    (if line.labels.contains l then [0] else []) ++ (linesNamed prog l).map (· + 1) := by
  unfold linesNamed
  rw [List.length_cons, List.range_succ_eq_map, List.filter_cons, List.filter_map]
  by_cases h : l ∈ line.labels <;> simp [h, Function.comp_def]

theorem linesNamed_length (prog : Program) (l : Label) : (linesNamed prog l).length = namings l prog := by
  induction prog with
  | nil => rfl
  | cons line prog ih =>
    rw [linesNamed_cons, namings_cons, List.length_append, List.length_map, ih, Nat.add_comm]
    split <;> rfl

@[simp] theorem namings_plain (l : Label) (i : HostInstr) (prog : Program) :
    namings l (plain i :: prog) = namings l prog := by simp [namings_cons, plain]

theorem namings_waitLoop (l : Label) (p off : Nat) : namings l (waitLoop p off) = if l = .inner p then 1 else 0 := by
  simp [waitLoop, namings_cons, plain]

@[simp] theorem namings_writeBytes (l : Label) (off : Nat) (bs : List Byte) : namings l (writeBytes off bs) = 0 := by
  induction bs generalizing off with
  | nil => rfl
  | cons b bs ih => rw [writeBytes, namings_plain, ih]

/-- An expansion names its own inner label at most once, and no other label. -/
theorem namings_expandItem_le (l : Label) (p : Nat) (item : SourceItem) :
    namings l (expandItem p item) ≤ if l = .inner p then 1 else 0 := by
  cases item with
  | instr i => simp [expandItem]
  | wbytes off b bs => simp [expandItem]
  | err2 e => simp [expandItem, errLines]
  | err58 e => simp [expandItem, errLines]
  | wait2 => exact (namings_waitLoop ..).le
  | wait58 => exact (namings_waitLoop ..).le
  | b2Init nn kk => simp [expandItem, namings_waitLoop]
  | b2Update len => simp [expandItem, namings_waitLoop]
  | b2Final => simp [expandItem, namings_waitLoop]
  | b58Encode len cap => simp [expandItem, namings_waitLoop]
  | b58Decode len w => simp [expandItem, namings_waitLoop]

/-- The labels of a source line are named ones, so they are no inner label. -/
theorem namings_labelFirst (p : Nat) (ls : List Nat) (lines : List Line) :
    namings (.inner p) (labelFirst (ls.map .named) lines) = namings (.inner p) lines := by
  cases lines with
  | nil => rfl
  | cons line rest => simp [labelFirst, namings_cons]

theorem namings_assembleFrom_cons (p q : Nat) (line : SourceLine) (src : List SourceLine) :
    namings (.inner p) (assembleFrom q (line :: src)) =
      namings (.inner p) (expandItem q line.item) + namings (.inner p) (assembleFrom (q + 1) src) := by
  rw [assembleFrom, namings_append, namings_labelFirst]

/-- No line of another expansion bears an inner label. -/
theorem namings_expandItem_other {p q : Nat} (h : p ≠ q) (item : SourceItem) :
    namings (.inner p) (expandItem q item) = 0 := by
  have hle := namings_expandItem_le (.inner p) q item
  rwa [if_neg (by simpa using h), Nat.le_zero] at hle

theorem namings_assembleFrom_later {p q : Nat} (h : p < q) (src : List SourceLine) :
    namings (.inner p) (assembleFrom q src) = 0 := by
  induction src generalizing q with
  | nil => rfl
  | cons line src ih => rw [namings_assembleFrom_cons, namings_expandItem_other h.ne, ih (by omega)]

/-- The inner label of source line q + k is named by that line's expansion alone. -/
theorem namings_assembleFrom {q k : Nat} {src : List SourceLine} {line : SourceLine} (h : src[k]? = some line) :
    namings (.inner (q + k)) (assembleFrom q src) = namings (.inner (q + k)) (expandItem (q + k) line.item) := by
  induction src generalizing q k with
  | nil => cases h
  | cons first src ih =>
    rw [namings_assembleFrom_cons]
    cases k with
    | zero =>
      cases h
      rw [Nat.add_zero, namings_assembleFrom_later (Nat.lt_succ_self q), Nat.add_zero]
    | succ k =>
      have hrest := ih (q := q + 1) (k := k) h
      rw [Nat.add_right_comm, Nat.add_assoc] at hrest
      rw [namings_expandItem_other (by omega), Nat.zero_add, hrest]

/-- Settles O19: an expansion with a waiting loop names its inner label once, and no other line does. -/
theorem expansionLabelsAreLocal : Obligations.ExpansionLabelsAreLocal := by
  rintro src p line hline ⟨off, front, hloop⟩
  have hcount := namings_assembleFrom (q := 0) hline
  rw [Nat.zero_add] at hcount
  have hle := namings_expandItem_le (.inner p) p line.item
  have hge : namings (.inner p) (expandItem p line.item) = namings (.inner p) front + 1 := by
    rw [hloop, namings_append, namings_waitLoop, if_pos rfl]
  rw [if_pos rfl] at hle
  rw [linesNamed_length, assemble, hcount]
  omega

end Sys2Proof.Machine
end

section
/-! PROOFS of the statements of 40_base58.md about the conversion (R124, R125, R129), and about the errors of B58.ENCODE (R127)
and B58.DECODE (R130). -/

namespace Sys2Proof.Machine

/-! ### The conversion -/

/-- Settles O49: EncSize(n) digits hold every value of n bytes. -/
theorem conversionGivesTheBase58Digits : Obligations.ConversionGivesTheBase58Digits :=
  fun src => b58Digits_eq ((beValue_lt src).trans (pow_256_lt_pow_encSize src.length))

/-- The carry out of a fold is a digit again: 58 * 2^32 bounds what a word can make of a digit (40_base58.md R125). -/
theorem b58Fold_carry_lt (acc : List Word32) {d : Nat} (hd : d < 58) : (b58Fold acc d).2 < 58 := by
  induction acc with
  | nil => exact hd
  | cons a acc ih =>
    have ha := a.isLt
    show (a.toNat * 58 + (b58Fold acc d).2) / 2 ^ 32 < 58
    omega

/-- Settles O48. -/
theorem foldMultipliesBy58AndAdds : Obligations.FoldMultipliesBy58AndAdds := by
  intro acc d hd
  obtain ⟨hval, hlen⟩ := b58Fold_value acc d
  exact ⟨hval, hlen, b58Fold_carry_lt acc hd⟩

/-! ### The errors of B58.ENCODE -/

@[simp] theorem finish_b58_err (s : State) (e : ResultCode) : (finish s .b58 e).b58.err = e := rfl

theorem setParam1_b58 (s : State) (v : Word32) : setParam1 s .b58 v = { s with b58 := { s.b58 with param1 := v } } := rfl

theorem exec_b58Encode_of_long {s : State} (hlong : s.cfg.maxLen < encodeLen s) :
    exec .b58Encode s = .next (finish s .b58 .capacityExceeded) := if_pos hlong

/-- The three outcomes of B58.ENCODE (40_base58.md R127, R129). -/
theorem exec_b58Encode_cases (s : State) :
    (s.cfg.maxLen < encodeLen s ∧ exec .b58Encode s = .next (finish s .b58 .capacityExceeded)) ∨
    (encodeLen s ≤ s.cfg.maxLen ∧ encodeCap s ≤ encodeNeeded s ∧ exec .b58Encode s =
      .next (finish (setParam1 s .b58 (BitVec.ofNat 32 (encodeNeeded s + 1))) .b58 .bufferTooSmall)) ∨
    (encodeLen s ≤ s.cfg.maxLen ∧ exec .b58Encode s = .next (encodedState s)) := by
  obtain hlong | hlen := Nat.lt_or_ge s.cfg.maxLen (encodeLen s)
  · exact .inl ⟨hlong, exec_b58Encode_of_long hlong⟩
  · obtain hroom | hcap := Nat.lt_or_ge (encodeNeeded s) (encodeCap s)
    · exact .inr (.inr ⟨hlen, exec_b58Encode_of_room hlen hroom⟩)
    · exact .inr (.inl ⟨hlen, hcap, by rw [exec_b58Encode hlen, if_pos hcap]⟩)

/-- Settles O52. -/
theorem encodeRefusesLongInput : Obligations.EncodeRefusesLongInput := by
  intro s hlong
  rw [exec_b58Encode_of_long hlong, finish_b58]

theorem txtSize_le_of_wf {cfg : Config} (hc : cfg.wf = true) : cfg.txtSize ≤ 2048 := by
  simp only [Config.wf, Bool.and_eq_true, decide_eq_true_eq] at hc
  exact hc.2

/-- Settles O51: the required length is at most the size of TXT, so PARAM1 holds it. -/
theorem encodeReportsTheRequiredLength : Obligations.EncodeReportsTheRequiredLength := by
  intro s hcfg hlen (hcap : encodeCap s ≤ encodeNeeded s)
  refine ⟨?next, ?length⟩
  case next =>
    rw [exec_b58Encode hlen, if_pos hcap, finish_b58, setParam1_b58]
  case length =>
    have hsize := (encodeNeeded_lt_txtSize s hlen).trans (txtSize_le_of_wf hcfg)
    rw [BitVec.toNat_ofNat]
    omega

/-- A successful B58.ENCODE writes inside TXT only (40_base58.md R129). -/
theorem encodedState_frame {s : State} (hlen : encodeLen s ≤ s.cfg.maxLen) {a : Nat}
    (ha : ¬ (0x800 ≤ a ∧ a < 0x800 + s.cfg.txtSize)) : memRead (encodedState s).mem a = memRead s.mem a := by
  have hsize := encodeNeeded_lt_txtSize s hlen
  refine b58Done_frame _ _ _ _ ?_
  rw [List.length_append, encodeText_length]
  simp only [winBase, List.length_singleton]
  omega

/-- Settles O53: none of the three outcomes is an Underflow, and only an input too long is CapacityExceeded. -/
theorem encodeStaysInItsBounds : Obligations.EncodeStaysInItsBounds := by
  intro s t h
  obtain ⟨hlong, he⟩ | ⟨-, -, he⟩ | ⟨hlen, he⟩ := exec_b58Encode_cases s
  · cases he.symm.trans h
    exact ⟨by simp, fun hlen => absurd hlong (not_lt.2 hlen), fun a _ => by rw [finish_mem]⟩
  · cases he.symm.trans h
    exact ⟨by simp, fun _ => by simp, fun a _ => by rw [finish_mem, setParam1_mem]⟩
  · cases he.symm.trans h
    exact ⟨by simp [encodedState], fun _ => by simp [encodedState], fun a ha => encodedState_frame hlen ha⟩

/-! ### The errors of B58.DECODE -/

/-- A scan that meets no terminator (40_base58.md R130, E3). -/
theorem terminatorAt_eq_none {s : State} (h : ∀ k < s.cfg.txtSize, winRead s .txt k ≠ 0) : terminatorAt s = none := by
  simp only [terminatorAt, List.find?_eq_none, List.mem_range, beq_iff_eq]
  exact h

/-- Settles O57: the three checks stand in this order, and each ends alike. -/
theorem decodeRefusesBadLengths : Obligations.DecodeRefusesBadLengths := by
  intro s hbad
  show execB58Decode s = .next (finish s .b58 .capacityExceeded)
  unfold execB58Decode
  by_cases hwidth : s.cfg.maxLen < decodeWidth s
  · simp only [if_pos hwidth]
  by_cases hlong : s.cfg.txtSize < decodeLen s
  · simp only [if_neg hwidth, if_pos hlong]
  · obtain h | h | ⟨hzero, hscan⟩ := hbad
    · exact absurd h hwidth
    · exact absurd h hlong
    · have hlen : decodeTextLen s = none := (if_pos hzero).trans (terminatorAt_eq_none hscan)
      simp only [if_neg hwidth, if_neg hlong, hlen]

/-- How B58.DECODE goes on after its loop (40_base58.md R130). -/
def decodeEnd (s : State) (w zc : Nat) : Except ResultCode (List Word32) → State
  | .error e => finish s .b58 e
  | .ok acc => storeDecoded s w zc acc

/-- B58.DECODE of a text that starts with zc '1's and plain digits, from the loop on (40_base58.md R130). -/
theorem exec_b58Decode_of_text {s : State} {n w zc : Nat} {ds : List Nat} {rest : List Byte}
    (hw : w = s.b58.param1.toNat) (hN : w ≤ s.cfg.maxLen) (hn : TextLength s n)
    (htext : winBytes s .txt n = textOf zc ds ++ rest) (hds : PlainDigits ds)
    (hrest : ds = [] → rest.head? ≠ some 0x31) :
    exec .b58Decode s =
      .next (decodeEnd s w zc (decodeChars w (ds.map symbolOf ++ rest) (List.replicate ((w + 3) / 4) 0))) := by
  have hwidth : decodeWidth s = w := hw.symm
  rw [execB58Decode_of_textLength (hw ▸ hN) hn, hwidth, htext, leadingCount_textOf zc ds rest hds hrest, textOf_drop]
  cases decodeChars w (ds.map symbolOf ++ rest) (List.replicate ((w + 3) / 4) 0) <;> rfl

/-- A character with no digit ends the loop (40_base58.md R130, E4, E5). -/
theorem decodeChars_other {w : Nat} {ch : Byte} (hch : ∀ d < 58, symbolOf d ≠ ch) (rest : List Byte) (acc : List Word32) :
    decodeChars w (ch :: rest) acc = .error .invalidCharacter := by
  have hdigit : digitOf ch = none := Option.eq_none_iff_forall_ne_some.2 fun d h =>
    hch d (digitOf_some h).1 (digitOf_some h).2
  simp only [decodeChars, hdigit, ite_self]

/-- The loop from the zero accumulator over digits whose value fits the width (40_base58.md R131). -/
theorem decodeChars_start {w : Nat} {ds : List Nat} (rest : List Byte) (hd : ∀ d ∈ ds, d < 58)
    (hfit : digitsValue ds < 2 ^ (8 * w)) :
    ∃ acc, decodeChars w (ds.map symbolOf ++ rest) (List.replicate ((w + 3) / 4) 0) = decodeChars w rest acc ∧
      acc.length = (w + 3) / 4 ∧ accValue acc = digitsValue ds := by
  have hstart : 58 ^ ds.length * accValue (List.replicate ((w + 3) / 4) 0) + digitsValue ds = digitsValue ds := by
    rw [accValue_zeros, Nat.mul_zero, Nat.zero_add]
  obtain ⟨acc, hloop, hl, hval⟩ := decodeChars_digits rest hd (by simp) (hstart ▸ hfit)
  exact ⟨acc, hloop, hl, hval.trans hstart⟩

/-- Settles O56: the digits before the character are read into the accumulator, and the loop ends at it. -/
theorem decodeRefusesOtherCharacters : Obligations.DecodeRefusesOtherCharacters := by
  intro s n w zc ds ch rest hw hN hn htext hds hfit hch
  have hone : ds = [] → (ch :: rest).head? ≠ some 0x31 := fun _ h => hch 0 (by omega) (Option.some.inj h).symm
  obtain ⟨acc, hloop, -⟩ := decodeChars_start (ch :: rest) hds.1 hfit
  rw [exec_b58Decode_of_text hw hN hn htext hds hone, hloop, decodeChars_other hch, decodeEnd, finish_b58]

/-- One symbol whose fold does not fit the width: the carry or the width check says so (40_base58.md R130, E6, E7). -/
theorem decodeChars_symbol_overflow {w d : Nat} (hd : d < 58) (cs : List Byte) {acc : List Word32}
    (hl : acc.length = (w + 3) / 4) (hover : 2 ^ (8 * w) ≤ 58 * accValue acc + d) :
    decodeChars w (symbolOf d :: cs) acc = .error .capacityExceeded := by
  obtain ⟨hbit, hdigit⟩ := symbolOf_digit d hd
  obtain ⟨hval, hlen⟩ := b58Fold_value acc d
  by_cases hcarry : (b58Fold acc d).2 = 0
  · have hwidth : beyondWidth w (b58Fold acc d).1 = true := by
      rw [hcarry, Nat.mul_zero, Nat.add_zero] at hval
      rwa [beyondWidth_iff w _ (hlen.trans hl), hval]
    simp only [decodeChars, hbit, hdigit, hcarry, hwidth, ne_eq, not_true_eq_false, Bool.false_eq_true, if_false, if_true]
  · simp only [decodeChars, hbit, hdigit, hcarry, ne_eq, not_false_eq_true, Bool.false_eq_true, if_false, if_true]

/-- Digits whose value does not fit the width end the loop, whatever follows them: the first fold that overflows does
(40_base58.md R131). -/
theorem decodeChars_digits_overflow {w : Nat} {ds : List Nat} (rest : List Byte) {acc : List Word32}
    (hd : ∀ d ∈ ds, d < 58) (hl : acc.length = (w + 3) / 4) (hacc : accValue acc < 2 ^ (8 * w))
    (hover : 2 ^ (8 * w) ≤ 58 ^ ds.length * accValue acc + digitsValue ds) :
    decodeChars w (ds.map symbolOf ++ rest) acc = .error .capacityExceeded := by
  induction ds generalizing acc with
  | nil => simp [digitsValue, not_le.2 hacc] at hover
  | cons d ds ih =>
    have hd58 := hd d (by simp)
    rw [List.map_cons, List.cons_append]
    obtain hstep | hstep := Nat.lt_or_ge (58 * accValue acc + d) (2 ^ (8 * w))
    · have hfold := (b58Fold_of_fits hl hstep).2
      rw [decodeChars_symbol hd58 _ hl hstep]
      refine ih (fun x hx => hd x (by simp [hx])) ((b58Fold_value acc d).2.trans hl) (hfold ▸ hstep) ?_
      calc 2 ^ (8 * w) ≤ 58 ^ (ds.length + 1) * accValue acc + digitsValue (d :: ds) := hover
        _ = 58 ^ ds.length * accValue (b58Fold acc d).1 + digitsValue ds := by rw [hfold, digitsValue_cons]; ring
    · exact decodeChars_symbol_overflow hd58 _ hl hstep

/-- Settles O55: an overflow in the loop, or at the count of the zeros after it (E8). -/
theorem decodeRefusesWhatDoesNotFit : Obligations.DecodeRefusesWhatDoesNotFit := by
  intro s n w zc ds rest hw hN hn htext hds hbad
  have hpos : 0 < 2 ^ (8 * w) := by positivity
  obtain hover | hfit := le_or_gt (2 ^ (8 * w)) (digitsValue ds)
  · have hne : ds ≠ [] := by
      rintro rfl
      simp [digitsValue] at hover
    have hloop := decodeChars_digits_overflow (w := w) rest (acc := List.replicate ((w + 3) / 4) 0) hds.1 (by simp)
      (by rwa [accValue_zeros]) (by rwa [accValue_zeros, Nat.mul_zero, Nat.zero_add])
    rw [exec_b58Decode_of_text hw hN hn htext hds (fun h => absurd h hne), hloop, decodeEnd, finish_b58]
  · obtain ⟨rfl, hzeros⟩ := hbad.resolve_left (not_le.2 hfit)
    obtain ⟨acc, hloop, hl, hval⟩ := decodeChars_start [] hds.1 hfit
    rw [exec_b58Decode_of_text hw hN hn htext hds (by simp), hloop, decodeChars, decodeEnd,
      storeDecoded_eq s w zc acc hl (hval ▸ hfit), hval, if_pos hzeros, finish_b58]

end Sys2Proof.Machine
end

section
/-! PROOFS of the statements of 41_blake2b.md about the mixing function and the round (R173, R174) and about the absorbed bytes
(R183). -/

namespace Sys2Proof.Machine

/-! ### The mixing function -/

theorem set_word_self (v : Words16) (k : Fin 16) (x : Word64) : (v.set k x)[k] = x := Vector.getElem_set_self k.isLt

theorem set_word_ne (v : Words16) {k i : Fin 16} (x : Word64) (h : k ≠ i) : (v.set k x)[i] = v[i] :=
  Vector.getElem_set_ne k.isLt i.isLt (Fin.val_ne_of_ne h)

/-- One half of G: its four words renewed one after another, with the message word x and the rotations r and q. -/
def mixHalf (v : Words16) (a b c d : Fin 16) (x : Word64) (r q : Nat) : Words16 :=
  let v := v.set a (v[a] + v[b] + x)
  let v := v.set d (rotr64 (v[d] ^^^ v[a]) r)
  let v := v.set c (v[c] + v[d])
  v.set b (rotr64 (v[b] ^^^ v[c]) q)

theorem blakeG_eq_halves (v : Words16) (a b c d : Fin 16) (x y : Word64) :
    blakeG v a b c d x y = mixHalf (mixHalf v a b c d x 32 24) a b c d y 16 63 := rfl

/-- A half writes its four words only. -/
theorem mixHalf_frame (v : Words16) {a b c d i : Fin 16} (x : Word64) (r q : Nat) (hi : i ∉ [a, b, c, d]) :
    (mixHalf v a b c d x r q)[i] = v[i] := by
  simp only [List.mem_cons, List.not_mem_nil, or_false, not_or] at hi
  obtain ⟨ha, hb, hc, hd⟩ := hi
  rw [mixHalf, set_word_ne _ _ (Ne.symm hb), set_word_ne _ _ (Ne.symm hc), set_word_ne _ _ (Ne.symm hd),
    set_word_ne _ _ (Ne.symm ha)]

/-- The words of a half on four different indices (41_blake2b.md R173). -/
theorem mixHalf_words (v : Words16) {a b c d : Fin 16} (x : Word64) {r q : Nat} (hr : r < 64) (hq : q < 64)
    (hnodup : [a, b, c, d].Nodup) {w : Words16} (hw : w = mixHalf v a b c d x r q) :
    w[a] = v[a] + v[b] + x ∧ w[d] = (v[d] ^^^ w[a]).rotateRight r ∧ w[c] = v[c] + w[d] ∧
      w[b] = (v[b] ^^^ w[c]).rotateRight q := by
  have hne : (a ≠ b ∧ a ≠ c ∧ a ≠ d) ∧ (b ≠ c ∧ b ≠ d) ∧ c ≠ d := by simpa using hnodup
  obtain ⟨⟨hab, hac, had⟩, ⟨hbc, hbd⟩, hcd⟩ := hne
  rw [hw, mixHalf, ← rotr64_eq_rotateRight _ hr, ← rotr64_eq_rotateRight _ hq]
  simp only [set_word_self, set_word_ne _ _ hab, set_word_ne _ _ hab.symm, set_word_ne _ _ hac, set_word_ne _ _ hac.symm,
    set_word_ne _ _ had, set_word_ne _ _ had.symm, set_word_ne _ _ hbc, set_word_ne _ _ hbc.symm, set_word_ne _ _ hbd,
    set_word_ne _ _ hbd.symm, set_word_ne _ _ hcd, set_word_ne _ _ hcd.symm, and_self]

/-- G writes its four words only. -/
theorem blakeG_frame (v : Words16) {a b c d i : Fin 16} (x y : Word64) (hi : i ∉ [a, b, c, d]) :
    (blakeG v a b c d x y)[i] = v[i] := by
  rw [blakeG_eq_halves, mixHalf_frame _ y 16 63 hi, mixHalf_frame v x 32 24 hi]

/-- Settles O36: the words after the first half, and the words the second half makes of them. -/
theorem mixingFollowsItsRule : Obligations.MixingFollowsItsRule := by
  intro v w a b c d x y hw
  refine ⟨fun i ha hb hc hd => hw ▸ blakeG_frame v x y (by simp [ha, hb, hc, hd]), fun hnodup => ?_⟩
  obtain ⟨ha, hd, hc, hb⟩ := mixHalf_words v x (r := 32) (q := 24) (by omega) (by omega) hnodup rfl
  exact ⟨_, _, _, _, ha, hd, hc, hb, mixHalf_words _ y (by omega) (by omega) hnodup hw⟩

/-- Two work vectors agree on a group of words. -/
def AgreeOn (g : List (Fin 16)) (v w : Words16) : Prop := ∀ i ∈ g, v[i] = w[i]

/-- The same value written to the same word keeps the agreement. -/
theorem AgreeOn.set {g : List (Fin 16)} {v w : Words16} (h : AgreeOn g v w) (k : Fin 16) {x y : Word64} (hxy : x = y) :
    AgreeOn g (v.set k x) (w.set k y) := by
  intro i hi
  subst hxy
  by_cases hk : k = i
  · rw [hk, set_word_self, set_word_self]
  · rw [set_word_ne _ _ hk, set_word_ne _ _ hk, h i hi]

/-- What a half writes to its four words it computes from them (41_blake2b.md R173). -/
theorem AgreeOn.mixHalf {v w : Words16} {a b c d : Fin 16} (h : AgreeOn [a, b, c, d] v w) (x : Word64) (r q : Nat) :
    AgreeOn [a, b, c, d] (mixHalf v a b c d x r q) (mixHalf w a b c d x r q) := by
  have ha : a ∈ [a, b, c, d] := by simp
  have hb : b ∈ [a, b, c, d] := by simp
  have hc : c ∈ [a, b, c, d] := by simp
  have hd : d ∈ [a, b, c, d] := by simp
  have afterA := h.set a (congrArg₂ (fun m n => m + n + x) (h a ha) (h b hb))
  have afterD := afterA.set d (congrArg₂ (fun m n => rotr64 (m ^^^ n) r) (afterA d hd) (afterA a ha))
  have afterC := afterD.set c (congrArg₂ (· + ·) (afterD c hc) (afterD d hd))
  exact afterC.set b (congrArg₂ (fun m n => rotr64 (m ^^^ n) q) (afterC b hb) (afterC c hc))

theorem AgreeOn.blakeG {v w : Words16} {a b c d : Fin 16} (h : AgreeOn [a, b, c, d] v w) (x y : Word64) :
    AgreeOn [a, b, c, d] (blakeG v a b c d x y) (blakeG w a b c d x y) :=
  (h.mixHalf x 32 24).mixHalf y 16 63

/-- Settles O37: word by word, a word of one group sees that group's application only. -/
theorem mixingOfDisjointGroupsCommutes : Obligations.MixingOfDisjointGroupsCommutes := by
  intro v a b c d a' b' c' d' x y x' y' hdisjoint
  have hdisjoint' : ∀ i ∈ [a', b', c', d'], i ∉ [a, b, c, d] := fun i hi' hi => hdisjoint i hi hi'
  have hword : ∀ i : Fin 16, (blakeG (blakeG v a b c d x y) a' b' c' d' x' y')[i] =
      (blakeG (blakeG v a' b' c' d' x' y') a b c d x y)[i] := by
    intro i
    by_cases hi : i ∈ [a, b, c, d]
    · have hagree : AgreeOn [a, b, c, d] v (blakeG v a' b' c' d' x' y') :=
        fun j hj => (blakeG_frame v x' y' (hdisjoint j hj)).symm
      rw [blakeG_frame _ x' y' (hdisjoint i hi), hagree.blakeG x y i hi]
    rw [blakeG_frame _ x y hi]
    by_cases hi' : i ∈ [a', b', c', d']
    · have hagree : AgreeOn [a', b', c', d'] (blakeG v a b c d x y) v :=
        fun j hj => blakeG_frame v x y (hdisjoint' j hj)
      rw [hagree.blakeG x' y' i hi']
    · rw [blakeG_frame _ x' y' hi', blakeG_frame v x y hi, blakeG_frame v x' y' hi']
  exact Vector.ext fun k hk => hword ⟨k, hk⟩

/-- Settles O38: the fold over the eight groups, written out, is the definition. -/
theorem roundAppliesGToColumnsThenDiagonals : Obligations.RoundAppliesGToColumnsThenDiagonals := fun _ _ _ => rfl

/-! ### The absorbed bytes -/

/-- A compressed block moves from the buffer to the counter (41_blake2b.md R177). -/
theorem compressFull_count (x : B2Unit) :
    (compressFull x).t + BitVec.ofNat 128 (compressFull x).c.val = x.t + BitVec.ofNat 128 x.c.val := by
  by_cases hfull : x.c = 128
  · rw [compressFull_full hfull, hfull]
    exact BitVec.add_zero _
  · rw [compressFull_room hfull]

theorem absorbByte_count (x : B2Unit) (b : Byte) :
    (absorbByte x b).t + BitVec.ofNat 128 (absorbByte x b).c.val = x.t + BitVec.ofNat 128 (x.c.val + 1) := by
  have hc : (absorbByte x b).c.val = (compressFull x).c.val + 1 := fin129_succ (compressFull_room_left x)
  have ht : (absorbByte x b).t = (compressFull x).t := rfl
  rw [hc, ht, BitVec.ofNat_add, BitVec.ofNat_add, ← BitVec.add_assoc, compressFull_count, BitVec.add_assoc]

/-- Settles O41: byte by byte. -/
theorem absorbCountsEveryByte : Obligations.AbsorbCountsEveryByte := by
  intro x bs
  induction bs generalizing x with
  | nil => rfl
  | cons b bs ih =>
    calc (absorb x (b :: bs)).t + BitVec.ofNat 128 (absorb x (b :: bs)).c.val
        = (absorbByte x b).t + BitVec.ofNat 128 ((absorbByte x b).c.val + bs.length) := ih (absorbByte x b)
      _ = x.t + BitVec.ofNat 128 (x.c.val + 1) + BitVec.ofNat 128 bs.length := by
          rw [BitVec.ofNat_add, ← BitVec.add_assoc, absorbByte_count]
      _ = x.t + BitVec.ofNat 128 (x.c.val + (b :: bs).length) := by
          rw [BitVec.add_assoc, ← BitVec.ofNat_add, List.length_cons, Nat.add_assoc, Nat.add_comm 1]

end Sys2Proof.Machine
end

section
/-! PROOFS of the statements of 20_memory.md about the address map (R60, R61) and about what an access of a register or of a
window answers (R64 to R72), and of the fields of STATUS (10_state.md R30, R35). -/

namespace Sys2Proof.Machine

/-! ### The fields of STATUS -/

/-- Bit i of a STATUS word: each field at its place, 0 beside them (10_state.md R30). -/
theorem statusWord_getLsbD (busy : Bool) (err : ResultCode) (phase : BitVec 2) {i : Nat} (hi : i < 32) :
    (statusWord busy err phase).getLsbD i =
      (decide (i = 0) && busy || decide (4 ≤ i) && (resultCode err).getLsbD (i - 4) ||
        decide (8 ≤ i) && phase.getLsbD (i - 8)) := by
  have h4 : i - 4 < 32 := by omega
  have h8 : i - 8 < 32 := by omega
  simp only [statusWord, BitVec.getLsbD_or, BitVec.getLsbD_shiftLeft, BitVec.getLsbD_setWidth, BitVec.getLsbD_ofBool, hi, h4,
    h8, decide_true, Bool.true_and, ← decide_not, not_lt]

theorem statusWord_fields (busy : Bool) (err : ResultCode) (phase : BitVec 2) :
    (statusWord busy err phase).getLsbD 0 = busy ∧ (statusWord busy err phase).extractLsb' 1 3 = 0 ∧
    (statusWord busy err phase).extractLsb' 4 4 = resultCode err ∧ (statusWord busy err phase).extractLsb' 8 2 = phase ∧
    (statusWord busy err phase).extractLsb' 10 22 = 0 := by
  refine ⟨?busy, BitVec.eq_of_getLsbD_eq fun i hi => ?low, BitVec.eq_of_getLsbD_eq fun i hi => ?err,
    BitVec.eq_of_getLsbD_eq fun i hi => ?phase, BitVec.eq_of_getLsbD_eq fun i hi => ?high⟩
  case busy => simpa using statusWord_getLsbD busy err phase (i := 0) (by omega)
  all_goals rw [BitVec.getLsbD_extractLsb', statusWord_getLsbD _ _ _ (by omega)]
  case low => simp [show ¬ 4 ≤ 1 + i by omega, show ¬ 8 ≤ 1 + i by omega]
  case err => simp [hi, show ¬ 8 ≤ 4 + i by omega]
  case phase =>
    have hcode : (resultCode err).getLsbD (8 + i - 4) = false := BitVec.getLsbD_of_ge _ _ (by omega)
    simp [hi, hcode]
  case high =>
    have hcode : (resultCode err).getLsbD (10 + i - 4) = false := BitVec.getLsbD_of_ge _ _ (by omega)
    have hphase : phase.getLsbD (10 + i - 8) = false := BitVec.getLsbD_of_ge _ _ (by omega)
    simp [hcode, hphase]

/-- The bits above ERR are 0 when the phase is (10_state.md R35). -/
theorem statusWord_no_phase (busy : Bool) (err : ResultCode) : (statusWord busy err 0).extractLsb' 8 24 = 0 := by
  refine BitVec.eq_of_getLsbD_eq fun i hi => ?_
  have hcode : (resultCode err).getLsbD (8 + i - 4) = false := BitVec.getLsbD_of_ge _ _ (by omega)
  rw [BitVec.getLsbD_extractLsb', statusWord_getLsbD _ _ _ (by omega)]
  simp [hcode]

/-- Settles O15. -/
theorem statusWordsHoldTheirFields : Obligations.StatusWordsHoldTheirFields := by
  refine ⟨fun s => ?_, rfl, rfl, rfl, rfl, rfl, rfl, rfl, rfl, rfl, rfl, rfl, rfl⟩
  obtain ⟨busy, low, err, phase, high⟩ := statusWord_fields s.b2.latch.pending s.b2.err (phaseCode s.b2.phase)
  obtain ⟨busy', low', err', -, -⟩ := statusWord_fields s.b58.latch.pending s.b58.err 0
  exact ⟨busy, low, err, phase, high, busy', low', err', statusWord_no_phase _ _⟩

/-- BUSY is the pending bit of the latch (10_state.md R30, R42). -/
theorem statusOf_busy (s : State) (u : DevUnit) : (statusOf s u).getLsbD 0 = (latchOf s u).pending := by
  cases u
  · exact (statusWord_fields ..).1
  · exact (statusWord_fields ..).1

/-! ### Registers -/

@[simp] theorem latchOf_issue (s : State) (u : DevUnit) (v : Word32) :
    latchOf (issue s u v) u = { pending := true, word := v } := latchOf_setLatch ..

/-- Settles O7: the write of CMD is `issue`, which sets the pending bit. -/
theorem commandWriteIssuesTheWord : Obligations.CommandWriteIssuesTheWord := by
  intro s v
  refine ⟨busWrite_cmd (u := .b2) v, busWrite_cmd (u := .b58) v, fun u => ?busy⟩
  case busy => rw [statusOf_busy, latchOf_issue]

/-- A whole register of an idle unit is read (20_memory.md R67, R68). -/
theorem busRead_reg {s : State} {u : DevUnit} (r : Reg) (hp : (latchOf s u).pending = false) :
    busRead s (regOffset u r) .word = .ok (readReg s u r).toNat := by
  simp [busRead, sizeBytes, busCheck_reg s u r .read hp, locate_regOffset_self]

/-- A whole register of an idle unit is written, if it is not STATUS (20_memory.md R67). -/
theorem busWrite_reg {s : State} {u : DevUnit} {r : Reg} (v : Word32) (hp : (latchOf s u).pending = false)
    (hr : r ≠ .status) : busWrite s (regOffset u r) .word v.toNat = .ok (writeReg s u v r) := by
  simp [busWrite, sizeBytes, busCheck_reg s u r .write hp, hr, locate_regOffset_self]

theorem busWrite_status {s : State} {u : DevUnit} (v : Nat) (hp : (latchOf s u).pending = false) :
    busWrite s (regOffset u .status) .word v = .error .readOnly := by
  simp [busWrite, sizeBytes, busCheck_reg s u .status .write hp]

/-- Settles O11: the reads and writes of whole registers, PARAM read in the state after its write. -/
theorem idleRegistersReadAndWrite : Obligations.IdleRegistersReadAndWrite := by
  intro s u v hp
  refine ⟨busRead_reg .cmd hp, busRead_reg .status hp, busWrite_reg (r := .param0) v hp Reg.noConfusion,
    busWrite_reg (r := .param1) v hp Reg.noConfusion, ?param0, ?param1, busWrite_status v.toNat hp⟩
  case param0 => rw [busRead_reg .param0 (by rwa [latchOf_setParam0]), readReg, param0Of_setParam0]
  case param1 => rw [busRead_reg .param1 (by rwa [latchOf_setParam1]), readReg, param1Of_setParam1]

/-! ### Reserved offsets -/

/-- An offset of a reserved range of 20_memory.md R61. -/
def InReservedRange (cfg : Config) (b : Nat) : Prop :=
  (0x010 ≤ b ∧ b ≤ 0x0FF) ∨ (0x1C0 ≤ b ∧ b ≤ 0x1FF) ∨ (0x210 ≤ b ∧ b ≤ 0x3FF) ∨
    (0x400 + cfg.maxLen ≤ b ∧ b ≤ 0x7FF) ∨ (0x800 + cfg.txtSize ≤ b ∧ b ≤ 0xFFF)

/-- Nothing is mapped to a reserved range (20_memory.md R61). -/
theorem locate_of_reserved {cfg : Config} {b : Nat} (h : InReservedRange cfg b) : locate cfg b = .reserved := by
  unfold locate
  obtain h | h | h | h | h := h <;> simp (disch := omega) only [if_pos, if_neg]

theorem coversReserved_of_mem {cfg : Config} {a b n : Nat} (hlow : a ≤ b) (hhigh : b < a + n)
    (h : locate cfg b = .reserved) : coversReserved cfg a n = true := by
  simp only [coversReserved, List.any_eq_true, List.mem_range]
  exact ⟨b - a, by omega, by simp [Nat.add_sub_cancel' hlow, h]⟩

/-- Settles O9: the check for reserved offsets stands first. -/
theorem reservedOffsetsAreBusErrors : Obligations.ReservedOffsetsAreBusErrors := by
  intro s a b size _ hlow hhigh hrange
  have hcov := coversReserved_of_mem hlow hhigh (locate_of_reserved hrange)
  have hcheck : ∀ kind, busCheck s kind a (sizeBytes size) = some .reservedOffset := fun kind => if_pos hcov
  exact ⟨by rw [busRead, hcheck], fun v => by rw [busWrite, hcheck]⟩

/-! ### Windows -/

/-- Settles O12: no check fails but the one for a write of DOUT. -/
theorem alignedWindowAccessesArePerformed : Obligations.AlignedWindowAccessesArePerformed := by
  intro s w k size hcfg hp halign hin
  have hcheck := fun kind => busCheck_window s w k size kind hcfg hp halign hin
  have hl : locate s.cfg (winBase w + k) = .window w k := by
    have hpos := sizeBytes_pos size
    exact locate_of_window hcfg (by omega)
  refine ⟨?read, fun hw v => ⟨{ s with mem := memWriteBytes s.mem (winBase w + k) (leBytes (sizeBytes size) v) }, ?write⟩,
    fun hw v => ?dout⟩
  case read => simp [busRead, hcheck, hl]
  case write => simp [busWrite, hcheck, hl, hw]
  case dout => rw [busWrite, hcheck, if_pos ⟨rfl, hw⟩]

/-- Settles O13: a performed access of a window is aligned and inside it. -/
theorem misalignedWindowAccessesAreBusErrors : Obligations.MisalignedWindowAccessesAreBusErrors := by
  intro s w k size hcfg hk hbad
  have hl := locate_of_window hcfg hk
  have hperformed : ¬ ((winBase w + k) % sizeBytes size = 0 ∧ k + sizeBytes size ≤ winSize s.cfg w) := by
    rintro ⟨halign, hin⟩
    exact hbad.elim (absurd halign) (absurd hin ∘ not_le.2)
  refine ⟨exists_error_of_ne_ok fun v h => ?read, fun v => exists_error_of_ne_ok fun t h => ?write⟩
  case read =>
    obtain ⟨-, ⟨u, r, hl', -⟩ | ⟨w', k', hl', halign, hin, -⟩⟩ := busRead_ok h
    · cases hl.symm.trans hl'
    · cases hl.symm.trans hl'
      exact hperformed ⟨halign, hin⟩
  case write =>
    obtain ⟨-, ⟨u, r, hl', -⟩ | ⟨w', k', hl', -, halign, hin, -⟩⟩ := busWrite_ok h
    · cases hl.symm.trans hl'
    · cases hl.symm.trans hl'
      exact hperformed ⟨halign, hin⟩

/-- An access that may write may read (20_memory.md R69). -/
theorem busCheck_read_of_write {s : State} {a n : Nat} (h : busCheck s .write a n = none) :
    busCheck s .read a n = none := by
  obtain ⟨hcov, hsize, hbusy, -⟩ := busCheck_none h
  have hp : (latchOf s (blockOf a)).pending = false := hbusy.resolve_right (by simp [isStatusRead])
  simp [busCheck, hcov, hsize, hp]

theorem busCheck_of_busWrite_ok {s t : State} {a v : Nat} {size : AccessSize} (h : busWrite s a size v = .ok t) :
    busCheck s .write a (sizeBytes size) = none := by
  unfold busWrite at h
  split at h
  · cases h
  · assumption

/-- A performed write of a window writes the little-endian bytes of the value (20_memory.md R64, R72). -/
theorem busWrite_ok_window {s t : State} {a v k : Nat} {size : AccessSize} {w : Window} (hl : locate s.cfg a = .window w k)
    (h : busWrite s a size v = .ok t) :
    t = { s with mem := memWriteBytes s.mem a (leBytes (sizeBytes size) v) } := by
  obtain ⟨-, ⟨u, r, hl', -⟩ | ⟨w', k', -, -, -, -, ht⟩⟩ := busWrite_ok h
  · cases hl.symm.trans hl'
  · exact ht

theorem sizeBytes_le (size : AccessSize) : sizeBytes size ≤ 4 := by cases size <;> decide

/-- Byte i of a value as bits [8i+7 : 8i] of a word (20_memory.md R64). -/
theorem ofNat_byte (v : Nat) {i : Nat} (hi : i < 4) :
    BitVec.ofNat 8 (v / 256 ^ i) = (BitVec.ofNat 32 v).extractLsb' (8 * i) 8 := by
  apply BitVec.eq_of_toNat_eq
  rw [BitVec.toNat_ofNat, BitVec.extractLsb'_toNat, BitVec.toNat_ofNat, Nat.shiftRight_eq_div_pow]
  interval_cases i <;> omega

/-- Settles O14: the bytes written, read back, and the rest of the memory. -/
theorem windowWriteIsLittleEndianAndLocal : Obligations.WindowWriteIsLittleEndianAndLocal := by
  intro s t w k a v size hwf hl hv hwrite
  have hcheck := busCheck_read_of_write (busCheck_of_busWrite_ok hwrite)
  have hsize := sizeBytes_le size
  have hlen : (leBytes (sizeBytes size) v).length = sizeBytes size := leBytes_length ..
  obtain rfl := busWrite_ok_window hl hwrite
  refine ⟨?read, fun i hi => ?bytes, fun b hb => ?frame, memWriteBytes_wf _ _ _ hwf, rfl⟩
  case read =>
    have hcheck' : busCheck { s with mem := memWriteBytes s.mem a (leBytes (sizeBytes size) v) } .read a (sizeBytes size) =
      none := hcheck
    have hback := memReadBytes_memWriteBytes (leBytes (sizeBytes size) v) s.mem a hwf
    rw [hlen] at hback
    simp only [busRead, hcheck', hl, hback, leValue_leBytes, Nat.mod_eq_of_lt hv]
  case bytes => rw [memRead_memWriteBytes_in _ _ _ _ hwf (by omega), leBytes_getElem, ofNat_byte v (by omega)]
  case frame => exact memRead_memWriteBytes_out _ _ _ _ (by rwa [hlen])

/-! ### The host's addresses -/

/-- Settles O23. -/
theorem deviceAddressesAreBasePlusOffset : Obligations.DeviceAddressesAreBasePlusOffset := by
  refine ⟨Nat.mul_mod_right .., fun addr off => ?_⟩
  unfold deviceOffset hostAddress
  split
  · rw [Option.some.injEq]
    omega
  · simp only [reduceCtorEq, false_iff]
    omega

end Sys2Proof.Machine
end

section
/-! PROOFS of the statements of 30_encoding.md R98 about the host agent: its accesses, arithmetic and branches, what it cannot
change (70_reset_and_hazards.md R268) and what it cannot see (10_state.md R21). -/

namespace Sys2Proof.Machine

/-! ### Accesses -/

theorem hostWrite_of_ok {s t : State} {off v : Nat} {size : AccessSize} (hoff : off < 4096)
    (h : busWrite s off size v = .ok t) : hostWrite s off size v = .next (hostAdvance t) := by
  rw [hostWrite, if_pos hoff, h]

theorem hostWrite_of_error {s : State} {off v : Nat} {size : AccessSize} {e : BusError} (hoff : off < 4096)
    (h : busWrite s off size v = .error e) : hostWrite s off size v = .next (hostStop s (.busError e)) := by
  rw [hostWrite, if_pos hoff, h]

theorem hostRead_of_ok {s : State} {off v : Nat} {size : AccessSize} (x : HostVar) (hoff : off < 4096)
    (h : busRead s off size = .ok v) : hostRead s off size x = .next (hostAssign s x v) := by
  rw [hostRead, if_pos hoff, h]

theorem hostRead_of_error {s : State} {off : Nat} {size : AccessSize} {e : BusError} (x : HostVar) (hoff : off < 4096)
    (h : busRead s off size = .error e) : hostRead s off size x = .next (hostStop s (.busError e)) := by
  rw [hostRead, if_pos hoff, h]

/-- Settles O16. -/
theorem busErrorOnlyStopsTheHost : Obligations.BusErrorOnlyStopsTheHost :=
  fun _ _ _ _ hoff => ⟨fun _ h => hostWrite_of_error hoff h, fun x h => hostRead_of_error x hoff h⟩

theorem hostStep_of_line {s : State} {line : Line} (hrun : s.host.status = .running)
    (hline : s.host.program[s.host.next]? = some line) : hostStep s = hostExec line.instr s := by
  simp only [hostStep, hrun, hline]

/-- Settles O17: a performed write leaves the host as it was, so the next line is that of s. -/
theorem hostAccessesFollowTheBus : Obligations.HostAccessesFollowTheBus := by
  intro s t off v size x line
  refine ⟨hostStep_of_line, fun _ => rfl, fun _ => rfl, fun _ => rfl, rfl, rfl, rfl, rfl, rfl, rfl, fun hoff h => ?write,
    fun hoff h => hostRead_of_ok x hoff h⟩
  case write =>
    obtain ⟨-, hhost, -, -⟩ := busWrite_frame h
    rw [hostWrite_of_ok hoff h, hostAdvance, hhost]

/-! ### Arithmetic and branches -/

theorem withVar_of_some {s : State} {x : HostVar} {v : Nat} (h : varValue s.host.vars x = some v) (k : Nat → State) :
    withVar s x k = k v := by
  rw [withVar, h]

theorem withVar_of_none {s : State} {x : HostVar} (h : varValue s.host.vars x = none) (k : Nat → State) :
    withVar s x k = hostStop s (.undefinedVariable x) := by
  rw [withVar, h]

theorem hostGoto_of_line {s : State} {l : Label} {k : Nat} (h : linesNamed s.host.program l = [k]) :
    hostGoto s l = { s with host := { s.host with next := k } } := by
  rw [hostGoto, h]

theorem varValue_setVar_self (vars : List (HostVar × Nat)) (x : HostVar) (v : Nat) :
    varValue (setVar vars x v) x = some v := by
  simp [varValue, setVar]

theorem varValue_setVar_ne (vars : List (HostVar × Nat)) {x z : HostVar} (v : Nat) (h : z ≠ x) :
    varValue (setVar vars x v) z = varValue vars z := by
  have hother : ∀ p : HostVar × Nat, (p.1 == z) = true → (!(p.1 == x)) = true := by
    intro p hp
    rw [beq_iff_eq.1 hp]
    simpa using h
  rw [varValue, setVar, List.find?_cons_of_neg (by simpa using h.symm), List.find?_filter, varValue]
  refine congrArg (Option.map Prod.snd) (congrArg (fun q => List.find? q vars) (funext fun p => ?_))
  cases hp : p.1 == z
  · simp
  · simp [hother p hp]

/-- Settles O22: with the variable's value each instruction of the table, and without it the stop. -/
theorem hostArithmeticAndBranches : Obligations.HostArithmeticAndBranches := by
  intro s x y imm l
  refine ⟨fun v hv => ?value, fun hnone i hi => ?undefined, rfl,
    fun v => ⟨varValue_setVar_self .., fun z hz => varValue_setVar_ne _ v hz, rfl, rfl⟩⟩
  case value =>
    simp only [hostExec, withVar_of_some hv]
    refine ⟨trivial, by rw [Nat.shiftRight_eq_div_pow], trivial, trivial, fun h => by rw [if_neg h], fun h => by rw [if_pos h],
      fun k hk => ⟨fun h => by rw [if_pos h, hostGoto_of_line hk], fun h => by rw [if_neg h, hostGoto_of_line hk]⟩⟩
  case undefined =>
    simp only [List.mem_cons, List.not_mem_nil, or_false] at hi
    obtain rfl | rfl | rfl | rfl | rfl | rfl := hi <;> exact congrArg Host.Outcome.next (withVar_of_none hnone _)

/-! ### What a host step cannot change -/

/-- A register write leaves the registers of the other unit. -/
theorem writeReg_other (s : State) {u v : DevUnit} (x : Word32) (r : Reg) (h : v ≠ u) :
    (u = .b2 → (writeReg s v x r).b2 = s.b2) ∧ (u = .b58 → (writeReg s v x r).b58 = s.b58) := by
  match u, v with
  | .b2, .b58 | .b58, .b2 => cases r <;> simp [writeReg, issue, setLatch, setParam0, setParam1]
  | .b2, .b2 | .b58, .b58 => exact absurd rfl h

@[simp] theorem writeReg_mem (s : State) (u : DevUnit) (x : Word32) (r : Reg) : (writeReg s u x r).mem = s.mem := by
  cases u <;> cases r <;> rfl

/-- The bytes of an access inside one window lie in one block (20_memory.md R61, R62). -/
theorem blockOf_window_byte {cfg : Config} {a b k n : Nat} {w : Window} (hl : locate cfg a = .window w k)
    (hin : k + n ≤ winSize cfg w) (hlow : a ≤ b) (hhigh : b < a + n) : blockOf b = blockOf a := by
  obtain ⟨rfl, -, hblock, -⟩ := locate_window hl
  rw [hblock]
  cases w <;> simp only [winBase, winSize] at hlow hhigh hin
  case din => exact if_pos (by omega)
  case dout => exact if_pos (by omega)
  case bin => exact if_neg (by omega)
  case txt => exact if_neg (by omega)

/-- A performed write changes nothing in the other unit's block (20_memory.md R71). -/
theorem busWrite_other_block {s t : State} {a v : Nat} {size : AccessSize} {u : DevUnit}
    (h : busWrite s a size v = .ok t) (hu : blockOf a ≠ u) :
    (u = .b2 → t.b2 = s.b2) ∧ (u = .b58 → t.b58 = s.b58) ∧ ∀ b, blockOf b = u → memRead t.mem b = memRead s.mem b := by
  obtain ⟨-, ⟨u', r, -, rfl, -, -, -, rfl⟩ | ⟨w, k, hl, -, -, hin, rfl⟩⟩ := busWrite_ok h
  · obtain ⟨hb2, hb58⟩ := writeReg_other s (BitVec.ofNat 32 v) r hu
    exact ⟨hb2, hb58, fun b _ => by rw [writeReg_mem]⟩
  · refine ⟨fun _ => rfl, fun _ => rfl, fun b hb => memRead_memWriteBytes_out _ _ _ _ fun hrange => hu ?_⟩
    rw [leBytes_length] at hrange
    rw [← hb, blockOf_window_byte hl hin hrange.1 hrange.2]

/-- Settles O20: a write the host performs is one of an idle unit. -/
theorem pendingOperandsCannotChange : Obligations.PendingOperandsCannotChange := by
  intro s t u hpending h
  obtain ht | ⟨off, size, v, t', hwrite, rfl⟩ := hostStep_cases h
  · rw [ht]
    exact ⟨fun _ => rfl, fun _ => rfl, fun _ _ => rfl⟩
  · obtain ⟨hidle, -⟩ := busWrite_ok hwrite
    have hu : blockOf off ≠ u := fun hu => by
      rw [hu, hpending] at hidle
      cases hidle
    obtain ⟨hb2, hb58, hmem⟩ := busWrite_other_block hwrite hu
    exact ⟨hb2, hb58, hmem⟩

/-! ### What a host step cannot see -/

/-- The part of the B2 unit that no register shows (10_state.md R21). -/
structure HiddenContext where
  h : Vector Word64 8
  t : BitVec 128
  buf : Vector Byte 128
  c : Fin 129
  outlen : Fin 65

/-- s with another hidden context. -/
def withContext (x : HiddenContext) (s : State) : State :=
  { s with b2 := { s.b2 with h := x.h, t := x.t, buf := x.buf, c := x.c, outlen := x.outlen } }

@[simp] theorem withContext_cfg (x : HiddenContext) (s : State) : (withContext x s).cfg = s.cfg := rfl
@[simp] theorem withContext_mem (x : HiddenContext) (s : State) : (withContext x s).mem = s.mem := rfl
@[simp] theorem withContext_host (x : HiddenContext) (s : State) : (withContext x s).host = s.host := rfl
@[simp] theorem latchOf_withContext (x : HiddenContext) (s : State) (u : DevUnit) :
    latchOf (withContext x s) u = latchOf s u := by cases u <;> rfl
@[simp] theorem readReg_withContext (x : HiddenContext) (s : State) (u : DevUnit) (r : Reg) :
    readReg (withContext x s) u r = readReg s u r := by cases u <;> cases r <;> rfl
theorem writeReg_withContext (x : HiddenContext) (s : State) (u : DevUnit) (v : Word32) (r : Reg) :
    writeReg (withContext x s) u v r = withContext x (writeReg s u v r) := by cases u <;> cases r <;> rfl

theorem busCheck_withContext (x : HiddenContext) (s : State) (kind : AccessKind) (a n : Nat) :
    busCheck (withContext x s) kind a n = busCheck s kind a n := by
  rw [busCheck, busCheck, withContext_cfg, latchOf_withContext]

theorem busRead_withContext (x : HiddenContext) (s : State) (a : Nat) (size : AccessSize) :
    busRead (withContext x s) a size = busRead s a size := by
  simp only [busRead, busCheck_withContext, withContext_cfg, withContext_mem, readReg_withContext]

theorem busWrite_withContext (x : HiddenContext) (s : State) (a : Nat) (size : AccessSize) (v : Nat) :
    busWrite (withContext x s) a size v = (busWrite s a size v).map (withContext x) := by
  simp only [busWrite, busCheck_withContext, withContext_cfg, withContext_mem, writeReg_withContext]
  cases busCheck s .write a (sizeBytes size) with
  | some e => rfl
  | none => cases locate s.cfg a <;> rfl

/-- A change of the next state that leaves a stop a stop. -/
def mapNext (f : State → State) (o : Host.Outcome State Fault Refusal) : Host.Outcome State Fault Refusal :=
  andThen o fun t => .next (f t)

theorem hostRead_withContext (x : HiddenContext) (s : State) (off : Nat) (size : AccessSize) (y : HostVar) :
    hostRead (withContext x s) off size y = mapNext (withContext x) (hostRead s off size y) := by
  simp only [hostRead, busRead_withContext]
  split_ifs
  · cases busRead s off size <;> rfl
  · rfl

theorem hostWrite_withContext (x : HiddenContext) (s : State) (off : Nat) (size : AccessSize) (v : Nat) :
    hostWrite (withContext x s) off size v = mapNext (withContext x) (hostWrite s off size v) := by
  simp only [hostWrite, busWrite_withContext]
  split_ifs
  · cases busWrite s off size v <;> rfl
  · rfl

theorem hostGoto_withContext (x : HiddenContext) (s : State) (l : Label) :
    hostGoto (withContext x s) l = withContext x (hostGoto s l) := by
  simp only [hostGoto, withContext_host]
  split <;> rfl

theorem withVar_withContext (x : HiddenContext) (s : State) (y : HostVar) {k k' : Nat → State}
    (hk : ∀ v, k' v = withContext x (k v)) : withVar (withContext x s) y k' = withContext x (withVar s y k) := by
  simp only [withVar, withContext_host]
  cases varValue s.host.vars y with
  | some v => exact hk v
  | none => rfl

/-- Every host instruction does the same whatever the hidden context is, and keeps it. -/
theorem hostExec_withContext (x : HiddenContext) (i : HostInstr) (s : State) :
    hostExec i (withContext x s) = mapNext (withContext x) (hostExec i s) := by
  cases i with
  | w32 off imm => exact hostWrite_withContext ..
  | w16 off imm => exact hostWrite_withContext ..
  | w8 off imm => exact hostWrite_withContext ..
  | rd32 off y => exact hostRead_withContext ..
  | rd16 off y => exact hostRead_withContext ..
  | rd8 off y => exact hostRead_withContext ..
  | beq y imm l =>
    refine congrArg Host.Outcome.next (withVar_withContext x s y fun v => ?_)
    rw [apply_ite (withContext x), hostGoto_withContext]
    rfl
  | bne y imm l =>
    refine congrArg Host.Outcome.next (withVar_withContext x s y fun v => ?_)
    rw [apply_ite (withContext x), hostGoto_withContext]
    rfl
  | andImm y imm z => exact congrArg Host.Outcome.next (withVar_withContext x s y fun _ => rfl)
  | shrImm y imm z => exact congrArg Host.Outcome.next (withVar_withContext x s y fun _ => rfl)
  | addImm y imm z => exact congrArg Host.Outcome.next (withVar_withContext x s y fun _ => rfl)
  | mov y z => exact congrArg Host.Outcome.next (withVar_withContext x s y fun _ => rfl)
  | halt => rfl

theorem hostStep_withContext (x : HiddenContext) (s : State) :
    hostStep (withContext x s) = mapNext (withContext x) (hostStep s) := by
  simp only [hostStep, withContext_host]
  split
  · exact hostExec_withContext ..
  · rfl

/-- Settles O21. -/
theorem hostCannotSeeTheContext : Obligations.HostCannotSeeTheContext := by
  intro s t h ctr b c n hstep
  have hsame := hostStep_withContext ⟨h, ctr, b, c, n⟩ s
  rw [hstep] at hsame
  exact hsame

end Sys2Proof.Machine
end

section
/-! PROOFS of the statements about the machine as a whole: placing a command and running it (20_memory.md R75), the reset event
(70_reset_and_hazards.md R260), completions (R77, 60_exceptions.md R234, R235, R241), and where a step stops. -/

namespace Sys2Proof.Machine

/-! ### The command an engine runs -/

theorem nextAgent_of_schedule {s : State} {a : Agent} {rest : List Agent} (h : s.schedule = a :: rest) :
    nextAgent s = a := by
  rw [nextAgent, h]

theorem takeTurn_of_schedule {s : State} {a : Agent} {rest : List Agent} (h : s.schedule = a :: rest) :
    takeTurn s = { s with schedule := rest, tick := s.tick + 1 } := by
  rw [takeTurn, h, List.tail_cons]

theorem step_of_schedule {s : State} {a : Agent} {rest : List Agent} (h : s.schedule = a :: rest) :
    step s = agentStep a { s with schedule := rest, tick := s.tick + 1 } := by
  rw [step, nextAgent_of_schedule h, takeTurn_of_schedule h]

theorem complete_of_command {s : State} {u : DevUnit} {i : Instr} (hp : (latchOf s u).pending = true)
    (hd : decode u (latchOf s u).word = .ok i) : complete u s = exec i s := by
  rw [complete, if_pos hp, hd]

@[simp] theorem latchOf_withTurn (s : State) (u : DevUnit) (rest : List Agent) (n : Nat) :
    latchOf { s with schedule := rest, tick := n } u = latchOf s u := by cases u <;> rfl

/-- Settles O5. -/
theorem stepRunsTheDecodedCommand : Obligations.StepRunsTheDecodedCommand := by
  intro s u rest i hschedule hp hd
  rw [step_of_schedule hschedule]
  exact complete_of_command (by rwa [latchOf_withTurn]) (by rwa [latchOf_withTurn])

/-- The step after a command was placed: the turn is the engine's, and the schedule is as before. -/
theorem step_placeCommand (s : State) {u : DevUnit} {v : Word32} {i : Instr} (hd : decode u v = .ok i) :
    step (placeCommand s u v) = exec i { setLatch s u { pending := true, word := v } with tick := s.tick + 1 } := by
  have hlatch : latchOf (placeCommand s u v) u = { pending := true, word := v } := by cases u <;> rfl
  rw [stepRunsTheDecodedCommand (placeCommand s u v) u s.schedule i rfl (by rw [hlatch]) (by rw [hlatch]; exact hd)]
  cases u <;> rfl

theorem unitOfCmdOffset_cmdOffset (u : DevUnit) : unitOfCmdOffset (cmdOffset u) = some u :=
  (unitOfCmdOffset_eq_some_iff _ _).2 rfl

/-- Bits whose upper half is the offset of a CMD register place their lower half there (log 11). -/
theorem withFetchWord_eq (s : State) (u : DevUnit) {nbits n : Nat} (h : n % 2 ^ nbits / 2 ^ 32 % 2 ^ 32 = cmdOffset u) :
    s.withFetchWord nbits n = placeCommand s u (BitVec.ofNat 32 (n % 2 ^ nbits)) := by
  rw [State.withFetchWord, placeTableWord, h, unitOfCmdOffset_cmdOffset]

theorem ofNat_low_word (m w : Nat) : BitVec.ofNat 32 (m * 2 ^ 32 + w) = BitVec.ofNat 32 w := by
  apply BitVec.eq_of_toNat_eq
  rw [BitVec.toNat_ofNat, BitVec.toNat_ofNat]
  omega

/-- Settles O6: either form places the word in the latch of its unit. -/
theorem placedCommandRunsNext : Obligations.PlacedCommandRunsNext := by
  intro s u w i hw hd
  refine ⟨fun off hoff => ?wide, ?narrow⟩
  case wide =>
    have hoff' : off = cmdOffset u := by obtain ⟨rfl, rfl⟩ | ⟨rfl, rfl⟩ := hoff <;> rfl
    have hle : cmdOffset u ≤ 0x200 := by cases u <;> decide
    have hbits : (off * 2 ^ 32 + w) % 2 ^ 64 = cmdOffset u * 2 ^ 32 + w := by rw [hoff']; omega
    rw [withFetchWord_eq s u (by rw [hbits]; omega), hbits, ofNat_low_word, step_placeCommand s hd]
  case narrow =>
    rintro rfl
    have hbits : w % 2 ^ 32 = w := Nat.mod_eq_of_lt hw
    have hzero : w % 2 ^ 32 / 2 ^ 32 % 2 ^ 32 = cmdOffset .b2 := by rw [hbits, Nat.div_eq_of_lt hw]; rfl
    rw [withFetchWord_eq s .b2 hzero, hbits, step_placeCommand s hd]

/-- Settles O25. -/
theorem resetEventResetsTheBlock : Obligations.ResetEventResetsTheBlock := by
  intro s rest hschedule
  rw [step_of_schedule hschedule]
  rfl

/-! ### How B58.DECODE ends -/

theorem decodeChars_error {w : Nat} {cs : List Byte} {acc : List Word32} {e : ResultCode}
    (h : decodeChars w cs acc = .error e) : e = .invalidCharacter ∨ e = .capacityExceeded := by
  induction cs generalizing acc with
  | nil => cases h
  | cons ch cs ih =>
    simp only [decodeChars] at h
    split at h
    · cases h
      exact .inl rfl
    split at h
    · cases h
      exact .inl rfl
    split_ifs at h
    · cases h
      exact .inr rfl
    · cases h
      exact .inr rfl
    · exact ih h

theorem decodeChars_length {w : Nat} {cs : List Byte} {acc acc' : List Word32} (h : decodeChars w cs acc = .ok acc') :
    acc'.length = acc.length := by
  induction cs generalizing acc with
  | nil =>
    cases h
    rfl
  | cons ch cs ih =>
    simp only [decodeChars] at h
    split at h
    · cases h
    split at h
    · cases h
    split_ifs at h
    rw [ih h, (b58Fold_value _ _).2]

/-- The unpack step gives as many bytes as the width says (40_base58.md R130). -/
theorem unpack_length {w : Nat} {acc : List Word32} (hl : acc.length = (w + 3) / 4) : (unpack w acc).length = w := by
  have hwords : ∀ l : List Word32, (l.flatMap (lowBytesBE 4)).length = 4 * l.length := fun l => by
    rw [flatMap_lowBytesBE, beBytes_length]
  unfold unpack
  split_ifs
  · rw [List.length_append, hwords, lowBytesBE_eq, beBytes_length, List.length_tail]
    omega
  · rw [hwords]
    omega

/-- The two outcomes of the last steps of B58.DECODE (40_base58.md R130, E8). -/
theorem storeDecoded_cases (s : State) {w : Nat} (zc : Nat) {acc : List Word32} (hl : acc.length = (w + 3) / 4) :
    storeDecoded s w zc acc = finish s .b58 .capacityExceeded ∨
      ∃ bs n, bs.length = w ∧ storeDecoded s w zc acc = b58Done s .bin bs n := by
  unfold storeDecoded
  by_cases hzeros : w < zc + (w - leadingCount 0x00 (unpack w acc))
  · exact .inl (by simp only [if_pos hzeros])
  · exact .inr ⟨unpack w acc, _, unpack_length hl, by simp only [if_neg hzeros]; rfl⟩

/-- The two outcomes of B58.DECODE (40_base58.md R130): an error, or at most N bytes written to BIN. -/
theorem exec_b58Decode_cases (s : State) :
    (∃ e, (e = .invalidCharacter ∨ e = .capacityExceeded) ∧ exec .b58Decode s = .next (finish s .b58 e)) ∨
    ∃ bs n, bs.length ≤ s.cfg.maxLen ∧ exec .b58Decode s = .next (b58Done s .bin bs n) := by
  have hexec : exec .b58Decode s = execB58Decode s := rfl
  rw [hexec]
  unfold execB58Decode
  by_cases hwidth : s.cfg.maxLen < decodeWidth s
  · exact .inl ⟨.capacityExceeded, .inr rfl, by simp only [if_pos hwidth]⟩
  by_cases hlong : s.cfg.txtSize < decodeLen s
  · exact .inl ⟨.capacityExceeded, .inr rfl, by simp only [if_neg hwidth, if_pos hlong]⟩
  simp only [if_neg hwidth, if_neg hlong]
  cases decodeTextLen s with
  | none => exact .inl ⟨.capacityExceeded, .inr rfl, rfl⟩
  | some len =>
    dsimp only
    generalize leadingCount 0x31 (winBytes s .txt len) = zc
    cases hloop : decodeChars (decodeWidth s) ((winBytes s .txt len).drop zc)
        (List.replicate ((decodeWidth s + 3) / 4) 0) with
    | error e => exact .inl ⟨e, decodeChars_error hloop, rfl⟩
    | ok acc =>
      have hl : acc.length = (decodeWidth s + 3) / 4 := by rw [decodeChars_length hloop, List.length_replicate]
      obtain he | ⟨bs, n, hlen, he⟩ := storeDecoded_cases s zc hl
      · exact .inl ⟨.capacityExceeded, .inr rfl, congrArg _ he⟩
      · exact .inr ⟨bs, n, hlen.trans_le (not_lt.1 hwidth), congrArg _ he⟩

/-! ### Completions -/

@[simp] theorem setParam1_schedule (s : State) (u : DevUnit) (v : Word32) : (setParam1 s u v).schedule = s.schedule := by
  cases u <;> rfl
@[simp] theorem setParam1_tick (s : State) (u : DevUnit) (v : Word32) : (setParam1 s u v).tick = s.tick := by
  cases u <;> rfl

/-- Every command ends, and what it has done before leaves N, the host and the turn (60_exceptions.md R221, R234). -/
theorem exec_ends (i : Instr) (s : State) : ∃ s' e, exec i s = .next (finish s' i.devUnit e) ∧
    s'.cfg = s.cfg ∧ s'.host = s.host ∧ s'.schedule = s.schedule ∧ s'.tick = s.tick := by
  cases i with
  | b2Init =>
    obtain ⟨m, -, -, -, -, ⟨-, he⟩ | ⟨-, he⟩⟩ := execB2Init_cases s
    · exact ⟨_, _, he, rfl, rfl, rfl, rfl⟩
    · exact ⟨_, _, he, rfl, rfl, rfl, rfl⟩
  | b2Update =>
    obtain ⟨-, he⟩ | ⟨-, -, he⟩ | ⟨-, -, he⟩ := execB2Update_cases s
    · exact ⟨_, _, he, rfl, rfl, rfl, rfl⟩
    · exact ⟨_, _, he, rfl, rfl, rfl, rfl⟩
    · exact ⟨_, _, he, rfl, rfl, rfl, rfl⟩
  | b2Final =>
    obtain ⟨-, he⟩ | ⟨-, m, -, -, -, -, he⟩ := execB2Final_cases s
    · exact ⟨_, _, he, rfl, rfl, rfl, rfl⟩
    · exact ⟨_, _, he, rfl, rfl, rfl, rfl⟩
  | b58Encode =>
    obtain ⟨-, he⟩ | ⟨-, -, he⟩ | ⟨-, he⟩ := exec_b58Encode_cases s
    · exact ⟨_, _, he, rfl, rfl, rfl, rfl⟩
    · exact ⟨_, _, he, by simp, by simp, by simp, by simp⟩
    · rw [encodedState, b58Done] at he
      exact ⟨_, _, he, by simp, by simp, by simp, by simp⟩
  | b58Decode =>
    obtain ⟨e, -, he⟩ | ⟨bs, n, -, he⟩ := exec_b58Decode_cases s
    · exact ⟨_, _, he, rfl, rfl, rfl, rfl⟩
    · rw [b58Done] at he
      exact ⟨_, _, he, by simp, by simp, by simp, by simp⟩

/-- Settles O28: an idle unit stays as it is; any other completion is an end of a command of the unit. -/
theorem completionsNeverFail : Obligations.CompletionsNeverFail := by
  intro u s
  obtain ⟨hidle, he⟩ | ⟨-, -, he⟩ | ⟨-, i, hd, he⟩ := complete_cases u s
  · exact ⟨s, he, hidle, rfl, rfl, rfl, rfl⟩
  · exact ⟨_, he, finish_pending .., finish_cfg .., finish_host .., finish_schedule .., finish_tick ..⟩
  · obtain ⟨s', e, hend, hcfg, hhost, hschedule, htick⟩ := exec_ends i s
    obtain ⟨rfl, -⟩ := decode_ok hd
    refine ⟨_, he.trans hend, finish_pending .., ?_, ?_, ?_, ?_⟩
    · rw [finish_cfg, hcfg]
    · rw [finish_host, hhost]
    · rw [finish_schedule, hschedule]
    · rw [finish_tick, htick]

theorem SameB2.refl (s : State) : SameB2 s s := ⟨rfl, fun _ _ => rfl⟩

/-- Settles O30: each completion is a function of its own unit and block, and their bytes are apart. -/
theorem completionsOfTheUnitsCommute : Obligations.CompletionsOfTheUnitsCommute := by
  intro s hwf
  obtain ⟨x, bs, hlen, hb2⟩ := complete_b2_local s
  obtain ⟨y, off, cs, hoff, hb58⟩ := complete_b58_local s
  have hsame58 : SameB58 s { s with b2 := x, mem := memWriteBytes s.mem 0x180 bs } :=
    ⟨rfl, rfl, fun a ha => memRead_memWriteBytes_out _ _ _ _ (by omega)⟩
  have hsame2 : SameB2 s { s with b58 := y, mem := memWriteBytes s.mem off cs } :=
    ⟨rfl, fun a ha => memRead_memWriteBytes_out _ _ _ _ (by omega)⟩
  refine ⟨{ s with b2 := x, b58 := y, mem := memWriteBytes (memWriteBytes s.mem 0x180 bs) off cs }, ?b2First, ?b58First⟩
  case b2First => rw [hb2 s (.refl s), b2Result, andThen, hb58 _ hsame58, b58Result]
  case b58First =>
    rw [hb58 s (.refl s), b58Result, andThen, hb2 _ hsame2, b2Result, memWriteBytes_comm s.mem 0x180 off bs cs hwf (by omega)]

theorem blockOf_eq_b2_iff (a : Nat) : blockOf a = .b2 ↔ a < 0x200 := by
  unfold blockOf
  split_ifs <;> simp_all

theorem blockOf_eq_b58_iff (a : Nat) : blockOf a = .b58 ↔ 0x200 ≤ a := by
  unfold blockOf
  split_ifs <;> simp_all

/-- A completion of B2 leaves B58 and its block (10_state.md R20). -/
theorem complete_b2_frame {s t : State} (h : complete .b2 s = .next t) :
    t.b58 = s.b58 ∧ ∀ a, 0x200 ≤ a → memRead t.mem a = memRead s.mem a := by
  obtain ⟨x, bs, hlen, he⟩ := complete_b2_local s
  cases (he s (.refl s)).symm.trans h
  exact ⟨rfl, fun a ha => memRead_memWriteBytes_out _ _ _ _ (by omega)⟩

/-- A completion of B58 leaves B2 and its block (10_state.md R20). -/
theorem complete_b58_frame {s t : State} (h : complete .b58 s = .next t) :
    t.b2 = s.b2 ∧ ∀ a, a < 0x200 → memRead t.mem a = memRead s.mem a := by
  obtain ⟨x, off, bs, hoff, he⟩ := complete_b58_local s
  cases (he s (.refl s)).symm.trans h
  exact ⟨rfl, fun a ha => memRead_memWriteBytes_out _ _ _ _ (by omega)⟩

/-- The same bytes written to two memories: a byte that was the same is the same. -/
theorem memRead_memWriteBytes_congr {m m' : Memory} (hm : Memory.wf m = true) (hm' : Memory.wf m' = true) (off : Nat)
    (bs : List Byte) {a : Nat} (h : memRead m a = memRead m' a) :
    memRead (memWriteBytes m off bs) a = memRead (memWriteBytes m' off bs) a := by
  by_cases hin : off ≤ a ∧ a < off + bs.length
  · obtain ⟨k, rfl⟩ := Nat.exists_eq_add_of_le hin.1
    rw [memRead_memWriteBytes_in _ _ _ _ hm (by omega), memRead_memWriteBytes_in _ _ _ _ hm' (by omega)]
  · rw [memRead_memWriteBytes_out _ _ _ _ hin, memRead_memWriteBytes_out _ _ _ _ hin, h]

/-- A completion of B2 leaves the same unit and the same bytes of its block in two states it cannot tell apart. -/
theorem complete_b2_same {s s' t t' : State} (hwf : Memory.wf s.mem = true) (hwf' : Memory.wf s'.mem = true)
    (hsame : SameB2 s s') (h : complete .b2 s = .next t) (h' : complete .b2 s' = .next t') :
    t.b2 = t'.b2 ∧ ∀ a, a < 0x200 → memRead t.mem a = memRead t'.mem a := by
  obtain ⟨x, bs, -, he⟩ := complete_b2_local s
  cases (he s (.refl s)).symm.trans h
  cases (he s' hsame).symm.trans h'
  exact ⟨rfl, fun a ha => memRead_memWriteBytes_congr hwf hwf' _ _ (hsame.mem a ha).symm⟩

/-- A completion of B58 leaves the same unit and the same bytes of its block in two states it cannot tell apart. -/
theorem complete_b58_same {s s' t t' : State} (hwf : Memory.wf s.mem = true) (hwf' : Memory.wf s'.mem = true)
    (hsame : SameB58 s s') (h : complete .b58 s = .next t) (h' : complete .b58 s' = .next t') :
    t.b58 = t'.b58 ∧ ∀ a, 0x200 ≤ a → memRead t.mem a = memRead t'.mem a := by
  obtain ⟨x, off, bs, -, he⟩ := complete_b58_local s
  cases (he s (.refl s)).symm.trans h
  cases (he s' hsame).symm.trans h'
  exact ⟨rfl, fun a ha => memRead_memWriteBytes_congr hwf hwf' _ _ (hsame.mem a ha).symm⟩

/-- Settles O31: what each unit's completion writes, and what it reads. -/
theorem unitsShareNoState : Obligations.UnitsShareNoState := by
  refine ⟨fun u s t h => ?writes, fun u s s' t t' hwf hwf' hcfg hb2 hb58 hmem h h' => ?reads⟩
  case writes =>
    cases u with
    | b2 =>
      obtain ⟨hunit, hblock⟩ := complete_b2_frame h
      refine ⟨fun _ => hunit, nofun, fun a ha => hblock a ?_⟩
      rwa [ne_eq, blockOf_eq_b2_iff, not_lt] at ha
    | b58 =>
      obtain ⟨hunit, hblock⟩ := complete_b58_frame h
      refine ⟨nofun, fun _ => hunit, fun a ha => hblock a ?_⟩
      rwa [ne_eq, blockOf_eq_b58_iff, not_le] at ha
  case reads =>
    cases u with
    | b2 =>
      simp only [blockOf_eq_b2_iff] at hmem ⊢
      obtain ⟨hunit, hblock⟩ := complete_b2_same hwf hwf' ⟨(hb2 rfl).symm, fun a ha => (hmem a ha).symm⟩ h h'
      exact ⟨fun _ => hunit, nofun, hblock⟩
    | b58 =>
      simp only [blockOf_eq_b58_iff] at hmem ⊢
      obtain ⟨hunit, hblock⟩ :=
        complete_b58_same hwf hwf' ⟨hcfg.symm, (hb58 rfl).symm, fun a ha => (hmem a ha).symm⟩ h h'
      exact ⟨nofun, fun _ => hunit, hblock⟩

/-! ### STATUS.ERR -/

@[simp] theorem errOf_writeReg (s : State) (u w : DevUnit) (v : Word32) (r : Reg) :
    errOf (writeReg s u v r) w = errOf s w := by
  cases r with
  | cmd => exact errOf_setLatch ..
  | status => rfl
  | param0 => exact errOf_setParam0 ..
  | param1 => exact errOf_setParam1 ..

theorem errOf_congr {s t : State} (hb2 : t.b2 = s.b2) (hb58 : t.b58 = s.b58) (u : DevUnit) : errOf t u = errOf s u := by
  cases u
  · exact congrArg B2Unit.err hb2
  · exact congrArg B58Unit.err hb58

theorem busWrite_errOf {s t : State} {a v : Nat} {size : AccessSize} (h : busWrite s a size v = .ok t) (u : DevUnit) :
    errOf t u = errOf s u := by
  obtain ⟨-, ⟨u', r, -, -, -, -, -, rfl⟩ | ⟨w, k, -, -, -, -, rfl⟩⟩ := busWrite_ok h
  · exact errOf_writeReg ..
  · exact errOf_congr rfl rfl u

theorem hostStep_errOf {s t : State} (h : hostStep s = .next t) (u : DevUnit) : errOf t u = errOf s u := by
  obtain ht | ⟨off, size, v, t', hwrite, rfl⟩ := hostStep_cases h
  · rw [ht]
    exact errOf_congr rfl rfl u
  · exact (errOf_congr rfl rfl u).trans (busWrite_errOf hwrite u)

/-- Settles O32: neither the host nor the other engine writes it. -/
theorem errKeepsUntilTheNextCompletion : Obligations.ErrKeepsUntilTheNextCompletion := by
  intro s t u a hengine hreset h
  match a, u with
  | .host, _ => exact hostStep_errOf h _
  | .reset, _ => exact absurd rfl hreset
  | .engine .b2, .b58 => exact congrArg B58Unit.err (complete_b2_frame h).1
  | .engine .b58, .b2 => exact congrArg B2Unit.err (complete_b58_frame h).1
  | .engine .b2, .b2 => exact absurd rfl hengine
  | .engine .b58, .b58 => exact absurd rfl hengine

/-! ### Where a step stops -/

/-- The offset a host instruction accesses, if it is one of the six accesses (30_encoding.md R98). -/
def accessOffset : HostInstr → Option Nat
  | .w32 off _ => some off
  | .w16 off _ => some off
  | .w8 off _ => some off
  | .rd32 off _ => some off
  | .rd16 off _ => some off
  | .rd8 off _ => some off
  | .beq _ _ _ => none
  | .bne _ _ _ => none
  | .andImm _ _ _ => none
  | .shrImm _ _ _ => none
  | .addImm _ _ _ => none
  | .mov _ _ => none
  | .halt => none

theorem accessOffset_eq_some_iff (i : HostInstr) (off : Nat) : accessOffset i = some off ↔
    (∃ imm, i = .w32 off imm) ∨ (∃ imm, i = .w16 off imm) ∨ (∃ imm, i = .w8 off imm) ∨
      ∃ x, i = .rd32 off x ∨ i = .rd16 off x ∨ i = .rd8 off x := by
  cases i <;> simp [accessOffset]

/-- The outcome is a fault for an offset outside the device, or a next state (log 6). -/
def StopsOutside (off : Option Nat) (o : Host.Outcome State Fault Refusal) : Prop :=
  (∃ a, off = some a ∧ 4096 ≤ a ∧ o = .fault (.outsideDevice a)) ∨
    ((∀ a, off = some a → a < 4096) ∧ ∃ t, o = .next t)

theorem hostWrite_stops (s : State) (off : Nat) (size : AccessSize) (v : Nat) :
    StopsOutside (some off) (hostWrite s off size v) := by
  obtain hin | hout := Nat.lt_or_ge off 4096
  · refine .inr ⟨fun a ha => Option.some.inj ha ▸ hin, ?_⟩
    cases h : busWrite s off size v with
    | ok t => exact ⟨_, hostWrite_of_ok hin h⟩
    | error e => exact ⟨_, hostWrite_of_error hin h⟩
  · exact .inl ⟨off, rfl, hout, if_neg (not_lt.2 hout)⟩

theorem hostRead_stops (s : State) (off : Nat) (size : AccessSize) (x : HostVar) :
    StopsOutside (some off) (hostRead s off size x) := by
  obtain hin | hout := Nat.lt_or_ge off 4096
  · refine .inr ⟨fun a ha => Option.some.inj ha ▸ hin, ?_⟩
    cases h : busRead s off size with
    | ok v => exact ⟨_, hostRead_of_ok x hin h⟩
    | error e => exact ⟨_, hostRead_of_error x hin h⟩
  · exact .inl ⟨off, rfl, hout, if_neg (not_lt.2 hout)⟩

theorem stopsOutside_none (t : State) : StopsOutside none (.next t) := .inr ⟨nofun, t, rfl⟩

theorem hostExec_stops (i : HostInstr) (s : State) : StopsOutside (accessOffset i) (hostExec i s) := by
  cases i with
  | w32 off imm => exact hostWrite_stops ..
  | w16 off imm => exact hostWrite_stops ..
  | w8 off imm => exact hostWrite_stops ..
  | rd32 off x => exact hostRead_stops ..
  | rd16 off x => exact hostRead_stops ..
  | rd8 off x => exact hostRead_stops ..
  | beq x imm l => exact stopsOutside_none _
  | bne x imm l => exact stopsOutside_none _
  | andImm x imm y => exact stopsOutside_none _
  | shrImm x imm y => exact stopsOutside_none _
  | addImm x imm y => exact stopsOutside_none _
  | mov x y => exact stopsOutside_none _
  | halt => exact stopsOutside_none _

/-- The offset the next step accesses: the host's turn, a running host, a line with an access. -/
def stepOffset (s : State) : Option Nat :=
  match nextAgent s, s.host.status, s.host.program[s.host.next]? with
  | .host, .running, some line => accessOffset line.instr
  | _, _, _ => none

theorem stepOffset_eq_some_iff (s : State) (off : Nat) : stepOffset s = some off ↔ ∃ line, nextAgent s = .host ∧
    s.host.status = .running ∧ s.host.program[s.host.next]? = some line ∧ accessOffset line.instr = some off := by
  unfold stepOffset
  split
  · next line hagent hrun hline => simp [hagent, hrun, hline]
  · next hno =>
    simp only [reduceCtorEq, false_iff]
    rintro ⟨line, hagent, hrun, hline, -⟩
    exact hno line hagent hrun hline

theorem stepOffset_eq_none {s : State} (h : ∀ line, nextAgent s = .host → s.host.status = .running →
    s.host.program[s.host.next]? ≠ some line) : stepOffset s = none := by
  refine Option.eq_none_iff_forall_ne_some.2 fun off hoff => ?_
  obtain ⟨line, hagent, hrun, hline, -⟩ := (stepOffset_eq_some_iff s off).1 hoff
  exact h line hagent hrun hline

theorem hostStep_stops {s : State} (h : nextAgent s = .host) : StopsOutside (stepOffset s) (hostStep (takeTurn s)) := by
  unfold hostStep
  split
  · next line hrun hline =>
    rw [takeTurn_host] at hrun hline
    have hoff : stepOffset s = accessOffset line.instr := by simp only [stepOffset, h, hrun, hline]
    rw [hoff]
    exact hostExec_stops ..
  · next hno =>
    rw [stepOffset_eq_none (s := s) fun line _ hrun hline => hno line hrun hline]
    exact stopsOutside_none _

theorem step_stops (s : State) : StopsOutside (stepOffset s) (step s) := by
  unfold step
  cases h : nextAgent s with
  | host => exact hostStep_stops h
  | engine u =>
    obtain ⟨t, ht, -⟩ := completionsNeverFail u (takeTurn s)
    have hnone : stepOffset s = none := stepOffset_eq_none fun _ hagent => by simp [h] at hagent
    rw [hnone, agentStep, ht]
    exact stopsOutside_none t
  | reset =>
    have hnone : stepOffset s = none := stepOffset_eq_none fun _ hagent => by simp [h] at hagent
    rw [hnone]
    exact stopsOutside_none _

/-- Settles O29: `step_stops` says it of the offset the step accesses. -/
theorem stepStopsOnlyOutsideTheDevice : Obligations.StepStopsOnlyOutsideTheDevice := by
  intro s
  simp only [← accessOffset_eq_some_iff]
  obtain ⟨a, hoff, hout, he⟩ | ⟨hin, t, he⟩ := step_stops s
  · rw [he]
    refine ⟨fun r => nofun, fun r => ⟨fun h => ?fault, ?offset⟩⟩
    case fault =>
      cases h
      obtain ⟨line, hagent, hrun, hline, haccess⟩ := (stepOffset_eq_some_iff s a).1 hoff
      exact ⟨a, line, rfl, hout, hagent, hrun, hline, haccess⟩
    case offset =>
      rintro ⟨off, line, rfl, -, hagent, hrun, hline, haccess⟩
      have hoff' := (stepOffset_eq_some_iff s off).2 ⟨line, hagent, hrun, hline, haccess⟩
      cases hoff.symm.trans hoff'
      rfl
  · rw [he]
    refine ⟨fun r => nofun, fun r => ⟨nofun, ?_⟩⟩
    rintro ⟨off, line, -, hout, hagent, hrun, hline, haccess⟩
    exact absurd (hin off ((stepOffset_eq_some_iff s off).2 ⟨line, hagent, hrun, hline, haccess⟩)) (not_lt.2 hout)

end Sys2Proof.Machine
end

section
/-! PROOFS that the reset state meets the invariant and that every step keeps it (10_state.md R25 to R27, R33;
70_reset_and_hazards.md R269; 60_exceptions.md R222, R226). -/

namespace Sys2Proof.Machine

/-! ### The B2 context -/

theorem zeroContext_inv (x : B2Unit) {p : Phase} (hp : p = .uninit ∨ p = .inert) : ContextInv (zeroContext x p) where
  outlenZero := ⟨fun _ => hp, fun _ => rfl⟩
  zeroed _ := ⟨rfl, rfl, rfl, rfl⟩
  full h := by
    obtain rfl : p = .finalized := h
    simp at hp
  tailZero k hk _ := Vector.getElem_replicate hk
  wholeBlocks _ := rfl

/-- A context in a phase with a digest length. -/
theorem not_zeroPhase {p : Phase} (h : p = .active ∨ p = .finalized) : ¬ (p = .uninit ∨ p = .inert) := by
  obtain rfl | rfl := h <;> simp

theorem ContextInv.outlen_ne_zero {x : B2Unit} (hx : ContextInv x) (h : x.phase = .active) : x.outlen ≠ 0 :=
  fun h0 => not_zeroPhase (.inl h) (hx.outlenZero.1 h0)

/-- An active context with a digest length: no more than the buffer's tail and the counter is left to check. -/
theorem activeContext_inv {x : B2Unit} (hp : x.phase = .active) (hn : x.outlen ≠ 0)
    (htail : ∀ k (hk : k < 128), x.c.val ≤ k → x.buf[k] = 0) (hblocks : x.t.toNat % 128 = 0) : ContextInv x where
  outlenZero := ⟨fun h => absurd h hn, fun h => absurd h (not_zeroPhase (.inl hp))⟩
  zeroed h := absurd h (not_zeroPhase (.inl hp))
  full h := by
    rw [hp] at h
    cases h
  tailZero := htail
  wholeBlocks _ := hblocks

/-- What a valid B2.INIT sets up (41_blake2b.md R179). -/
theorem initContext_inv (x : B2Unit) {nn : Nat} {key : List Byte} (hpos : 1 ≤ nn) (hnn : nn ≤ 64)
    (hkey : key.length ≤ 64) :
    ContextInv { absorbKey (freshContext x nn key.length) key with phase := .active } := by
  obtain ⟨buf, hx, hbuf⟩ := keyedContext_spec x nn hkey
  have houtlen := freshContext_outlen x key.length hnn
  rw [hx]
  refine activeContext_inv rfl (fun h0 => ?outlen) (fun k hk hle => ?tail) rfl
  case outlen =>
    have h0' : (freshContext x nn key.length).outlen = 0 := h0
    rw [h0'] at houtlen
    have hzero : nn = 0 := houtlen.symm
    omega
  case tail =>
    have hle' : (if key.length = 0 then (0 : Fin 129) else 128).val ≤ k := hle
    have hempty : key.length = 0 := by
      by_contra hne
      rw [if_neg hne] at hle'
      exact absurd hk (not_lt.2 hle')
    exact (hbuf k hk).trans (List.getD_eq_default _ _ (by omega))

/-- Absorbing keeps it (41_blake2b.md R177). -/
theorem ContextInv.absorb {x : B2Unit} (hx : ContextInv x) (hp : x.phase = .active) (bs : List Byte) :
    ContextInv (absorb x bs) := by
  refine activeContext_inv ?_ ?_ (absorb_tailZero bs x hx.tailZero) (absorb_wholeBlocks bs x (hx.wholeBlocks hp))
  · rw [absorb_phase, hp]
  · rw [absorb_outlen]
    exact hx.outlen_ne_zero hp

/-- B2.FINAL leaves the padded buffer full (41_blake2b.md R181). -/
theorem ContextInv.finalContext {x : B2Unit} (hx : ContextInv x) (hp : x.phase = .active) :
    ContextInv (finalContext x) where
  outlenZero := ⟨fun h => absurd h (hx.outlen_ne_zero hp), fun h => absurd h (not_zeroPhase (.inr rfl))⟩
  zeroed h := absurd h (not_zeroPhase (.inr rfl))
  full _ := rfl
  tailZero k hk hle := absurd hk (not_lt.2 hle)
  wholeBlocks h := by cases h

/-! ### The parts of the invariant -/

/-- The bytes of DOUT a context asks for (10_state.md R33). -/
def ShowsDigest (x : B2Unit) (m : Memory) : Prop :=
  ∀ k < 64, memRead m (0x180 + k) = if x.phase = .finalized ∧ k < x.outlen.val then digestByte x.h k else 0

theorem Inv.showsDigest {s : State} (hs : Inv s) : ShowsDigest s.b2 s.mem := hs.digest

theorem showsDigest_of_zero {x : B2Unit} {m : Memory} (hp : x.phase ≠ .finalized)
    (h : ∀ k < 64, memRead m (0x180 + k) = 0) : ShowsDigest x m := by
  intro k hk
  rw [h k hk, if_neg fun hfin => hp hfin.1]

/-- The invariant reads the block and N only. -/
theorem Inv.of_block {s t : State} (hs : Inv s) (hcfg : t.cfg = s.cfg) (hb2 : t.b2 = s.b2) (hb58 : t.b58 = s.b58)
    (hmem : t.mem = s.mem) : Inv t where
  cfgOk := hcfg ▸ hs.cfgOk
  memCanonical := hmem ▸ hs.memCanonical
  memMapped := by rw [hmem, hcfg]; exact hs.memMapped
  context := hb2 ▸ hs.context
  digest k hk := by
    rw [hb2, winRead, hmem]
    exact hs.digest k hk
  b2CodeOk := hb2 ▸ hs.b2CodeOk
  b58CodeOk := hb58 ▸ hs.b58CodeOk

/-- Registers of B2 that are not part of the context. -/
theorem Inv.withRegs {s : State} (hs : Inv s) (l : Latch) {e : ResultCode} (he : e ∈ b2Codes) (p q : Word32) :
    Inv { s with b2 := { s.b2 with latch := l, err := e, param0 := p, param1 := q } } where
  cfgOk := hs.cfgOk
  memCanonical := hs.memCanonical
  memMapped := hs.memMapped
  context := ⟨hs.context.outlenZero, hs.context.zeroed, hs.context.full, hs.context.tailZero, hs.context.wholeBlocks⟩
  digest := hs.digest
  b2CodeOk := he
  b58CodeOk := hs.b58CodeOk

theorem Inv.withB58 {s : State} (hs : Inv s) {y : B58Unit} (hy : y.err ∈ b58Codes) : Inv { s with b58 := y } where
  cfgOk := hs.cfgOk
  memCanonical := hs.memCanonical
  memMapped := hs.memMapped
  context := hs.context
  digest := hs.digest
  b2CodeOk := hs.b2CodeOk
  b58CodeOk := hy

/-- An offset of a window is one of the memory's. -/
theorem inWindow_of_window {cfg : Config} (hc : cfg.wf = true) {w : Window} {a : Nat} (hlow : winBase w ≤ a)
    (hhigh : a < winBase w + winSize cfg w) : inWindow cfg a = true := by
  obtain ⟨k, rfl⟩ := Nat.exists_eq_add_of_le hlow
  rw [inWindow, locate_of_window hc (by omega)]

/-- A context of B2 and a memory changed in DOUT only. -/
theorem Inv.withDigest {s : State} (hs : Inv s) {x : B2Unit} {m : Memory} (hx : ContextInv x) (he : x.err = s.b2.err)
    (hwf : Memory.wf m = true) (hcells : ∀ cell ∈ m, (0x180 ≤ cell.1 ∧ cell.1 < 0x1C0) ∨ cell ∈ s.mem)
    (hdigest : ShowsDigest x m) : Inv { s with b2 := x, mem := m } where
  cfgOk := hs.cfgOk
  memCanonical := hwf
  memMapped cell hcell := (hcells cell hcell).elim
    (fun h => inWindow_of_window (w := .dout) hs.cfgOk h.1 h.2) (hs.memMapped cell)
  context := hx
  digest := hdigest
  b2CodeOk := he ▸ hs.b2CodeOk
  b58CodeOk := hs.b58CodeOk

/-- Bytes written inside a window that is not DOUT. -/
theorem Inv.writeWindow {s : State} (hs : Inv s) {w : Window} {k : Nat} {bs : List Byte} (hw : w ≠ .dout)
    (hin : k + bs.length ≤ winSize s.cfg w) :
    Inv { s with mem := memWriteBytes s.mem (winBase w + k) bs } where
  cfgOk := hs.cfgOk
  memCanonical := memWriteBytes_wf _ _ _ hs.memCanonical
  memMapped cell hcell := (mem_memWriteBytes hcell).elim
    (fun h => inWindow_of_window (w := w) hs.cfgOk (by omega) (by omega)) (hs.memMapped cell)
  context := hs.context
  digest j hj := by
    refine (memRead_memWriteBytes_out _ _ _ _ ?_).trans (hs.digest j hj)
    cases w with
    | din =>
      simp only [winBase, winSize] at hin ⊢
      omega
    | dout => exact absurd rfl hw
    | bin => simp only [winBase]; omega
    | txt => simp only [winBase]; omega
  b2CodeOk := hs.b2CodeOk
  b58CodeOk := hs.b58CodeOk

/-! ### The shared operations -/

theorem Inv.finish_b2 {s : State} (hs : Inv s) {e : ResultCode} (he : e ∈ b2Codes) : Inv (finish s .b2 e) :=
  hs.withRegs _ he _ _

theorem Inv.finish_b58 {s : State} (hs : Inv s) {e : ResultCode} (he : e ∈ b58Codes) : Inv (finish s .b58 e) :=
  hs.withB58 he

theorem Inv.setParam1_b58 {s : State} (hs : Inv s) (v : Word32) : Inv (setParam1 s .b58 v) := hs.withB58 hs.b58CodeOk

theorem Inv.winWrite {s : State} (hs : Inv s) {w : Window} {bs : List Byte} (hw : w ≠ .dout)
    (hin : bs.length ≤ winSize s.cfg w) : Inv (winWrite s w bs) := hs.writeWindow (k := 0) hw (by omega)

theorem Inv.b58Done {s : State} (hs : Inv s) {w : Window} {bs : List Byte} (n : Nat) (hw : w ≠ .dout)
    (hin : bs.length ≤ winSize s.cfg w) : Inv (b58Done s w bs n) :=
  ((hs.winWrite hw hin).setParam1_b58 _).finish_b58 (by decide)

theorem Inv.writeReg {s : State} (hs : Inv s) (u : DevUnit) (v : Word32) (r : Reg) : Inv (writeReg s u v r) := by
  cases u with
  | b2 => cases r <;> exact hs.withRegs _ hs.b2CodeOk _ _
  | b58 => cases r <;> exact hs.withB58 hs.b58CodeOk

/-- The reset event leaves a block that meets the invariant, whatever it was before. -/
theorem deviceReset_inv {s : State} (hcfg : s.cfg.wf = true) : Inv (deviceReset s) where
  cfgOk := hcfg
  memCanonical := rfl
  memMapped := by simp [deviceReset]
  context := zeroContext_inv B2Unit.reset (.inl rfl)
  digest := showsDigest_of_zero (x := B2Unit.reset) Phase.noConfusion fun _ _ => memRead_nil _
  b2CodeOk := show ResultCode.ok ∈ b2Codes by decide
  b58CodeOk := show ResultCode.ok ∈ b58Codes by decide

/-- Settles O26: the reset state is its own reset. -/
theorem resetStateMeetsTheInvariant : Obligations.ResetStateMeetsTheInvariant :=
  deviceReset_inv (s := State.reset) (by decide)

/-! ### The commands -/

@[simp] theorem absorbKey_err (x : B2Unit) (key : List Byte) : (absorbKey x key).err = x.err := by
  unfold absorbKey
  split
  · rfl
  · exact absorb_err x key

theorem execB2Init_inv {s t : State} (hs : Inv s) (h : execB2Init s = .next t) : Inv t := by
  obtain ⟨m, -, hwf, hzero, hcells, ⟨-, he⟩ | ⟨hgood, he⟩⟩ := execB2Init_cases s
  · cases he.symm.trans h
    refine (hs.withDigest (zeroContext_inv s.b2 (.inr rfl)) rfl (hwf hs.memCanonical) hcells ?_).finish_b2 (by decide)
    exact showsDigest_of_zero Phase.noConfusion (hzero hs.memCanonical)
  · cases he.symm.trans h
    obtain ⟨hpos, hnn, hkey⟩ := (initInvalid_eq_false_iff _ _).1 hgood
    rw [← initKey_length] at hkey ⊢
    have hcontext := initContext_inv s.b2 hpos hnn hkey
    refine (hs.withDigest hcontext (absorbKey_err ..) (hwf hs.memCanonical) hcells ?_).finish_b2 (by decide)
    exact showsDigest_of_zero Phase.noConfusion (hzero hs.memCanonical)

theorem execB2Update_inv {s t : State} (hs : Inv s) (h : execB2Update s = .next t) : Inv t := by
  obtain ⟨-, he⟩ | ⟨-, -, he⟩ | ⟨hphase, -, he⟩ := execB2Update_cases s
  · cases he.symm.trans h
    exact hs.finish_b2 (by decide)
  · cases he.symm.trans h
    exact hs.finish_b2 (by decide)
  · cases he.symm.trans h
    have hnot : s.b2.phase ≠ .finalized := by simp [hphase]
    have hzero : ∀ k < 64, memRead s.mem (0x180 + k) = 0 := fun k hk => by
      rw [hs.showsDigest k hk, if_neg fun hfin => hnot hfin.1]
    refine (hs.withDigest (hs.context.absorb hphase (updateBytes s)) (absorb_err ..) hs.memCanonical
      (fun _ hcell => .inr hcell) ?_).finish_b2 (by decide)
    exact showsDigest_of_zero (by rwa [absorb_phase]) hzero

theorem execB2Final_inv {s t : State} (hs : Inv s) (h : execB2Final s = .next t) : Inv t := by
  obtain ⟨-, he⟩ | ⟨hphase, m, -, hwf, hdigest, hcells, he⟩ := execB2Final_cases s
  · cases he.symm.trans h
    exact hs.finish_b2 (by decide)
  · cases he.symm.trans h
    refine (hs.withDigest (hs.context.finalContext hphase) rfl (hwf hs.memCanonical) hcells fun k hk => ?_).finish_b2
      (by decide)
    rw [hdigest hs.memCanonical k hk]
    exact if_congr (and_iff_right rfl).symm rfl rfl

theorem exec_b58Encode_inv {s t : State} (hs : Inv s) (h : exec .b58Encode s = .next t) : Inv t := by
  obtain ⟨-, he⟩ | ⟨-, -, he⟩ | ⟨hlen, he⟩ := exec_b58Encode_cases s
  · cases he.symm.trans h
    exact hs.finish_b58 (by decide)
  · cases he.symm.trans h
    exact (hs.setParam1_b58 _).finish_b58 (by decide)
  · cases he.symm.trans h
    refine hs.b58Done _ Window.noConfusion ?_
    rw [List.length_append, encodeText_length]
    exact encodeNeeded_lt_txtSize s hlen

theorem exec_b58Decode_inv {s t : State} (hs : Inv s) (h : exec .b58Decode s = .next t) : Inv t := by
  obtain ⟨e, he | he, hexec⟩ | ⟨bs, n, hlen, hexec⟩ := exec_b58Decode_cases s
  · cases hexec.symm.trans h
    exact hs.finish_b58 (by rw [he]; decide)
  · cases hexec.symm.trans h
    exact hs.finish_b58 (by rw [he]; decide)
  · cases hexec.symm.trans h
    exact hs.b58Done n Window.noConfusion hlen

theorem exec_inv {i : Instr} {s t : State} (hs : Inv s) (h : exec i s = .next t) : Inv t := by
  cases i with
  | b2Init => exact execB2Init_inv hs h
  | b2Update => exact execB2Update_inv hs h
  | b2Final => exact execB2Final_inv hs h
  | b58Encode => exact exec_b58Encode_inv hs h
  | b58Decode => exact exec_b58Decode_inv hs h

/-! ### The agents -/

theorem complete_inv {u : DevUnit} {s t : State} (hs : Inv s) (h : complete u s = .next t) : Inv t := by
  obtain ⟨-, he⟩ | ⟨-, -, he⟩ | ⟨-, i, -, he⟩ := complete_cases u s
  · cases he.symm.trans h
    exact hs
  · cases he.symm.trans h
    cases u with
    | b2 => exact hs.finish_b2 (by decide)
    | b58 => exact hs.finish_b58 (by decide)
  · exact exec_inv hs (he.symm.trans h)

theorem busWrite_inv {s t : State} {a v : Nat} {size : AccessSize} (hs : Inv s) (h : busWrite s a size v = .ok t) :
    Inv t := by
  obtain ⟨-, ⟨u, r, -, -, -, -, -, rfl⟩ | ⟨w, k, hl, hw, -, hin, rfl⟩⟩ := busWrite_ok h
  · exact hs.writeReg ..
  · obtain ⟨rfl, -⟩ := locate_window hl
    exact hs.writeWindow hw (by rwa [leBytes_length])

theorem hostStep_inv {s t : State} (hs : Inv s) (h : hostStep s = .next t) : Inv t := by
  obtain ht | ⟨off, size, v, t', hwrite, rfl⟩ := hostStep_cases h
  · rw [ht]
    exact hs.of_block rfl rfl rfl rfl
  · exact (busWrite_inv hs hwrite).of_block rfl rfl rfl rfl

/-- Settles O27: taking the turn changes nothing of the block, and each agent keeps the invariant. -/
theorem everyStepKeepsTheInvariant : Obligations.EveryStepKeepsTheInvariant := by
  intro s t hs h
  have hturn : Inv (takeTurn s) := hs.of_block rfl rfl rfl rfl
  obtain ⟨-, hhost⟩ | ⟨u, -, hengine⟩ | ⟨-, rfl⟩ := step_cases h
  · exact hostStep_inv hturn hhost
  · exact complete_inv hturn hengine
  · exact deviceReset_inv hturn.cfgOk

end Sys2Proof.Machine
end
